-- ==== Sys2Proof/Word.lean ====
section
/-! DEFINITION. Words of SYNTH-SUB000 (spec 00_scope.md R9): the 32-bit word of the ports and registers, the byte a
host may see it as, the name of the binary32 reading of a word, and the stored number of any number format. -/

namespace Sys2Proof

/-- A 32-bit word of the `cmd`, `rsp`, `out` ports and of the registers (R8, R9). -/
abbrev Word := BitVec 32

/-- A word read as an IEEE 754 binary32 bit pattern (R9, 20_memory.md R44). The arithmetic is `Machine/Fp.lean`. -/
abbrev F32 := BitVec 32

/-- A byte of a word as a host sees it (20_memory.md R44). -/
abbrev Byte := BitVec 8

/-- A rational number `num / den`. -/
structure Exact where
  num : Int
  den : Nat
deriving DecidableEq, Repr, Inhabited

/-- A stored `NUM` value (R9): a binary32 word, or a number that another number format holds, as its value. Infinities and
NaNs of every format are written as the binary32 ones (log 1). -/
inductive Val where
  | f32 (w : F32)
  | num (q : Exact)
deriving DecidableEq, Repr, Inhabited

end Sys2Proof
end

