-- ==== Sys2Proof/Syntax.lean ====
section
/-! DEFINITION. The commands of SYNTHCMD 1.0 (30_encoding.md R55, R58): one constructor of `Instr` for each row of
spec/opcode_table.json. Operand words are taken whole (R57); register numbers become names here. -/

namespace Sys2Proof

/-- A register a command can name (10_state.md R14, R21 to R24). -/
inductive Reg where
  | oscA | oscB | oscMix
  | envAttack | envDecay | envSustain | envRelease
  | fltCutoff | fltResonance | fltMode
  | lfoShape | lfoRate | lfoDepth
  | distDrive
  | grainEnable | grainRate | grainDuty | grainJitter
  | status | activeCount | nextId | nvoices
deriving DecidableEq, Repr

/-- What the `idx` field of `SETP` and `GETP` selects: a register, or a reserved number, which the command answers
`BAD_REG` (R68) and which therefore stays in the instruction. -/
inductive RegSel where
  | reg (r : Reg)
  | reserved (idx : BitVec 8)
deriving DecidableEq, Repr

/-- The six commands (R58). -/
inductive Instr where
  /-- `NOTE_ON f`, frequency in Hz (R59). -/
  | noteOn (f : F32)
  /-- `NOTE_OFF id` (R60). -/
  | noteOff (id : Word)
  /-- `NOTE_OFF_FREQ f`, frequency in Hz (R61). -/
  | noteOffFreq (f : F32)
  /-- `SETP reg, v` (R62). -/
  | setp (sel : RegSel) (v : Word)
  /-- `GETP reg` (R62). -/
  | getp (sel : RegSel)
  /-- `RENDER n, c, sr`: frames, channels, sample rate in Hz (R63). -/
  | render (n c : Word) (sr : F32)
deriving DecidableEq, Repr

end Sys2Proof
end

