-- ==== Sys2Proof/WellFormed.lean ====
section
/-! DEFINITION. Well-formed instructions. Every operand word of every command has an encoding (30_encoding.md R57), so
the one check is on register numbers: a number carried as reserved is one of the reserved numbers (R68). -/

namespace Sys2Proof

/-- The reserved register numbers: 0x12 to 0x1F and 0x24 to 0xFF (10_state.md R14, 30_encoding.md R68). -/
def reservedIdx (b : BitVec 8) : Bool :=
  (0x12 ≤ b.toNat && b.toNat ≤ 0x1F) || 0x24 ≤ b.toNat

/-- A register selection is well-formed when its reserved number is reserved. -/
def RegSel.wf : RegSel → Bool
  | .reg _ => true
  | .reserved b => reservedIdx b

/-- A well-formed instruction. -/
def Instr.wf : Instr → Bool
  | .noteOn _ => true
  | .noteOff _ => true
  | .noteOffFreq _ => true
  | .setp sel _ => sel.wf
  | .getp sel => sel.wf
  | .render _ _ _ => true

end Sys2Proof
end

