-- ==== Sys2Proof/Decode.lean ====
section
/-! DEFINITION. The decoder and the encoder of SYNTHCMD 1.0 (30_encoding.md R56 to R68). Decoding is total on any words
(and on any bytes, little-endian per word, 20_memory.md R44): an instruction, a rejection by name, or "more words are
needed". -/

namespace Sys2Proof

/-- `op`, bits 31:24 of a header (R56). -/
def headerOp (h : Word) : BitVec 8 := h.extractLsb' 24 8

/-- `idx`, bits 23:16 of a header (R56). -/
def headerIdx (h : Word) : BitVec 8 := h.extractLsb' 16 8

/-- `zero`, bits 15:0 of a header (R56). -/
def headerZero (h : Word) : BitVec 16 := h.extractLsb' 0 16

/-- A header from its three fields (R56). -/
def mkHeader (op idx : BitVec 8) (zero : BitVec 16) : Word := op ++ idx ++ zero

/-- How many operand words follow a header, from `op` alone: 1 for 0x01 to 0x04, 0 for 0x05, 3 for 0x06, 0 for every
reserved `op` (R66). -/
def operandWords (op : BitVec 8) : Nat :=
  match op.toNat with
  | 0x01 | 0x02 | 0x03 | 0x04 => 1
  | 0x06 => 3
  | _ => 0

/-- The `op` values that have a command: 0x01 to 0x06 (R58). -/
def definedOp (op : BitVec 8) : Bool := 1 ≤ op.toNat && op.toNat ≤ 6

/-- The mask and match of an `op`'s row of the opcode map (R58). A reserved `op` has no row: its pair matches no header. -/
def opRow (op : BitVec 8) : Word × Word :=
  match op.toNat with
  | 0x01 => (0xFFFFFFFF, 0x01000000)
  | 0x02 => (0xFFFFFFFF, 0x02000000)
  | 0x03 => (0xFFFFFFFF, 0x03000000)
  | 0x04 => (0xFF00FFFF, 0x04000000)
  | 0x05 => (0xFF00FFFF, 0x05000000)
  | 0x06 => (0xFFFFFFFF, 0x06000000)
  | _ => (0, 1)

/-- A header fits its row when `(word AND mask) = match` (R58). -/
def headerFits (h : Word) : Bool :=
  (h &&& (opRow (headerOp h)).1) == (opRow (headerOp h)).2

/-- The register a number names (10_state.md R14, R21 to R24); every other number is reserved. -/
def selOfIdx (b : BitVec 8) : RegSel :=
  match b.toNat with
  | 0x00 => .reg .oscA
  | 0x01 => .reg .oscB
  | 0x02 => .reg .oscMix
  | 0x03 => .reg .envAttack
  | 0x04 => .reg .envDecay
  | 0x05 => .reg .envSustain
  | 0x06 => .reg .envRelease
  | 0x07 => .reg .fltCutoff
  | 0x08 => .reg .fltResonance
  | 0x09 => .reg .fltMode
  | 0x0A => .reg .lfoShape
  | 0x0B => .reg .lfoRate
  | 0x0C => .reg .lfoDepth
  | 0x0D => .reg .distDrive
  | 0x0E => .reg .grainEnable
  | 0x0F => .reg .grainRate
  | 0x10 => .reg .grainDuty
  | 0x11 => .reg .grainJitter
  | 0x20 => .reg .status
  | 0x21 => .reg .activeCount
  | 0x22 => .reg .nextId
  | 0x23 => .reg .nvoices
  | _ => .reserved b

/-- Why a header is illegal (R67). -/
inductive Rejection where
  /-- `op` is 0x00 or 0x07 to 0xFF: one word long. -/
  | reservedOp
  /-- A defined `op` whose row the header fails under its mask: non-zero `zero`, or non-zero `idx` where 0 is required.
  The operands are consumed. -/
  | nonZeroField
deriving DecidableEq, Repr

/-- What the decoder makes of the words at the head of the stream. -/
inductive Decoded where
  /-- The stream ends before the command does: the engine waits for the next word. -/
  | incomplete
  /-- An instruction, and the words after it. -/
  | instr (i : Instr) (rest : List Word)
  /-- An illegal header, why, and the words after its command. -/
  | rejected (why : Rejection) (header : Word) (rest : List Word)
deriving DecidableEq, Repr

/-- The instruction of a header that fits its row and its operand words (R58 to R63). -/
def instrOf (h : Word) : List Word → Option Instr
  | [] => if headerOp h = 0x05 then some (.getp (selOfIdx (headerIdx h))) else none
  | [a] =>
    match (headerOp h).toNat with
    | 0x01 => some (.noteOn a)
    | 0x02 => some (.noteOff a)
    | 0x03 => some (.noteOffFreq a)
    | 0x04 => some (.setp (selOfIdx (headerIdx h)) a)
    | _ => none
  | [a, b, c] => if headerOp h = 0x06 then some (.render a b c) else none
  | _ => none

/-- Decode a header whose operands are `ops`, the words after the command being `rest`: reserved `op` first, then the
fields that must be 0 (60_exceptions.md R181, checks 1 and 2). -/
def decodeHeader (h : Word) (ops rest : List Word) : Decoded :=
  if !definedOp (headerOp h) then .rejected .reservedOp h rest
  else if !headerFits h then .rejected .nonZeroField h rest
  else match instrOf h ops with
    | some i => .instr i rest
    | none => .rejected .nonZeroField h rest

/-- Decode the head of a word stream. The operands are read before the header is judged, so that an illegal header
with a defined `op` consumes them (R66, R67). -/
def decode : List Word → Decoded
  | [] => .incomplete
  | h :: ws =>
    let k := operandWords (headerOp h)
    if ws.length < k then .incomplete else decodeHeader h (ws.take k) (ws.drop k)

/-- A word from four bytes, byte 0 the least significant (20_memory.md R44). -/
def wordOfBytes (b0 b1 b2 b3 : Byte) : Word := b3 ++ b2 ++ b1 ++ b0

/-- The whole words of a byte stream, little-endian per word; a trailing part of a word waits (R44). -/
def wordsOfBytes : List Byte → List Word
  | b0 :: b1 :: b2 :: b3 :: bs => wordOfBytes b0 b1 b2 b3 :: wordsOfBytes bs
  | _ => []

/-- Decode a command stream stored as bytes (R44). -/
def decodeBytes (bs : List Byte) : Decoded := decode (wordsOfBytes bs)

/-- The number of a register (10_state.md R14, R21 to R24). -/
def idxOfReg : Reg → BitVec 8
  | .oscA => 0x00
  | .oscB => 0x01
  | .oscMix => 0x02
  | .envAttack => 0x03
  | .envDecay => 0x04
  | .envSustain => 0x05
  | .envRelease => 0x06
  | .fltCutoff => 0x07
  | .fltResonance => 0x08
  | .fltMode => 0x09
  | .lfoShape => 0x0A
  | .lfoRate => 0x0B
  | .lfoDepth => 0x0C
  | .distDrive => 0x0D
  | .grainEnable => 0x0E
  | .grainRate => 0x0F
  | .grainDuty => 0x10
  | .grainJitter => 0x11
  | .status => 0x20
  | .activeCount => 0x21
  | .nextId => 0x22
  | .nvoices => 0x23

/-- The `idx` field of a register selection. -/
def idxOfSel : RegSel → BitVec 8
  | .reg r => idxOfReg r
  | .reserved b => b

/-- The words of an instruction, header first, written from R59 to R63. -/
def encode : Instr → List Word
  | .noteOn f => [mkHeader 0x01 0 0, f]
  | .noteOff id => [mkHeader 0x02 0 0, id]
  | .noteOffFreq f => [mkHeader 0x03 0 0, f]
  | .setp sel v => [mkHeader 0x04 (idxOfSel sel) 0, v]
  | .getp sel => [mkHeader 0x05 (idxOfSel sel) 0]
  | .render n c sr => [mkHeader 0x06 0 0, n, c, sr]

/-! ### Pseudo-commands (R73), each a sequence of commands -/

/-- `SET_TIMBRE name=value, …`: one `SETP` per item, in the order written. -/
def pseudoSetTimbre (items : List (Reg × Word)) : List Instr := items.map fun x => .setp (.reg x.1) x.2

/-- `CLEAR_STATUS`: `SETP STATUS, 0xFFFFFFFF`. -/
def pseudoClearStatus : List Instr := [.setp (.reg .status) 0xFFFFFFFF]

/-- `NOTE_OFF_BY_FREQUENCY f`: another name of `NOTE_OFF_FREQ f`. -/
def pseudoNoteOffByFrequency (f : F32) : List Instr := [.noteOffFreq f]

/-- The words of a sequence of commands, in the order of arrival (R74). -/
def encodeAll (is : List Instr) : List Word := is.flatMap encode

/-- The words of an instruction given as a number whose bit 0 is the least significant bit of the header: as many as
the header's `op` has (every bit above `nbits` is 0), and no fewer than `nbits` fill. -/
def tableWords (nbits w : Nat) : List Word :=
  let v := w % 2 ^ nbits
  let k := max (1 + operandWords (headerOp (BitVec.ofNat 32 v))) ((nbits + 31) / 32)
  (List.range k).map fun j => BitVec.ofNat 32 (v / 2 ^ (32 * j))

/-- The instruction the decoder reads from a table row's bits; none where it refuses. -/
def decodeTableWord (nbits w : Nat) : Option Instr :=
  match decode (tableWords nbits w) with
  | .instr i _ => some i
  | _ => none

end Sys2Proof
end

