-- ==== Sys2Proof/Config.lean ====
section
/-! DEFINITION. What an implementation of SYNTH-SUB000 fixes (00_scope.md R6): the open parameters as a record, their
reference values, the source's two fixed literals, and the FREE VALUES, opaque constants with no body. -/

namespace Sys2Proof.Config

/-- The value of sign(0) in the square wave (40_oscillator.md R77): one of the two, by parameter. -/
inductive Sign where
  | plus
  | minus
deriving DecidableEq, Repr

/-- `NUM`, the number format (R6, R11, 92_eei_decisions.md D2): the reference format, or one of an implementation's own
(binary64, fixed point, exact arithmetic, …), of whose operations nothing is known but that they answer stored numbers
(log 1). -/
inductive NumFormat where
  /-- IEEE 754 binary32, round to nearest even, one rounding for each written operation: the default of R6. -/
  | binary32
  /-- Any other format, by number. -/
  | other (k : Nat)
deriving DecidableEq, Repr

/-- The operations whose result is the number format's. -/
inductive NumOp where
  | add | sub | mul | div
deriving DecidableEq, Repr

/-- The functions whose result is the number format's; `square` is the value R77 leaves unstated (log 6). -/
inductive NumFun where
  | sin | tanh | exp2 | square
deriving DecidableEq, Repr

/-- The multiples of π the rules write. -/
inductive Angle where
  | halfPi | pi | threeHalfPi | twoPi
deriving DecidableEq, Repr

/-- The comparisons that may go either way where their two sides are equal over the reals
(93_implementation_defined.md U14, 70_reset_and_hazards.md R208). -/
inductive TieSite where
  /-- `elapsed ≥ T` of an envelope stage (41_envelope.md R95, R96, R98). -/
  | elapsed
  /-- `timer ≥ len` and `timer < duty` of a grain (44_grain_gate.md R134): one outcome for both, so that a gate whose open
  time is its length never closes (R133). -/
  | grain
deriving DecidableEq, Repr

/-- The implementation parameters of R6 that the spec leaves open. A machine state carries them in its field `cfg`,
which no step writes (log 8), so a claim for all states is a claim for all parameters. -/
structure Params where
  /-- `NUM`, the number format with its functions (log 1, log 2). -/
  num : NumFormat
  /-- `NVOICES`, number of voice slots. -/
  nvoices : Nat
  /-- `IDW`, significant bits of a voice id. -/
  idw : Nat
  /-- `FREQ_TOL`, Hz. -/
  freqTol : Val
  /-- `T_MIN`, s. -/
  tMin : F32
  /-- `SR_MIN`, Hz. -/
  srMin : F32
  /-- `GRAIN_RATE_MIN`, Hz. -/
  grainRateMin : F32
  /-- `OUTCAP`, words of the output buffer. -/
  outCap : Nat
  /-- `MAXCH`, largest channel count. -/
  maxCh : Nat
  /-- `SIGN0`. -/
  sign0 : Sign
deriving DecidableEq, Repr

/-- The reference configuration: the "default" column of R6, each real rounded to the nearest binary32
(92_eei_decisions.md D17 gives `T_MIN`'s pattern; 95_test_vectors.md P5 shows it). -/
def reference : Params where
  num := .binary32
  nvoices := 16
  idw := 32
  freqTol := .f32 0x3C23D70A
  tMin := 0x3A83126F
  srMin := 0x447A0000
  grainRateMin := 0x3A83126F
  outCap := 4096
  maxCh := 8
  sign0 := .plus

/-- `CUT_MIN`, 50 Hz: the source's, fixed (93_implementation_defined.md U17). -/
def cutMin : F32 := 0x42480000

/-- `CUT_FRAC`, 0.45: the source's, fixed (U17). -/
def cutFrac : F32 := 0x3EE66666

/-! Free values. None has a body: Lean can neither evaluate one nor prove a value of it. -/

/-- `NUM.sin` before R11's properties are imposed (`Machine.Fp.sin` imposes them; log 2). -/
opaque freeSin : F32 → F32

/-- `NUM.tanh` before R11's properties are imposed (log 2). -/
opaque freeTanh : F32 → F32

/-- `NUM.exp2` before R11's properties are imposed (log 2). -/
opaque freeExp2 : F32 → F32

/-- Sign and payload of the NaN an arithmetic operation produces, by operation and operands (log 3). -/
opaque freeNaN : Nat → F32 → F32 → F32

/-- What an operation of a number format other than the reference answers (log 1). -/
opaque freeArith : Nat → NumOp → Val → Val → Val

/-- What a function of such a format answers, before R11's properties are imposed (log 1, log 2). -/
opaque freeFun : Nat → NumFun → Val → Val

/-- The number such a format holds for a multiple of π (log 1). -/
opaque freeAngle : Nat → Angle → Val

/-- The word `f32(m)` such a format writes for a sample (46_commands.md R161; log 1). -/
opaque freeStore : Nat → Val → F32

/-- The outcome of a comparison that may go either way, by what is compared and the stored numbers (U14; log 7). -/
opaque freeTie : TieSite → Val → Val → Bool

/-- The square wave's value where its sine is not a number: R77 states none (log 6). -/
opaque freeSquare : F32 → F32

/-- The value of the n-th draw of the `rnd` port (44_grain_gate.md R132; log 13), before it is brought into [−1, 1]. -/
opaque freeDraw : Nat → F32

end Sys2Proof.Config
end

