-- ==== Sys2Proof/Machine/State.lean ====
section
/-! DEFINITION. The state of the engine (10_state.md R13), of its ports (00_scope.md R8) and its value after reset
(70_reset_and_hazards.md R196). Plain data. INVENTORY.md lists every field with its rule. -/

namespace Sys2Proof.Machine

open Sys2Proof.Config (Params)

/-- A waveform kind: code 0 SINE, 1 SQUARE, 2 SAW, 3 TRIANGLE (10_state.md R14, R15, R18). -/
inductive Wave where
  | sine | square | saw | triangle
deriving DecidableEq, Repr

/-- A filter mode: code 0 LP, 1 HP, 2 BP (R14, R17). -/
inductive Mode where
  | lp | hp | bp
deriving DecidableEq, Repr

/-- An envelope stage: code 0 Idle, 1 Attack, 2 Decay, 3 Sustain, 4 Release (R30). -/
inductive Stage where
  | idle | attack | decay | sustain | release
deriving DecidableEq, Repr

/-- The timbre registers (R14), under their own names. A code register holds one of its legal codes only. -/
structure Timbre where
  oscA : Wave
  oscB : Wave
  oscMix : F32
  envAttack : F32
  envDecay : F32
  envSustain : F32
  envRelease : F32
  fltCutoff : F32
  fltResonance : F32
  fltMode : Mode
  lfoShape : Wave
  lfoRate : F32
  lfoDepth : F32
  distDrive : F32
  grainEnable : Bool
  grainRate : F32
  grainDuty : F32
  grainJitter : F32
deriving DecidableEq, Repr

/-- A stored number, and beside it the model's own record of its value over the reals, which decides nothing but whether
a comparison of the stored numbers may go either way (93_implementation_defined.md U14; log 7). -/
structure Tracked where
  val : Val
  real : Exact
deriving DecidableEq, Repr

/-- The envelope fields of a slot (R30). -/
structure Env where
  stage : Stage
  amp : Val
  start : Val
  elapsed : Tracked
deriving DecidableEq, Repr

/-- One stage of the ladder: its previous input `oldx` and its previous output `y` (R31). -/
structure Tap where
  oldx : Val
  y : Val
deriving DecidableEq, Repr

/-- The filter fields of a slot: the four stages 0 to 3 and the LFO phase in cycles (R31). -/
structure Ladder where
  tap0 : Tap
  tap1 : Tap
  tap2 : Tap
  tap3 : Tap
  lfo : Val
deriving DecidableEq, Repr

/-- The grain-gate fields of a slot (R32). -/
structure Grain where
  timer : Tracked
  len : Tracked
  duty : Tracked
deriving DecidableEq, Repr

/-- An occupied voice slot (R28 to R32). `freq` is the operand word of `NOTE_ON`; the fields the units compute hold `NUM`
values. -/
structure Voice where
  id : Word
  freq : F32
  phase : Val
  t : Timbre
  env : Env
  flt : Ladder
  gr : Grain
deriving DecidableEq, Repr

/-- The output buffer: the words written since reset, as bytes. The byte `b` (0 to 3) of word `a` has address
`4*a + b`, byte 0 the least significant (20_memory.md R40, R44). Addresses rise strictly; an unlisted byte has no value
(70_reset_and_hazards.md R198; log 14). -/
abbrev Memory := List Host.Cell

/-- The `rnd` port: the values it will supply, oldest first, and how many draws have been taken. Once `queue` is
empty a draw is the free value of the counter (44_grain_gate.md R132; log 13). -/
structure Rnd where
  queue : List F32
  count : Nat
deriving DecidableEq, Repr

/-- The machine. -/
structure State where
  /-- The implementation parameters (R6); no step writes them (log 8). -/
  cfg : Params
  /-- The timbre register file (R14). -/
  timbre : Timbre
  /-- `STATUS` (R21). -/
  status : Word
  /-- `NEXT_ID` (R23). -/
  nextId : Word
  /-- The occupied slots `V[0]` … `V[VCOUNT−1]`, oldest first; `VCOUNT` is the length (R25). A free slot has no value
  (R37). -/
  voices : List Voice
  /-- `OUT` (20_memory.md R40). -/
  out : Memory
  /-- The words the host offers on `cmd`, oldest first: the port's valid side (R8; log 9). -/
  cmd : List Word
  /-- The words of a command that the engine has accepted from `cmd` and of which more are to come, oldest first
  (30_encoding.md R66, 70_reset_and_hazards.md R195; log 9). -/
  held : List Word
  /-- The response words sent and not yet taken by the host, oldest first: the port's valid side (30_encoding.md R64;
  log 10). -/
  rsp : List Word
  /-- The last command begun, whose response `rsp` holds, is a `RENDER`: the model's own record of what R200 speaks of
  (log 17). -/
  rendering : Bool
  /-- The response words the host has taken, oldest first: the model's own record (log 10). -/
  taken : List Word
  /-- The ready line of `rsp`: the host takes a response word (R8, R207; log 10). -/
  rspReady : Bool
  /-- The `rst` line, true while asserted (R195; log 11). -/
  rst : Bool
  /-- The `rnd` port (R132). -/
  rnd : Rnd
deriving DecidableEq, Repr

/-- Reasons to stop with a fault. There is none: the engine has no fault outcome (60_exceptions.md R175), and what the spec
leaves unspecified at the host's ports a model refuses (93_implementation_defined.md U10, U12). -/
inductive Fault where
deriving DecidableEq, Repr

/-- Reasons a part of the model gives no meaning. No step raises one. -/
inductive Refusal where
  /-- Raised by an arm of `exec` for a command without a meaning; there is none. Safe. -/
  | notModelled (mnemonic : String)
  /-- Raised by `hostReadOut` on a word of `OUT` that no `RENDER` has written since reset: unspecified
  (70_reset_and_hazards.md R198, U10). Safe: the model stops where the hardware answers an unspecified value. -/
  | outUnwritten
  /-- Raised by `hostReadOut`, the host's read of the `out` port, at an address at or above `OUTCAP`: the value is
  unspecified (20_memory.md R45, U10). Safe: the model stops where the hardware answers an unspecified value. -/
  | outRange
  /-- Raised by `hostReadOut` between the sending of a `RENDER` and the taking of its response: the word is the old or the
  new one (70_reset_and_hazards.md R200, U12). Safe: the model stops where the hardware answers one of the two. -/
  | outDuringRender
deriving DecidableEq, Repr

/-- The timbre registers after reset (R196). -/
def Timbre.reset : Timbre where
  oscA := .sine
  oscB := .sine
  oscMix := 0x00000000
  envAttack := 0x3C23D70A
  envDecay := 0x3DCCCCCD
  envSustain := 0x3F333333
  envRelease := 0x3E4CCCCD
  fltCutoff := 0x447A0000
  fltResonance := 0x00000000
  fltMode := .lp
  lfoShape := .sine
  lfoRate := 0x00000000
  lfoDepth := 0x00000000
  distDrive := 0x3F800000
  grainEnable := false
  grainRate := 0x41A00000
  grainDuty := 0x3F000000
  grainJitter := 0x00000000

/-- The machine right after reset (R196) in the reference configuration (R6). The ports' fields are DESIGN CHOICE
(log 19): nothing offered, nothing pending, the host ready, `rst` released. -/
def State.reset : State where
  cfg := Config.reference
  timbre := Timbre.reset
  status := 0
  nextId := 1
  voices := []
  out := []
  cmd := []
  held := []
  rsp := []
  rendering := false
  taken := []
  rspReady := true
  rst := false
  rnd := { queue := [], count := 0 }

end Sys2Proof.Machine
end

