-- ==== Sys2Proof/Machine/Flags.lean ====
section
/-! DEFINITION. Statuses and the sticky bits of `STATUS` (30_encoding.md R65, 10_state.md R21, 60_exceptions.md R177,
R181): the codes, the bit of each, `raise`, the priority of a response, and `send`. -/

namespace Sys2Proof.Machine

/-- The statuses of R65 and R177. -/
inductive Status where
  | ok | miss | clamped | silenced | stolen | idWrap | badCmd | badReg | badKind | badValue
deriving DecidableEq, Repr

/-- The status code (R65). -/
def statusCode : Status → Nat
  | .ok => 0x00
  | .miss => 0x01
  | .clamped => 0x02
  | .silenced => 0x03
  | .stolen => 0x04
  | .idWrap => 0x05
  | .badCmd => 0x80
  | .badReg => 0x81
  | .badKind => 0x82
  | .badValue => 0x83

/-- The sticky bit of `STATUS` a status sets, as a mask; `OK` sets none (R65, R21). -/
def statusBit : Status → Word
  | .ok => 0x000
  | .clamped => 0x001
  | .badKind => 0x002
  | .miss => 0x004
  | .silenced => 0x008
  | .stolen => 0x010
  | .badCmd => 0x020
  | .badValue => 0x040
  | .badReg => 0x080
  | .idWrap => 0x100

/-- The bits of `STATUS` that exist: 8 to 0 (R21). -/
def statusMask : Word := 0x000001FF

/-- `STATUS` after every status of a list has set its bit (R181). -/
def raiseBits (raised : List Status) (status : Word) : Word :=
  raised.foldl (fun w st => w ||| statusBit st) status

/-- The code a response carries: the numerically greatest raised, or `OK` (R181). -/
def greatestCode (raised : List Status) : Nat :=
  raised.foldl (fun c st => max c (statusCode st)) (statusCode .ok)

/-- The status word of a response: the code in bits 7:0, zeros above (30_encoding.md R64). -/
def statusWord (raised : List Status) : Word := BitVec.ofNat 32 (greatestCode raised)

/-- `send(s, v)`: the two response words, status first (R64). -/
def send (status value : Word) (s : State) : State := { s with rsp := s.rsp ++ [status, value] }

/-- The end of every command: each status raised sets its sticky bit, and the one response carries the greatest of
them and the value (R64, R181). -/
def answer (raised : List Status) (value : Word) (s : State) : State :=
  send (statusWord raised) value { s with status := raiseBits raised s.status }

/-- A rejected command: nothing changes but `STATUS`, and the response's value is 0 (R64, R65). This is what the engine
has in the place of taking an exception (60_exceptions.md R186). -/
def reject (st : Status) (s : State) : State := answer [st] 0 s

/-- The answer to an illegal header: `BAD_CMD` with the header as value (30_encoding.md R64, R67). -/
def answerBadCmd (header : Word) (s : State) : State := answer [.badCmd] header s

/-- A list with one status when a condition holds. -/
def raisedIf (b : Bool) (st : Status) : List Status := if b then [st] else []

/-- `SETP STATUS, m`: the bits that are 1 in `m` are cleared (46_commands.md R157). -/
def clearStatus (m status : Word) : Word := status &&& ~~~m

end Sys2Proof.Machine
end

