-- ==== Sys2Proof/Machine/Fp.lean ====
section
/-! DEFINITION. The reference number format, IEEE 754 binary32 (00_scope.md R6, R11): each `+`, `−`, `·`, `/` rounded once to
nearest even, `floor`, the comparisons, the configuration functions `sin`, `tanh`, `exp2` with exactly the properties R11
lets a model assume, and the primitives of R10 on words. -/

namespace Sys2Proof.Machine.Fp

/-! ### Reading a pattern (20_memory.md R44) -/

/-- The sign bit. -/
def isNeg (a : F32) : Bool := a.getLsbD 31

/-- The pattern without its sign: exponent and fraction as one number, which orders the magnitudes. -/
def mag (a : F32) : Nat := a.toNat % 2 ^ 31

/-- The magnitude pattern of an infinity. -/
def infMag : Nat := 0x7F800000

/-- A NaN. -/
def isNaN (a : F32) : Bool := infMag < mag a

/-- An infinity. -/
def isInf (a : F32) : Bool := mag a == infMag

/-- `finite(x)` of R10: neither an infinity nor a NaN. -/
def finite (a : F32) : Bool := mag a < infMag

/-- Zero, of either sign (−0 is the real number 0, 30_encoding.md R57). -/
def isZero (a : F32) : Bool := mag a == 0

/-- The magnitude of a finite pattern as a multiple of 2^-149. -/
def units (m : Nat) : Nat :=
  if m < 2 ^ 23 then m else (2 ^ 23 + m % 2 ^ 23) * 2 ^ (m / 2 ^ 23 - 1)

/-- The exact value of a finite pattern, in units of 2^-149. -/
def value (a : F32) : Int := if isNeg a then -(units (mag a) : Int) else (units (mag a) : Int)

/-! ### Rounding -/

/-- The integer nearest to `num / den`, ties to even. -/
def nearestEven (num den : Nat) : Nat :=
  let q := num / den
  let r := num % den
  if 2 * r < den then q else if den < 2 * r then q + 1 else if q % 2 = 0 then q else q + 1

/-- The magnitude pattern nearest to `num / den` units of 2^-149, ties to even; past the largest finite number it is
the infinity. -/
def roundMag (num den : Nat) : Nat :=
  let e := Nat.log2 (num / den) - 23
  min (e * 2 ^ 23 + nearestEven num (den * 2 ^ e)) infMag

/-- A pattern from a sign and a magnitude pattern. -/
def pack (neg : Bool) (m : Nat) : F32 := BitVec.ofNat 32 (if neg then m + 2 ^ 31 else m)

/-- The NaN an operation answers: quiet, with free sign and payload (log 3). -/
def nan (op : Nat) (a b : F32) : F32 := 0x7FC00000#32 ||| (Config.freeNaN op a b &&& 0x803FFFFF#32)

/-! ### Constants: each real of the spec as the nearest binary32 (log 4) -/

def zero : F32 := 0x00000000
def one : F32 := 0x3F800000
def negOne : F32 := 0xBF800000
def two : F32 := 0x40000000
def four : F32 := 0x40800000
def half : F32 := 0x3F000000
/-- π. -/
def pi : F32 := 0x40490FDB
/-- 2π, the double of π (R9). -/
def twoPi : F32 := 0x40C90FDB
/-- 1.8 of 42_filter.md R108. -/
def c1_8 : F32 := 0x3FE66666
/-- 0.8 of R108. -/
def c0_8 : F32 := 0x3F4CCCCD
/-- 0.15 of R108. -/
def c0_15 : F32 := 0x3E19999A

/-! ### The four operations (R11) -/

/-- The operand with its sign reversed. -/
def negate (a : F32) : F32 := a ^^^ 0x80000000#32

/-- `|x|`. -/
def abs (a : F32) : F32 := a &&& 0x7FFFFFFF#32

/-- `a + b`. -/
def add (a b : F32) : F32 :=
  if isNaN a || isNaN b then nan 0 a b
  else if isInf a then (if isInf b && (isNeg a != isNeg b) then nan 0 a b else a)
  else if isInf b then b
  else
    let s := value a + value b
    if s = 0 then pack (isNeg a && isNeg b) 0 else pack (s < 0) (roundMag s.natAbs 1)

/-- `a − b`. -/
def sub (a b : F32) : F32 := add a (negate b)

/-- `a · b`. -/
def mul (a b : F32) : F32 :=
  let s := isNeg a != isNeg b
  if isNaN a || isNaN b then nan 1 a b
  else if isInf a || isInf b then (if isZero a || isZero b then nan 1 a b else pack s infMag)
  else pack s (roundMag (units (mag a) * units (mag b)) (2 ^ 149))

/-- `a / b`. -/
def div (a b : F32) : F32 :=
  let s := isNeg a != isNeg b
  if isNaN a || isNaN b then nan 2 a b
  else if isInf a then (if isInf b then nan 2 a b else pack s infMag)
  else if isInf b then pack s 0
  else if isZero b then (if isZero a then nan 2 a b else pack s infMag)
  else pack s (roundMag (units (mag a) * 2 ^ 149) (units (mag b)))

/-! ### Comparisons: of the real numbers denoted; false with a NaN -/

/-- An integer that orders the patterns that are not NaN as the numbers they denote. -/
def key (a : F32) : Int := if isNeg a then -(mag a : Int) else (mag a : Int)

/-- `a < b`. -/
def lt (a b : F32) : Bool := !isNaN a && !isNaN b && key a < key b

/-- `a ≤ b`. -/
def le (a b : F32) : Bool := !isNaN a && !isNaN b && key a ≤ key b

/-- `a = b` as numbers. -/
def eq (a b : F32) : Bool := !isNaN a && !isNaN b && key a == key b

/-! ### Functions of NUM -/

/-- `floor(x)`, exact: the greatest integer not above `x` (R10). A zero keeps its sign, and what is not finite is
unchanged (log 5). -/
def floor (a : F32) : F32 :=
  if !finite a || isZero a then a
  else
    let n := value a / (2 ^ 149 : Int)
    pack (n < 0) (roundMag (n.natAbs * 2 ^ 149) 1)

/-- The three binary32 phases nearest π/2, π and 3π/2, where R11 bounds the error of `sin` by 1e-5. -/
def halfPi : F32 := 0x3FC90FDB
def threeHalfPi : F32 := 0x4096CBE4

/-- The largest binary32 numbers within 1e-5 of the real sine at the three phases: 1 − 1e-5 rounded up, and 1e-5
rounded down. -/
def sinNearOne : F32 := 0x3F7FFF59
def sinNearZero : F32 := 0x3727C5AC

/-- What R11 lets a model assume of `sin` at `x`: 0 at 0, bounded by 1, within 1e-5 of the real sine at the phases named.
An operand that is not finite is outside the contract (log 2). -/
def sinAllowed (x y : F32) : Bool :=
  if !finite x then true
  else le (abs y) one &&
    (if isZero x then isZero y
     else if x = halfPi then le sinNearOne y
     else if x = pi then le (abs y) sinNearZero
     else if x = threeHalfPi then le y (negate sinNearOne)
     else true)

/-- A value R11 allows for `sin x`, used only where the free value is not allowed. -/
def sinFallback (x : F32) : F32 := if x = halfPi then one else if x = threeHalfPi then negOne else zero

/-- `sin`: any function with the properties of R11, and only those (log 2). -/
def sin (x : F32) : F32 := if sinAllowed x (Config.freeSin x) then Config.freeSin x else sinFallback x

/-- What R11 lets a model assume of `tanh` at `x`. -/
def tanhAllowed (x y : F32) : Bool :=
  if !finite x then true else le (abs y) one && (if isZero x then isZero y else true)

/-- `tanh`: any function with the properties of R11, and only those (log 2). -/
def tanh (x : F32) : F32 := if tanhAllowed x (Config.freeTanh x) then Config.freeTanh x else zero

/-- `exp2`: any function with `exp2(0) = 1` (R11; log 2). -/
def exp2 (x : F32) : F32 := if isZero x then one else Config.freeExp2 x

/-! ### Primitives of R10 -/

/-- `clamp(x, lo, hi)`, as R10 writes it: a NaN is answered unchanged, and an infinity becomes a bound (log 20). -/
def clamp (x lo hi : F32) : F32 := if lt x lo then lo else if lt hi x then hi else x

/-- `clamp01(x)`. -/
def clamp01 (x : F32) : F32 := clamp x zero one

/-- `max(x, lo)` of 44_grain_gate.md R133: `lo` where `x` is below it. -/
def atLeast (x lo : F32) : F32 := if lt x lo then lo else x

/-- A value of the `rnd` port: one binary32 in [−1, 1] (00_scope.md R8); a word that is none is read as 0 (log 13). -/
def unitDraw (u : F32) : F32 := if le (abs u) one then u else zero

end Sys2Proof.Machine.Fp
end

