-- ==== Sys2Proof/Machine/Exact.lean ====
section
/-! DEFINITION. Rational arithmetic: the exact-real reading of a rule (00_scope.md R11), and the numbers of formats other
than the reference (log 1, log 7). -/

namespace Sys2Proof

open Sys2Proof.Machine

/-- The rational `num / den` in lowest terms. -/
def Exact.reduce (num : Int) (den : Nat) : Exact :=
  let g := Nat.gcd num.natAbs den
  if g = 0 then { num := 0, den := 1 } else { num := num / (g : Int), den := den / g }

/-- The real number a stored word denotes (30_encoding.md R57); of what is not finite, 0. -/
def Exact.ofWord (a : F32) : Exact := if Fp.finite a then .reduce (Fp.value a) (2 ^ 149) else { num := 0, den := 1 }

/-- `a + b`. -/
def Exact.add (a b : Exact) : Exact := .reduce (a.num * b.den + b.num * a.den) (a.den * b.den)

/-- `a · b`. -/
def Exact.mul (a b : Exact) : Exact := .reduce (a.num * b.num) (a.den * b.den)

/-- `−a`. -/
def Exact.neg (a : Exact) : Exact := { num := -a.num, den := a.den }

/-- `1 / a`; of 0, 0: no rule divides by 0 over the reals (41_envelope.md R100, 44_grain_gate.md R133). -/
def Exact.inv (a : Exact) : Exact :=
  if a.num = 0 then { num := 0, den := 1 } else { num := if a.num < 0 then -(a.den : Int) else a.den, den := a.num.natAbs }

/-- `a < b`. -/
def Exact.lt (a b : Exact) : Bool := a.num * b.den < b.num * a.den

/-- `a = b`. -/
def Exact.eq (a b : Exact) : Bool := a.num * b.den == b.num * a.den

/-- The greatest integer not above `a` (00_scope.md R10). -/
def Exact.floor (a : Exact) : Exact := { num := a.num / (a.den : Int), den := 1 }

/-- `|a|`. -/
def Exact.abs (a : Exact) : Exact := { num := a.num.natAbs, den := a.den }

/-- The binary32 number nearest to a real number, ties to even. -/
def Exact.nearest (a : Exact) : F32 := Fp.pack (a.num < 0) (Fp.roundMag (a.num.natAbs * 2 ^ 149) a.den)

end Sys2Proof
end

