-- ==== Sys2Proof/Machine/Num.lean ====
section
/-! DEFINITION. The number format `NUM` as an argument (00_scope.md R6): what is asked of a stored number in every format
(finiteness, order, the primitives of R10), and the operations, functions, literals and conversions of a format: binary32's
in the reference format (R11), free values in any other (log 1). -/

namespace Sys2Proof

open Sys2Proof.Machine

/-! ### Stored numbers, in every format -/

/-- `finite(x)` of R10. -/
def Val.finite : Val → Bool
  | .f32 w => Fp.finite w
  | .num _ => true

/-- Not a NaN. -/
def Val.isNum : Val → Bool
  | .f32 w => !Fp.isNaN w
  | .num _ => true

/-- Zero. -/
def Val.isZero : Val → Bool
  | .f32 w => Fp.isZero w
  | .num q => q.num == 0

/-- The real number denoted; of what is not finite, 0. -/
def Val.real : Val → Exact
  | .f32 w => .ofWord w
  | .num q => q

/-- A stored number by the number it denotes: a finite word is the real number it denotes, −0 being 0 (30_encoding.md R57), and
what is not finite is itself. Of this alone the results of another format are functions (log 1). -/
def Val.number : Val → Val
  | .f32 w => if Fp.finite w then .num (.ofWord w) else .f32 w
  | .num q => .num q

/-- `floor(x)` of R10, of the number denoted; what is not finite is unchanged (log 5). -/
def Val.floor (x : Val) : Val :=
  match x.number with
  | .num q => .num q.floor
  | .f32 w => .f32 w

/-- The word of a stored number: itself in the reference format, whose operations answer words only. -/
def Val.word : Val → F32
  | .f32 w => w
  | .num q => q.nearest

/-- `a < b`, of the numbers denoted; an infinity is beyond every number; false with a NaN. -/
def Val.lt : Val → Val → Bool
  | .f32 x, .f32 y => Fp.lt x y
  | .f32 x, .num q => !Fp.isNaN x && (if Fp.isInf x then Fp.isNeg x else (Exact.ofWord x).lt q)
  | .num q, .f32 y => !Fp.isNaN y && (if Fp.isInf y then !Fp.isNeg y else q.lt (.ofWord y))
  | .num p, .num q => p.lt q

/-- `a ≤ b`; false with a NaN. -/
def Val.le (a b : Val) : Bool := a.isNum && b.isNum && !b.lt a

/-- `|x|`. -/
def Val.abs : Val → Val
  | .f32 w => .f32 (Fp.abs w)
  | .num q => .num q.abs

def Val.zero : Val := .f32 Fp.zero
def Val.one : Val := .f32 Fp.one
def Val.negOne : Val := .f32 Fp.negOne
def Val.two : Val := .f32 Fp.two
def Val.four : Val := .f32 Fp.four
def Val.half : Val := .f32 Fp.half

/-- `clamp(x, lo, hi)`, as R10 writes it: a NaN is answered unchanged, and an infinity becomes a bound (log 20). -/
def Val.clamp (x lo hi : Val) : Val := if x.lt lo then lo else if hi.lt x then hi else x

/-- `clamp01(x)`. -/
def Val.clamp01 (x : Val) : Val := x.clamp .zero .one

/-- `max(x, lo)` of 44_grain_gate.md R133: `lo` where `x` is below it. -/
def Val.atLeast (x lo : Val) : Val := if x.lt lo then lo else x

/-- A word of the reference format with a property. -/
def Val.wordIs (p : F32 → Bool) : Val → Bool
  | .f32 w => p w
  | .num _ => false

/-- A number in [0, 1]. -/
def Val.inUnit (x : Val) : Bool := Val.zero.le x && x.le .one

/-- A number in [−1, 1]. -/
def Val.inSample (x : Val) : Bool := Val.negOne.le x && x.le .one

end Sys2Proof

namespace Sys2Proof.Config

open Sys2Proof.Machine

/-! ### Conversions (log 1) -/

/-- A stored number the format can hold: a word in the reference format. -/
def NumFormat.holds : NumFormat → Val → Bool
  | .binary32, .num _ => false
  | _, _ => true

/-- What a register or operand word denotes (30_encoding.md R57): the word itself in the reference format, in any other the real
number. -/
def NumFormat.load (n : NumFormat) (w : F32) : Val :=
  match n with
  | .binary32 => .f32 w
  | .other _ => (Val.f32 w).number

/-- `f32(m)`, the word written for a sample (46_commands.md R161): a binary32 number is its own word, and any other gives a
word that is a sample (20_memory.md R43). -/
def NumFormat.store (n : NumFormat) (m : Val) : F32 :=
  match n, m with
  | _, .f32 w => w
  | .binary32, .num q => if (Val.f32 q.nearest).inSample then q.nearest else Fp.zero
  | .other k, .num q => if (Val.f32 (freeStore k (.num q))).inSample then freeStore k (.num q) else Fp.zero

/-! ### Literals: the nearest binary32 in the reference format (log 4), the number written in any other -/

/-- A rational literal of a rule. -/
def NumFormat.literal (n : NumFormat) (w : F32) (q : Exact) : Val :=
  match n with
  | .binary32 => .f32 w
  | .other _ => .num q

/-- 1.8 of 42_filter.md R108. -/
def NumFormat.c1_8 (n : NumFormat) : Val := n.literal Fp.c1_8 { num := 9, den := 5 }
/-- 0.8 of R108. -/
def NumFormat.c0_8 (n : NumFormat) : Val := n.literal Fp.c0_8 { num := 4, den := 5 }
/-- 0.15 of R108. -/
def NumFormat.c0_15 (n : NumFormat) : Val := n.literal Fp.c0_15 { num := 3, den := 20 }
/-- `CUT_FRAC`, 0.45 (42_filter.md R107). -/
def NumFormat.cutFrac (n : NumFormat) : Val := n.literal Config.cutFrac { num := 9, den := 20 }

/-- A multiple of π: the nearest binary32 in the reference format, the format's own number in any other. -/
def NumFormat.angle (n : NumFormat) (a : Angle) : Val :=
  match n with
  | .binary32 => .f32 (match a with
    | .halfPi => Fp.halfPi
    | .pi => Fp.pi
    | .threeHalfPi => Fp.threeHalfPi
    | .twoPi => Fp.twoPi)
  | .other k => freeAngle k a

/-! ### Operations -/

/-- An operation of the format: `f` on words in the reference format, a free value of the numbers denoted in any other. -/
def NumFormat.op (n : NumFormat) (o : NumOp) (f : F32 → F32 → F32) (a b : Val) : Val :=
  match n with
  | .binary32 => .f32 (f a.word b.word)
  | .other k => freeArith k o a.number b.number

/-- `a + b`. -/
def NumFormat.add (n : NumFormat) (a b : Val) : Val := n.op .add Fp.add a b

/-- `a − b`. -/
def NumFormat.sub (n : NumFormat) (a b : Val) : Val := n.op .sub Fp.sub a b

/-- `a · b`. -/
def NumFormat.mul (n : NumFormat) (a b : Val) : Val := n.op .mul Fp.mul a b

/-- `a / b`. -/
def NumFormat.div (n : NumFormat) (a b : Val) : Val := n.op .div Fp.div a b

/-- `floor(a)`, exact in every format (R10; log 5). -/
def NumFormat.floor (n : NumFormat) (a : Val) : Val :=
  match n with
  | .binary32 => .f32 (Fp.floor a.word)
  | .other _ => a.floor

/-- `frac(x)` is `x − floor(x)` (R10; log 5). -/
def NumFormat.frac (n : NumFormat) (x : Val) : Val := n.sub x (n.floor x)

/-- `wrap2π(x)` is `x − 2π·floor(x / 2π)` (R10; log 5). -/
def NumFormat.wrap2Pi (n : NumFormat) (x : Val) : Val :=
  n.sub x (n.mul (n.angle .twoPi) (n.floor (n.div x (n.angle .twoPi))))

/-- `lerp(a, b, t)` is `(1 − t)·a + t·b` (R10, 40_oscillator.md R81). -/
def NumFormat.lerp (n : NumFormat) (a b t : Val) : Val := n.add (n.mul (n.sub .one t) a) (n.mul t b)

/-! ### Functions: free within what R11 lets a model assume (log 2) -/

/-- What may be assumed of `sin` at `x` in a format other than the reference: 0 at 0, bounded by 1, and within 1e-5 of the
real sine at the format's π/2, π and 3π/2 (R11). -/
def NumFormat.sinAllowed (n : NumFormat) (x y : Val) : Bool :=
  if !x.finite then true
  else y.abs.le .one &&
    (if x.isZero then y.isZero
     else if x.number = (n.angle .halfPi).number then (Val.num { num := 99999, den := 100000 }).le y
     else if x.number = (n.angle .pi).number then y.abs.le (.num { num := 1, den := 100000 })
     else if x.number = (n.angle .threeHalfPi).number then y.le (.num { num := -99999, den := 100000 })
     else true)

/-- A value allowed for `sin x`, used only where the free value is not. -/
def NumFormat.sinFallback (n : NumFormat) (x : Val) : Val :=
  if x.isZero then .zero
  else if x.number = (n.angle .halfPi).number then .one
  else if x.number = (n.angle .pi).number then .zero
  else if x.number = (n.angle .threeHalfPi).number then .negOne
  else .zero

/-- `sin`. -/
def NumFormat.sin (n : NumFormat) (x : Val) : Val :=
  match n with
  | .binary32 => .f32 (Fp.sin x.word)
  | .other k => if n.sinAllowed x (freeFun k .sin x.number) then freeFun k .sin x.number else n.sinFallback x

/-- What may be assumed of `tanh` at `x` in a format other than the reference. -/
def tanhAllowed (x y : Val) : Bool := if !x.finite then true else y.abs.le .one && (if x.isZero then y.isZero else true)

/-- `tanh`. -/
def NumFormat.tanh (n : NumFormat) (x : Val) : Val :=
  match n with
  | .binary32 => .f32 (Fp.tanh x.word)
  | .other k => if tanhAllowed x (freeFun k .tanh x.number) then freeFun k .tanh x.number else .zero

/-- `exp2`; 1 at 0. -/
def NumFormat.exp2 (n : NumFormat) (x : Val) : Val :=
  match n with
  | .binary32 => .f32 (Fp.exp2 x.word)
  | .other k => if x.isZero then .one else freeFun k .exp2 x.number

/-- The square wave's value where its sine is not a number, which R77 does not state (log 6). -/
def NumFormat.squareOfNaN (n : NumFormat) (theta : Val) : Val :=
  match n with
  | .binary32 => .f32 (freeSquare theta.word)
  | .other k => freeFun k .square theta.number

end Sys2Proof.Config
end

