-- ==== Sys2Proof/Machine/Tracked.lean ====
section
/-! DEFINITION. Both readings of a rule at once: the stored number and its exact value over the reals, and the comparisons
that may go either way where the two sides are equal over the reals (93_implementation_defined.md U14,
70_reset_and_hazards.md R208; log 7). -/

namespace Sys2Proof.Machine

open Sys2Proof.Config (NumFormat TieSite)

/-- What a register or operand word denotes, in both readings (30_encoding.md R57). -/
def Tracked.load (n : NumFormat) (w : F32) : Tracked := { val := n.load w, real := .ofWord w }

/-- A constant of the rules, in both readings. -/
def Tracked.ofWord (w : F32) : Tracked := { val := .f32 w, real := .ofWord w }

/-- 0 in both readings. -/
def Tracked.zero : Tracked := .ofWord Fp.zero

/-- 1 in both readings. -/
def Tracked.one : Tracked := .ofWord Fp.one

/-- `a + b`: one operation of `NUM`, and the exact sum. -/
def Tracked.add (n : NumFormat) (a b : Tracked) : Tracked := { val := n.add a.val b.val, real := a.real.add b.real }

/-- `a · b`. -/
def Tracked.mul (n : NumFormat) (a b : Tracked) : Tracked := { val := n.mul a.val b.val, real := a.real.mul b.real }

/-- `a / b`. -/
def Tracked.div (n : NumFormat) (a b : Tracked) : Tracked := { val := n.div a.val b.val, real := a.real.mul b.real.inv }

/-- `max(a, lo)`. -/
def Tracked.atLeast (a lo : Tracked) : Tracked :=
  { val := a.val.atLeast lo.val, real := if a.real.lt lo.real then lo.real else a.real }

/-- `clamp01(a)`. -/
def Tracked.clamp01 (a : Tracked) : Tracked :=
  { val := a.val.clamp01
    real := if a.real.lt (.ofWord Fp.zero) then .ofWord Fp.zero
      else if Exact.lt (.ofWord Fp.one) a.real then .ofWord Fp.one else a.real }

/-! ### Comparisons that may go either way -/

/-- No rounding has happened: the stored number is the real one. -/
def Tracked.isExact (a : Tracked) : Bool := a.val.finite && a.real.eq a.val.real

/-- The two sides are equal over the reals, as far as stored numbers can tell (they have one nearest binary32 number), and a
side has been rounded: U14 asks a model to admit both outcomes. Where no side has been rounded the readings agree, and the
comparison is decided (the examples of R95, R98 and R134; 95_test_vectors.md, second paragraph). Neither side is 0 over the
reals, which no sum of steps is: a timer just reset to 0 is below every open time but 0 (R134). The two have a finite quotient,
which is so in every state a run reaches when they are equal over the reals, and keeps the freedom out of the other states. -/
def tieOpen (n : NumFormat) (a b : Tracked) : Bool :=
  a.real.num != 0 && b.real.num != 0 && a.val.finite && b.val.finite && (n.div a.val b.val).finite
    && a.real.nearest == b.real.nearest && !(a.isExact && b.isExact)

/-- `a ≥ b`, a free value where it may go either way. -/
def reaches (n : NumFormat) (site : TieSite) (a b : Tracked) : Bool :=
  if tieOpen n a b then Config.freeTie site a.val b.val else b.val.le a.val

/-- `a < b`: where it may go either way, the other outcome of `a ≥ b`. -/
def below (n : NumFormat) (site : TieSite) (a b : Tracked) : Bool :=
  if tieOpen n a b then !Config.freeTie site a.val b.val else a.val.lt b.val

end Sys2Proof.Machine
end

