-- ==== Sys2Proof/Machine/Operands.lean ====
section
/-! DEFINITION. Operand forms: the codes of the code registers, the legal range and the legalisation of every `f32`
register, and the write of a timbre register as `SETP` performs it (10_state.md R14, 46_commands.md R156). -/

namespace Sys2Proof.Machine

open Sys2Proof.Config (Params NumFormat)

/-- The code of a waveform (R14). -/
def waveCode : Wave → Word
  | .sine => 0
  | .square => 1
  | .saw => 2
  | .triangle => 3

/-- The waveform of a code; codes 4 and above are reserved (30_encoding.md R68). -/
def waveOfCode (v : Word) : Option Wave :=
  match v.toNat with
  | 0 => some .sine
  | 1 => some .square
  | 2 => some .saw
  | 3 => some .triangle
  | _ => none

/-- The code of a filter mode (R14). -/
def modeCode : Mode → Word
  | .lp => 0
  | .hp => 1
  | .bp => 2

/-- The filter mode of a code; codes 3 and above are reserved (R68). -/
def modeOfCode (v : Word) : Option Mode :=
  match v.toNat with
  | 0 => some .lp
  | 1 => some .hp
  | 2 => some .bp
  | _ => none

/-- The code of `GRAIN_ENABLE` (R14). -/
def enableCode : Bool → Word
  | false => 0
  | true => 1

/-- The enable of a code; codes 2 and above are reserved (R68). -/
def enableOfCode (v : Word) : Option Bool :=
  match v.toNat with
  | 0 => some false
  | 1 => some true
  | _ => none

/-- The code of an envelope stage (10_state.md R30). -/
def stageCode : Stage → BitVec 3
  | .idle => 0
  | .attack => 1
  | .decay => 2
  | .sustain => 3
  | .release => 4

/-- A finite value brought into [0, 1] (R14). -/
def legalUnit (v : F32) : F32 := Fp.clamp01 v

/-- A finite value brought up to a floor (R14). -/
def legalFloor (lo v : F32) : F32 := Fp.atLeast v lo

/-- What becomes of a `SETP` of a timbre register: it is rejected, or the new register file and whether the value was
clamped. -/
inductive TimbreWrite where
  | rejected (st : Status)
  | written (t : Timbre) (clamped : Bool)
deriving DecidableEq, Repr

/-- A write of a code register: an unknown code is `BAD_KIND` and leaves the register (R156, R179). -/
def writeCode {α : Type} (code : Option α) (put : α → Timbre) : TimbreWrite :=
  match code with
  | some c => .written (put c) false
  | none => .rejected .badKind

/-- A write of an `f32` register: a non-finite value is `BAD_VALUE` and leaves the register; else the legalised value
is stored, and `CLAMPED` is raised when it differs from the value written (R156). -/
def writeReal (v legal : F32) (put : F32 → Timbre) : TimbreWrite :=
  if Fp.finite v then .written (put legal) (legal != v) else .rejected .badValue

/-- `SETP` of a register, all but `STATUS`: each timbre register with its type and its legal range (R14); the read-only
registers are `BAD_REG` (R68). -/
def writeReg (c : Params) (t : Timbre) (r : Reg) (v : Word) : TimbreWrite :=
  match r with
  | .oscA => writeCode (waveOfCode v) fun w => { t with oscA := w }
  | .oscB => writeCode (waveOfCode v) fun w => { t with oscB := w }
  | .oscMix => writeReal v (legalUnit v) fun x => { t with oscMix := x }
  | .envAttack => writeReal v (legalFloor c.tMin v) fun x => { t with envAttack := x }
  | .envDecay => writeReal v (legalFloor c.tMin v) fun x => { t with envDecay := x }
  | .envSustain => writeReal v (legalUnit v) fun x => { t with envSustain := x }
  | .envRelease => writeReal v (legalFloor c.tMin v) fun x => { t with envRelease := x }
  | .fltCutoff => writeReal v v fun x => { t with fltCutoff := x }
  | .fltResonance => writeReal v (legalUnit v) fun x => { t with fltResonance := x }
  | .fltMode => writeCode (modeOfCode v) fun m => { t with fltMode := m }
  | .lfoShape => writeCode (waveOfCode v) fun w => { t with lfoShape := w }
  | .lfoRate => writeReal v (legalFloor Fp.zero v) fun x => { t with lfoRate := x }
  | .lfoDepth => writeReal v (legalUnit v) fun x => { t with lfoDepth := x }
  | .distDrive => writeReal v (legalFloor Fp.one v) fun x => { t with distDrive := x }
  | .grainEnable => writeCode (enableOfCode v) fun b => { t with grainEnable := b }
  | .grainRate => writeReal v (legalFloor c.grainRateMin v) fun x => { t with grainRate := x }
  | .grainDuty => writeReal v v fun x => { t with grainDuty := x }
  | .grainJitter => writeReal v (legalUnit v) fun x => { t with grainJitter := x }
  | .status => .rejected .badReg
  | .activeCount => .rejected .badReg
  | .nextId => .rejected .badReg
  | .nvoices => .rejected .badReg

/-- The frame time, `step = 1/SR` (45_voice.md R141). -/
def stepOf (n : NumFormat) (sr : F32) : Tracked := .div n .one (.load n sr)

/-- The operands of `RENDER` after their clamps, and whether one was clamped (46_commands.md R159). -/
structure RenderOperands where
  frames : Nat
  channels : Nat
  rate : F32
  clamped : Bool
deriving DecidableEq, Repr

/-- `C'`: the channel count brought into [1, MAXCH] (R159). -/
def legalChannels (c : Params) (ch : Nat) : Nat := if ch < 1 then 1 else if c.maxCh < ch then c.maxCh else ch

/-- The operand handling of `RENDER` for a finite `sr` (R159). The comparisons are of integers and cannot overflow. -/
def renderOperands (c : Params) (n ch : Word) (sr : F32) : RenderOperands :=
  let sr' := Fp.atLeast sr c.srMin
  let ch' := legalChannels c ch.toNat
  let n' := min n.toNat (c.outCap / ch')
  { frames := n', channels := ch', rate := sr'
    clamped := Fp.lt sr c.srMin || ch' != ch.toNat || decide (c.outCap / ch' < n.toNat) }

end Sys2Proof.Machine
end

