-- ==== Sys2Proof/Machine/Ops.lean ====
section
/-! DEFINITION. The shared operations over the state: the bytes and words of `OUT`, the draws of the `rnd` port, the
read of a register, the command and response ports, reset, and the host's read of `OUT`. -/

namespace Sys2Proof.Machine

/-! ### OUT (20_memory.md R40, R42, R44) -/

/-- One byte of `OUT`; `none` where nothing has written it since reset (70_reset_and_hazards.md R198). -/
def readByte : Memory → Nat → Option Byte
  | [], _ => none
  | (k, b) :: m, a => if k = a then some b else readByte m a

/-- Write one byte, keeping the addresses in strictly rising order. -/
def writeByte : Memory → Nat → Byte → Memory
  | [], a, v => [(a, v)]
  | (k, b) :: m, a, v =>
    if a < k then (a, v) :: (k, b) :: m else if a = k then (a, v) :: m else (k, b) :: writeByte m a v

/-- The canonical form: addresses strictly rising. An unlisted byte has no value, so no entry repeats one. -/
def memoryWf : Memory → Bool
  | [] => true
  | [_] => true
  | (a, _) :: (b, v) :: m => decide (a < b) && memoryWf ((b, v) :: m)

/-- Byte `i` of a word: byte 0 is bits 7:0 (R44). -/
def byteOf (w : Word) (i : Nat) : Byte := w.extractLsb' (8 * i) 8

/-- `MemWrite(addr, 1, w)`: the word at a word address of `OUT` (00_scope.md R10). -/
def writeWord (m : Memory) (addr : Nat) (w : Word) : Memory :=
  writeByte (writeByte (writeByte (writeByte m (4 * addr) (byteOf w 0)) (4 * addr + 1) (byteOf w 1))
    (4 * addr + 2) (byteOf w 2)) (4 * addr + 3) (byteOf w 3)

/-- `MemRead(addr, 1)`: the word at a word address; `none` where it has never been written (R10, R198). -/
def readWord (m : Memory) (addr : Nat) : Option Word :=
  match readByte m (4 * addr), readByte m (4 * addr + 1), readByte m (4 * addr + 2), readByte m (4 * addr + 3) with
  | some b0, some b1, some b2, some b3 => some (wordOfBytes b0 b1 b2 b3)
  | _, _, _, _ => none

/-- A word stream has the header of a `RENDER` in it, `skip` words being operands still to come (30_encoding.md R66). -/
def streamRenders : Nat → List Word → Bool
  | _, [] => false
  | skip + 1, _ :: ws => streamRenders skip ws
  | 0, h :: ws => h == 0x06000000 || streamRenders (operandWords (headerOp h)) ws

/-- A `RENDER` has been sent and its response has not been taken whole: its words are offered or accepted, or its response
waits (70_reset_and_hazards.md R200; log 17). -/
def renderUnderWay (s : State) : Bool := (s.rendering && s.rsp != []) || streamRenders 0 (s.held ++ s.cmd)

/-- The host's read of the `out` port: it changes nothing and may be repeated (R45). Out of range and never written since
reset are unspecified (R45, R198, 93_implementation_defined.md U10), and while a `RENDER` is under way a word may be the old
or the new one (R200, U12): the model refuses these by name. -/
def hostReadOut (s : State) (addr : Nat) : Host.Outcome Word Fault Refusal :=
  if s.cfg.outCap ≤ addr then .refused .outRange
  else if renderUnderWay s then .refused .outDuringRender
  else if s.rst then .refused .outUnwritten
  else match readWord s.out addr with
    | some w => .next w
    | none => .refused .outUnwritten

/-! ### The rnd port (44_grain_gate.md R132) -/

/-- `draw()`: the next value of the port, in [−1, 1]; past what the port has queued, a free value. -/
def draw (r : Rnd) : F32 × Rnd :=
  match r.queue with
  | u :: us => (Fp.unitDraw u, { queue := us, count := r.count + 1 })
  | [] => (Fp.unitDraw (Config.freeDraw r.count), { queue := [], count := r.count + 1 })

/-! ### Registers -/

/-- `P[NAME]` as a word: a timbre register's code or pattern, or a status register (10_state.md R14, R21 to R24). -/
def readReg (s : State) : Reg → Word
  | .oscA => waveCode s.timbre.oscA
  | .oscB => waveCode s.timbre.oscB
  | .oscMix => s.timbre.oscMix
  | .envAttack => s.timbre.envAttack
  | .envDecay => s.timbre.envDecay
  | .envSustain => s.timbre.envSustain
  | .envRelease => s.timbre.envRelease
  | .fltCutoff => s.timbre.fltCutoff
  | .fltResonance => s.timbre.fltResonance
  | .fltMode => modeCode s.timbre.fltMode
  | .lfoShape => waveCode s.timbre.lfoShape
  | .lfoRate => s.timbre.lfoRate
  | .lfoDepth => s.timbre.lfoDepth
  | .distDrive => s.timbre.distDrive
  | .grainEnable => enableCode s.timbre.grainEnable
  | .grainRate => s.timbre.grainRate
  | .grainDuty => s.timbre.grainDuty
  | .grainJitter => s.timbre.grainJitter
  | .status => s.status
  | .activeCount => BitVec.ofNat 32 s.voices.length
  | .nextId => s.nextId
  | .nvoices => BitVec.ofNat 32 s.cfg.nvoices

/-- The last id, after which `NEXT_ID` wraps: `2^IDW − 1` (R23). -/
def lastId (s : State) : Word := BitVec.ofNat 32 (2 ^ s.cfg.idw - 1)

/-- `NEXT_ID` is at its last value, so that handing it out wraps the counter (R23). -/
def idWraps (s : State) : Bool := s.nextId == lastId s

/-- `NEXT_ID` after it has been handed out: one more, or 1 after the last (R23, 46_commands.md R150). -/
def bumpId (s : State) : Word := if idWraps s then 1 else s.nextId + 1

/-! ### The ports and reset -/

/-- The valid line of `cmd`: the host offers a word (00_scope.md R8). -/
def cmdValid (s : State) : Bool := s.cmd != []

/-- The valid line of `rsp`: the engine offers a word (R8). -/
def rspValid (s : State) : Bool := s.rsp != []

/-- The engine cannot start a command while response words wait to be taken (70_reset_and_hazards.md R207). -/
def stalled (s : State) : Bool := rspValid s

/-- The ready line of `cmd`: the engine accepts words when it is not in reset and its last response has been taken
(R8, R195, R207; log 9). -/
def cmdReady (s : State) : Bool := !s.rst && !stalled s

/-- One transfer on `rsp`: the oldest waiting word is taken when both lines are up (R8; log 10). -/
def deliver (s : State) : State :=
  match s.rsp with
  | [] => s
  | w :: ws => if s.rspReady then { s with rsp := ws, taken := s.taken ++ [w] } else s

/-- One transfer on `cmd`: the next word offered is accepted as a part of a command of which more words are to come
(R8, 30_encoding.md R66; log 9). -/
def accept (s : State) : State :=
  match s.cmd with
  | [] => s
  | w :: ws => { s with held := s.held ++ [w], cmd := ws }

/-- The state in and right after reset: every register of R196 at its reset value, the pool empty, `OUT` unspecified,
the accepted words of a command in progress and the rest of a response gone (R195, R196, R198). The configuration, the
words and lines the host drives, the host's own record and the `rnd` port, which reset does not touch, stay (log 11). -/
def resetEngine (s : State) : State :=
  { s with
    timbre := State.reset.timbre
    status := State.reset.status
    nextId := State.reset.nextId
    voices := State.reset.voices
    out := State.reset.out
    held := []
    rsp := []
    rendering := false }

/-- The words of the command stream not yet executed: those accepted, then those offered. -/
def stream (s : State) : List Word := s.held ++ s.cmd

/-- The fetch: what the words at the head of the stream are (30_encoding.md R66). -/
def fetch (s : State) : Decoded := decode (stream s)

/-- The state with the words of one command taken from the stream, `rest` being what is left of it. -/
def consume (rest : List Word) (s : State) : State :=
  { s with held := [], cmd := rest, rendering := (stream s).head? == some 0x06000000 }

end Sys2Proof.Machine
end

