-- ==== Sys2Proof/Machine/Envelope.lean ====
section
/-! DEFINITION. The ADSR envelope unit (41_envelope.md R91 to R98). -/

namespace Sys2Proof.Machine

open Sys2Proof.Config (NumFormat)

/-- `ENV_ON`: to Attack from the current amplitude (R91). -/
def envOn (e : Env) : Env := { e with start := e.amp, elapsed := .zero, stage := .attack }

/-- `ENV_OFF`: to Release from the current amplitude, in every stage (R92). -/
def envOff (e : Env) : Env := { e with start := e.amp, elapsed := .zero, stage := .release }

/-- A timed stage of length `len` towards `target`: add `dt`, test, compute (R93, R95, R96, R98). The test may go either
way where its sides are equal over the reals (U14; log 7). The interpolation is written
`start + (target − start)·(elapsed / len)`. -/
def envRamp (n : NumFormat) (target : Val) (len : F32) (dt : Tracked) (next : Stage) (e : Env) : Env :=
  let el := Tracked.add n e.elapsed dt
  if reaches n .elapsed el (.load n len) then { stage := next, amp := target, start := target, elapsed := .zero }
  else { e with
    elapsed := el
    amp := n.add e.start (n.mul (n.sub target e.start) (n.div el.val (n.load len))) }

/-- The body of the current stage (R94 to R98). -/
def envBody (n : NumFormat) (t : Timbre) (dt : Tracked) (e : Env) : Env :=
  match e.stage with
  | .idle => { e with amp := .zero }
  | .attack => envRamp n .one t.envAttack dt .decay e
  | .decay => envRamp n (n.load t.envSustain) t.envDecay dt .sustain e
  | .sustain => { e with amp := n.load t.envSustain }
  | .release => envRamp n .zero t.envRelease dt .idle e

/-- `ENV_TICK`: the body of the stage, then the clamp of the amplitude; the new amplitude is the field `amp` (R93). -/
def envTick (n : NumFormat) (t : Timbre) (dt : Tracked) (e : Env) : Env :=
  let e' := envBody n t dt e
  { e' with amp := e'.amp.clamp01 }

/-- A new voice's envelope before `ENV_ON` (R104). -/
def envInit : Env := { stage := .idle, amp := .zero, start := .zero, elapsed := .zero }

end Sys2Proof.Machine
end

