-- ==== Sys2Proof/Machine/Oscillator.lean ====
section
/-! DEFINITION. The oscillator unit (40_oscillator.md R75 to R81). -/

namespace Sys2Proof.Machine

open Sys2Proof.Config (Params Sign NumFormat)

/-- `SIGN0` as a sample (R77). -/
def signValue : Sign → Val
  | .plus => .one
  | .minus => .negOne

/-- The square wave from its sine (R77). R77 states no value for a sine that is not a number: a free value (log 6). -/
def squareOf (c : Params) (theta s : Val) : Val :=
  if Val.zero.lt s then .one
  else if s.lt .zero then .negOne
  else if s.isZero then signValue c.sign0
  else c.num.squareOfNaN theta

/-- The triangle law in cycles, `2·|2·(t − floor(t + 0.5))| − 1` (R79). DESIGN CHOICE: where `t + 0.5` is rounded the law,
operation by operation (R11), can pass the bound 1 of R75 and R80, which is a bound over the reals; the value of the law is
kept and not clamped (log 22). -/
def triangleOf (n : NumFormat) (t : Val) : Val :=
  n.sub (n.mul .two (n.mul .two (n.sub t (n.floor (n.add t .half)))).abs) .one

/-- `WAVE(kind, θ)` (R75 to R79). -/
def wave (c : Params) (kind : Wave) (theta : Val) : Val :=
  match kind with
  | .sine => c.num.sin theta
  | .square => squareOf c theta (c.num.sin theta)
  | .saw => c.num.sub (c.num.mul .two (c.num.frac (c.num.div theta (c.num.angle .twoPi)))) .one
  | .triangle => triangleOf c.num (c.num.div theta (c.num.angle .twoPi))

/-- `BLEND(kindA, kindB, mix, θ)` (R81). -/
def blend (c : Params) (kindA kindB : Wave) (mix theta : Val) : Val :=
  c.num.lerp (wave c kindA theta) (wave c kindB theta) mix

end Sys2Proof.Machine
end

