-- ==== Sys2Proof/Machine/Filter.lean ====
section
/-! DEFINITION. The ladder filter unit with its cutoff LFO (42_filter.md R105 to R116). -/

namespace Sys2Proof.Machine

open Sys2Proof.Config (Params NumFormat)

/-- The LFO phase after its advance, in cycles (R106). -/
def lfoAdvance (n : NumFormat) (t : Timbre) (sr lfo : Val) : Val := n.frac (n.add lfo (n.div (n.load t.lfoRate) sr))

/-- The LFO's value in [0, 1] at a phase in cycles (R106). -/
def lfoValue (c : Params) (t : Timbre) (lfo : Val) : Val :=
  c.num.div (c.num.add (wave c t.lfoShape (c.num.mul (c.num.angle .twoPi) lfo)) .one) .two

/-- The modulated cutoff, clamped into [50, 0.45·SR] (R107). -/
def cutoff (n : NumFormat) (t : Timbre) (sr l : Val) : Val :=
  Val.clamp
    (n.mul (n.load t.fltCutoff)
      (n.exp2 (n.mul (n.mul (n.sub (n.mul .two l) .one) (n.load t.lfoDepth)) .four)))
    (.f32 Config.cutMin) (n.mul n.cutFrac sr)

/-- The coefficients of one sample (R108). -/
structure Coeffs where
  p : Val
  k : Val
  r : Val
deriving DecidableEq, Repr

/-- `f`, `p`, `K`, `r` from the cutoff and the sample rate (R108). -/
def coeffs (n : NumFormat) (t : Timbre) (sr cut : Val) : Coeffs :=
  let f := n.div cut sr
  let p := n.mul f (n.sub n.c1_8 (n.mul n.c0_8 f))
  { p := p
    k := n.sub (n.mul .two (n.sin (n.div (n.mul f (n.angle .pi)) .two))) .one
    r := n.mul (n.load t.fltResonance) (n.sub .one (n.mul (n.mul n.c0_15 p) p)) }

/-- One stage: its new state from its input of this sample (R110). The stage state is not clamped. -/
def tapStep (n : NumFormat) (co : Coeffs) (x : Val) (tap : Tap) : Tap :=
  { oldx := x, y := n.sub (n.mul co.p (n.add x tap.oldx)) (n.mul co.k tap.y) }

/-- The input of stage 0: the filter input minus the feedback from the last stage's previous output (R109). -/
def ladderInput (n : NumFormat) (co : Coeffs) (input : Val) (l : Ladder) : Val := n.sub input (n.mul co.r l.tap3.y)

/-- The four stages in order, each fed by the output just computed of the one before (R110). -/
def ladderTaps (n : NumFormat) (co : Coeffs) (x : Val) (l : Ladder) : Ladder :=
  let t0 := tapStep n co x l.tap0
  let t1 := tapStep n co t0.y l.tap1
  let t2 := tapStep n co t1.y l.tap2
  let t3 := tapStep n co t2.y l.tap3
  { l with tap0 := t0, tap1 := t1, tap2 := t2, tap3 := t3 }

/-- The output of a mode from the filter's input and the low-pass output (R111 to R113). -/
def modeOutput (n : NumFormat) (m : Mode) (input lp : Val) : Val :=
  match m with
  | .lp => lp
  | .hp => n.sub input lp
  | .bp => n.sub (n.sub input lp) lp

/-- `LADDER_STEP`: the returned sample, clamped to [−1, 1] (R114), and the new filter state, not clamped (R115). An infinite
output becomes a bound by the clamp; the state that gave it is not finite, and the guard of 45_voice.md R147 silences it
(`voiceStep`; log 20). -/
def ladderStep (c : Params) (t : Timbre) (sr input : Val) (l : Ladder) : Val × Ladder :=
  let lfo := lfoAdvance c.num t sr l.lfo
  let co := coeffs c.num t sr (cutoff c.num t sr (lfoValue c t lfo))
  let l' := { ladderTaps c.num co (ladderInput c.num co input l) l with lfo := lfo }
  (Val.clamp (modeOutput c.num t.fltMode input l'.tap3.y) .negOne .one, l')

/-- Both fields of a stage are finite. -/
def tapFinite (tap : Tap) : Bool := tap.oldx.finite && tap.y.finite

/-- The filter state of a voice is finite: its nine fields (10_state.md R31; R147). -/
def ladderFinite (l : Ladder) : Bool :=
  tapFinite l.tap0 && tapFinite l.tap1 && tapFinite l.tap2 && tapFinite l.tap3 && l.lfo.finite

/-- A stage of a new voice's filter (R116). -/
def tapInit : Tap := { oldx := .zero, y := .zero }

/-- A new voice's filter (R116). -/
def ladderInit : Ladder := { tap0 := tapInit, tap1 := tapInit, tap2 := tapInit, tap3 := tapInit, lfo := .zero }

end Sys2Proof.Machine
end

