-- ==== Sys2Proof/Machine/GrainGate.lean ====
section
/-! DEFINITION. The grain gate unit (44_grain_gate.md R131 to R135). -/

namespace Sys2Proof.Machine

open Sys2Proof.Config (Params NumFormat)

/-- A configured value jittered by one draw, `value·(1 + jitter·u)` (R131). -/
def jittered (n : NumFormat) (v jitter u : F32) : Tracked :=
  .mul n (.load n v) (.add n .one (.mul n (.load n jitter) (.load n u)))

/-- The next grain from its two draws: the length and the open time; the timer is not touched (R133). -/
def grainOf (c : Params) (t : Timbre) (u1 u2 : F32) (g : Grain) : Grain :=
  let len := Tracked.div c.num .one (.atLeast (jittered c.num t.grainRate t.grainJitter u1) (.load c.num c.grainRateMin))
  { g with len := len, duty := .mul c.num (.clamp01 (jittered c.num t.grainDuty t.grainJitter u2)) len }

/-- `GRAIN_ROLL`: two draws, the rate's first (R131 to R133). -/
def grainRoll (c : Params) (t : Timbre) (g : Grain) (r : Rnd) : Grain × Rnd :=
  let (u1, r1) := draw r
  let (u2, r2) := draw r1
  (grainOf c t u1 u2 g, r2)

/-- The first part of `GRAIN_APPLY`: the timer advances by `step`, and at the end of a grain the next is rolled and the
timer is reset to 0 (R134). The test may go either way where its sides are equal over the reals (U14; log 7). -/
def grainAdvance (c : Params) (t : Timbre) (step : Tracked) (g : Grain) (r : Rnd) : Grain × Rnd :=
  let timer := Tracked.add c.num g.timer step
  if reaches c.num .grain timer g.len then
    let (g', r') := grainRoll c t g r
    ({ g' with timer := .zero }, r')
  else ({ g with timer := timer }, r)

/-- The passed-or-muted decision: the sample itself while `timer < duty`, else 0 (R134), either way where the two are equal
over the reals (U14; log 7), and the way of the end of the grain where the open time is the length (R133). -/
def gated (n : NumFormat) (g : Grain) (input : Val) : Val := if below n .grain g.timer g.duty then input else .zero

/-- The gate of a new voice before its first roll (R135). -/
def grainInit : Grain := { timer := .zero, len := .zero, duty := .zero }

end Sys2Proof.Machine
end

