-- ==== Sys2Proof/Machine/Pool.lean ====
section
/-! DEFINITION. The voice-pool allocator: `NOTE_ON`, `NOTE_OFF`, `NOTE_OFF_FREQ` (46_commands.md R150 to R155). -/

namespace Sys2Proof.Machine

open Sys2Proof.Config (Params NumFormat)

/-- `CREATE(k, id, f)`: the new voice and the `rnd` port after its two draws (R151). -/
def create (s : State) (f : F32) : Voice × Rnd :=
  let (gr, r) := grainRoll s.cfg s.timbre grainInit s.rnd
  ({ id := s.nextId, freq := f, phase := .zero, t := s.timbre, env := envOn envInit, flt := ladderInit, gr := gr }, r)

/-- `RETARGET(id, f)` of the voice in slot 0: its frequency, its id, and `ENV_ON`; nothing else (R153). -/
def retargetVoice (id : Word) (f : F32) (v : Voice) : Voice := { v with freq := f, id := id, env := envOn v.env }

/-- `RETARGET(id, f)` on the pool: slot 0 only (R153). -/
def retarget (id : Word) (f : F32) : List Voice → List Voice
  | [] => []
  | v :: vs => retargetVoice id f v :: vs

/-- `NOTE_ON f` (R150). -/
def execNoteOn (f : F32) (s : State) : Host.Outcome State Fault Refusal :=
  if !Fp.finite f then .next (reject .badValue s)
  else if s.voices.length < s.cfg.nvoices then
    .next (answer (raisedIf (idWraps s) .idWrap) s.nextId
      { s with nextId := bumpId s, voices := s.voices ++ [(create s f).1], rnd := (create s f).2 })
  else
    .next (answer (raisedIf (idWraps s) .idWrap ++ [.stolen]) s.nextId
      { s with nextId := bumpId s, voices := retarget s.nextId f s.voices })

/-- `ENV_OFF` of a voice; every other field stays (45_voice.md R149). -/
def releaseVoice (v : Voice) : Voice := { v with env := envOff v.env }

/-- `ENV_OFF` of the first voice with an id: the lowest slot that matches (R154; 93_implementation_defined.md U9). -/
def releaseId (id : Word) : List Voice → List Voice
  | [] => []
  | v :: vs => if v.id = id then releaseVoice v :: vs else v :: releaseId id vs

/-- Some voice of the pool has the id (R154). -/
def hasId (id : Word) (vs : List Voice) : Bool := vs.any fun v => v.id == id

/-- `NOTE_OFF id` (R154). -/
def execNoteOff (id : Word) (s : State) : Host.Outcome State Fault Refusal :=
  if hasId id s.voices then .next (answer [] 1 { s with voices := releaseId id s.voices })
  else .next (answer [.miss] 0 s)

/-- The match of a frequency: `|V[k].freq − f| ≤ FREQ_TOL` (R155). Where the two are equal over the reals the difference rounds
to `FREQ_TOL` itself, so both readings match (70_reset_and_hazards.md R208; log 7). -/
def freqMatches (c : Params) (f : F32) (v : Voice) : Bool :=
  (c.num.sub (c.num.load v.freq) (c.num.load f)).abs.le c.freqTol

/-- How many voices match a frequency (R155). -/
def countMatches (s : State) (f : F32) : Nat := s.voices.countP (freqMatches s.cfg f)

/-- `ENV_OFF` of every matching voice (R155). -/
def releaseFreq (c : Params) (f : F32) (vs : List Voice) : List Voice :=
  vs.map fun v => if freqMatches c f v then releaseVoice v else v

/-- `NOTE_OFF_FREQ f` (R155). -/
def execNoteOffFreq (f : F32) (s : State) : Host.Outcome State Fault Refusal :=
  if !Fp.finite f then .next (reject .badValue s)
  else if countMatches s f = 0 then .next (answer [.miss] 0 s)
  else .next (answer [] (BitVec.ofNat 32 (countMatches s f))
    { s with voices := releaseFreq s.cfg f s.voices })

end Sys2Proof.Machine
end

