-- ==== Sys2Proof/Machine/Registers.lean ====
section
/-! DEFINITION. The register access commands `SETP` and `GETP` (46_commands.md R156 to R158). -/

namespace Sys2Proof.Machine

/-- The state with a new timbre register file. -/
def putTimbre (t : Timbre) (s : State) : State := { s with timbre := t }

/-- `SETP` of a register other than `STATUS` (R156). The response carries the register's new contents. -/
def setReg (r : Reg) (v : Word) (s : State) : State :=
  match writeReg s.cfg s.timbre r v with
  | .rejected st => reject st s
  | .written t clamped => answer (raisedIf clamped .clamped) (readReg (putTimbre t s) r) (putTimbre t s)

/-- `SETP STATUS, m` (R157). It raises nothing. -/
def setStatus (m : Word) (s : State) : State :=
  answer [] (clearStatus m s.status) { s with status := clearStatus m s.status }

/-- `SETP reg, v` (R156, R157). -/
def execSetp (sel : RegSel) (v : Word) (s : State) : Host.Outcome State Fault Refusal :=
  match sel with
  | .reserved _ => .next (reject .badReg s)
  | .reg .status => .next (setStatus v s)
  | .reg r => .next (setReg r v s)

/-- `GETP reg` (R158). -/
def execGetp (sel : RegSel) (s : State) : Host.Outcome State Fault Refusal :=
  match sel with
  | .reserved _ => .next (reject .badReg s)
  | .reg r => .next (answer [] (readReg s r) s)

end Sys2Proof.Machine
end

