-- ==== Sys2Proof/Machine/Distortion.lean ====
section
/-! DEFINITION. The distortion unit (43_distortion.md R125). -/

namespace Sys2Proof.Machine

open Sys2Proof.Config (NumFormat)

/-- `DIST(k, in) = tanh(in · DIST_DRIVE)` (R125). -/
def distort (n : NumFormat) (t : Timbre) (input : Val) : Val := n.tanh (n.mul input (n.load t.distDrive))

end Sys2Proof.Machine
end

