-- ==== Sys2Proof/Machine/VoiceStep.lean ====
section
/-! DEFINITION. The voice step: one frame of one voice (45_voice.md R140 to R148). -/

namespace Sys2Proof.Machine

open Sys2Proof.Config (Params NumFormat)

/-- What one voice step leaves: its sample, the voice, the `rnd` port, and whether `SILENCED` is raised. -/
structure VoiceFrame where
  sample : Val
  voice : Voice
  rnd : Rnd
  silenced : Bool
deriving DecidableEq, Repr

/-- The phase of the next frame, `wrap2π(phase + (2π·freq)/SR)` (R142, 40_oscillator.md R82). -/
def phaseAdvance (n : NumFormat) (sr : Val) (v : Voice) : Val :=
  n.wrap2Pi (n.add v.phase (n.div (n.mul (n.angle .twoPi) (n.load v.freq)) sr))

/-- The level: `filtered · amp · 0.5`, left to right (R145). -/
def level (n : NumFormat) (filtered amp : Val) : Val := n.mul (n.mul filtered amp) .half

/-- The guard of R147: `final` is not finite, or the voice's filter state has become non-finite, from which sample on the voice
is silent (R147, 93_implementation_defined.md U4, U13; log 20). DESIGN CHOICE: U13 speaks of the non-finite internal state at large,
R147 and U4 of the filter's; a phase, an envelope or a gate field that is not finite does not by itself fire the guard, only
through `final` and the filter (log 20). -/
def silent (final : Val) (flt : Ladder) : Bool := !final.finite || !ladderFinite flt

/-- `VOICE_STEP(k, step, SR)` (R148): phase, oscillator, distortion, filter, envelope, level, gate, guard. -/
def voiceStep (c : Params) (sr : F32) (v : Voice) (r : Rnd) : VoiceFrame :=
  let rate := c.num.load sr
  let phase := phaseAdvance c.num rate v
  let raw := blend c v.t.oscA v.t.oscB (c.num.load v.t.oscMix) phase
  let (filtered, flt) := ladderStep c v.t rate (distort c.num v.t raw) v.flt
  let step := stepOf c.num sr
  let env := envTick c.num v.t step v.env
  let (gr, r') := if v.t.grainEnable then grainAdvance c v.t step v.gr r else (v.gr, r)
  let final := if v.t.grainEnable then gated c.num gr (level c.num filtered env.amp) else level c.num filtered env.amp
  { sample := if silent final flt then .zero else final
    voice := { v with phase := phase, flt := flt, env := env, gr := gr }
    rnd := r'
    silenced := silent final flt }

end Sys2Proof.Machine
end

