-- ==== Sys2Proof/Machine/Render.lean ====
section
/-! DEFINITION. `RENDER`: the operands, the frames, the mix and the write, the compaction (46_commands.md R159 to R162). -/

namespace Sys2Proof.Machine

open Sys2Proof.Config (Params NumFormat)

/-- The sum of one frame as it is formed: the accumulator, the voices stepped so far in slot order, the `rnd` port, and
whether `SILENCED` has been raised. -/
structure MixSum where
  acc : Val
  voices : List Voice
  rnd : Rnd
  silenced : Bool
deriving DecidableEq, Repr

/-- The voices of a frame, in slot order, each added to the accumulator (R160). -/
def mixVoices (c : Params) (sr : F32) : List Voice → Val → Rnd → MixSum
  | [], acc, r => { acc := acc, voices := [], rnd := r, silenced := false }
  | v :: vs, acc, r =>
    let o := voiceStep c sr v r
    let m := mixVoices c sr vs (c.num.add acc o.sample) o.rnd
    { m with voices := o.voice :: m.voices, silenced := o.silenced || m.silenced }

/-- The word of a frame from its sum: the guard, the clamp to [−1, 1], and the word written (R161). -/
def mixSample (n : NumFormat) (acc : Val) : Word :=
  n.store (Val.clamp (if acc.finite then acc else .zero) .negOne .one)

/-- Write one sample to `ch` consecutive words from a word address: every channel of a frame (R161, 20_memory.md R42). -/
def writeChannels (m : Memory) (addr : Nat) (w : Word) : Nat → Memory
  | 0 => m
  | ch + 1 => writeWord (writeChannels m addr w ch) (addr + ch) w

/-- What `RENDER` changes frame by frame. -/
structure RenderRun where
  voices : List Voice
  out : Memory
  rnd : Rnd
  silenced : Bool
deriving DecidableEq, Repr

/-- Frame `n`: every occupied slot is stepped, whatever its stage, and the mix is written (R160, R161). -/
def renderFrame (c : Params) (sr : F32) (ch n : Nat) (x : RenderRun) : RenderRun :=
  let m := mixVoices c sr x.voices .zero x.rnd
  { voices := m.voices
    out := writeChannels x.out (n * ch) (mixSample c.num m.acc) ch
    rnd := m.rnd
    silenced := x.silenced || m.silenced || !m.acc.finite }

/-- Frames 0 to `k − 1`, in order (R160). -/
def renderFrames (c : Params) (sr : F32) (ch : Nat) : Nat → RenderRun → RenderRun
  | 0, x => x
  | k + 1, x => renderFrame c sr ch k (renderFrames c sr ch k x)

/-- `is_active`: the stage is not Idle (10_state.md R33, 41_envelope.md R99). -/
def isActive (v : Voice) : Bool := v.env.stage != .idle

/-- The compaction: every Idle voice is removed, the others keep their order and all their fields (R162). -/
def compact (vs : List Voice) : List Voice := vs.filter isActive

/-- The frames of a `RENDER` on a state. -/
def renderRun (s : State) (o : RenderOperands) : RenderRun :=
  renderFrames s.cfg o.rate o.channels o.frames { voices := s.voices, out := s.out, rnd := s.rnd, silenced := false }

/-- `RENDER n, c, sr` (R159). -/
def execRender (n c : Word) (sr : F32) (s : State) : Host.Outcome State Fault Refusal :=
  if !Fp.finite sr then .next (reject .badValue s)
  else
    let o := renderOperands s.cfg n c sr
    let x := renderRun s o
    .next (answer (raisedIf o.clamped .clamped ++ raisedIf x.silenced .silenced) (BitVec.ofNat 32 o.frames)
      { s with voices := compact x.voices, out := x.out, rnd := x.rnd })

end Sys2Proof.Machine
end

