-- ==== Sys2Proof/Machine/Dispatch.lean ====
section
/-! DEFINITION. The dispatch: one meaning for each command (30_encoding.md R58). -/

namespace Sys2Proof.Machine

def exec (i : Instr) (s : State) : Host.Outcome State Fault Refusal :=
  match i with
  | .noteOn f => Sys2Proof.Machine.execNoteOn f s
  | .noteOff id => Sys2Proof.Machine.execNoteOff id s
  | .noteOffFreq f => Sys2Proof.Machine.execNoteOffFreq f s
  | .setp sel v => Sys2Proof.Machine.execSetp sel v s
  | .getp sel => Sys2Proof.Machine.execGetp sel s
  | .render n c sr => Sys2Proof.Machine.execRender n c sr s

end Sys2Proof.Machine
end

