-- ==== Sys2Proof/Machine/Step.lean ====
section
/-! DEFINITION. One step: one command of the `cmd` stream, executed to completion and answered (20_memory.md R46,
60_exceptions.md R175). -/

namespace Sys2Proof.Machine

/-- One step. While `rst` is asserted the engine is in its reset state and executes nothing (70_reset_and_hazards.md
R195). Otherwise, while response words wait, no command starts, and the host takes one if it is ready (R207); with no whole
command the engine accepts the next word offered, or waits and keeps all state (60_exceptions.md R191); an illegal header is
answered `BAD_CMD` (30_encoding.md R67); an instruction is executed, its last words being accepted in the same step. -/
def step (s : State) : Host.Outcome State Fault Refusal :=
  if s.rst then .next (resetEngine s)
  else if stalled s then .next (deliver s)
  else match fetch s with
    | .incomplete => .next (accept s)
    | .rejected _ header rest => .next (answerBadCmd header (consume rest s))
    | .instr i rest => exec i (consume rest s)

/-- The state in which the next step executes the command whose bits are `w`: its words are offered first on `cmd`, no
part of another command has been accepted, `rst` is released, and the host has taken the response words that were pending
(log 12). -/
def State.withFetchWord (s : State) (nbits w : Nat) : State :=
  { s with cmd := tableWords nbits w ++ s.cmd, held := [], rsp := [], taken := s.taken ++ s.rsp, rst := false }

end Sys2Proof.Machine
end

