-- ==== Sys2Proof/Safety.lean ====
section
/-! DEFINITION. What a safe state and a safe run are, in the terms the statements use: legal parameters, legal register
contents, the ranges of a voice's fields, and the form of `OUT` (the "Invariant" sentences of the spec). -/

namespace Sys2Proof.Machine

open Sys2Proof.Config (Params NumFormat)

/-- In [0, 1], and a number. -/
def inUnit (x : F32) : Bool := Fp.le Fp.zero x && Fp.le x Fp.one

/-- A sample: in [−1, 1], and a number (20_memory.md R43). -/
def inSample (x : F32) : Bool := Fp.le Fp.negOne x && Fp.le x Fp.one

/-- Finite and at least `lo`. -/
def atLeastFinite (lo x : F32) : Bool := Fp.finite x && Fp.le lo x

/-- Finite and above 0. -/
def positive (x : F32) : Bool := Fp.finite x && Fp.lt Fp.zero x

/-- A word is the binary32 number nearest to the real number `num / den` (in units of 2^-149), ties to an even fraction (R11). -/
def isNearestEven (r : F32) (num : Int) (den : Nat) : Prop :=
  ∀ w, Fp.finite w = true →
    (Fp.value r * den - num).natAbs ≤ (Fp.value w * den - num).natAbs
    ∧ ((Fp.value r * den - num).natAbs = (Fp.value w * den - num).natAbs → Fp.value w = Fp.value r ∨ Fp.mag r % 2 = 0)

/-- A word is `num / den` rounded once to nearest even (R11): the nearest number, or the infinity of its sign where it is beyond
every finite number of the format. -/
def roundsTo (r : F32) (num : Int) (den : Nat) : Prop :=
  (Fp.finite r = true → isNearestEven r num den)
  ∧ (Fp.finite r = false → Fp.isInf r = true ∧ Fp.isNeg r = decide (num < 0)
    ∧ ∀ w, Fp.finite w = true → (Fp.value w).natAbs * den < num.natAbs)

/-- Parameters an implementation can have (00_scope.md R6): at least one voice and one channel, ids of 1 to 32 bits,
positive floors and a tolerance that is a number not below 0. -/
def paramsLegal (c : Params) : Bool :=
  decide (1 ≤ c.nvoices) && decide (c.nvoices < 2 ^ 32) && decide (1 ≤ c.idw) && decide (c.idw ≤ 32)
    && c.freqTol.finite && Val.zero.le c.freqTol && positive c.tMin && positive c.srMin && positive c.grainRateMin
    && decide (1 ≤ c.maxCh)

/-- What a register can hold, as the "legal" column of R14 writes it. -/
inductive RegLegal where
  /-- A `u32` code at most `max`. -/
  | code (max : Nat)
  /-- A finite `f32` between the bounds given. -/
  | range (lo hi : Option F32)
  /-- Not written by `SETP` as a timbre register: the status registers. -/
  | notTimbre
deriving DecidableEq, Repr

/-- The "legal" column of R14. -/
def regLegal (c : Params) : Reg → RegLegal
  | .oscA | .oscB | .lfoShape => .code 3
  | .fltMode => .code 2
  | .grainEnable => .code 1
  | .oscMix | .envSustain | .fltResonance | .lfoDepth | .grainJitter => .range (some Fp.zero) (some Fp.one)
  | .envAttack | .envDecay | .envRelease => .range (some c.tMin) none
  | .lfoRate => .range (some Fp.zero) none
  | .distDrive => .range (some Fp.one) none
  | .grainRate => .range (some c.grainRateMin) none
  | .fltCutoff | .grainDuty => .range none none
  | .status | .activeCount | .nextId | .nvoices => .notTimbre

/-- A finite value brought between bounds: the bound it passes, or itself. -/
def boundedBy (lo hi : Option F32) (v : F32) : F32 :=
  match lo, hi with
  | some l, some h => if Fp.lt v l then l else if Fp.lt h v then h else v
  | some l, none => if Fp.lt v l then l else v
  | none, some h => if Fp.lt h v then h else v
  | none, none => v

/-- A timbre register file whose every `f32` register is in its legal range (R14). -/
def timbreLegal (c : Params) (t : Timbre) : Bool :=
  inUnit t.oscMix && atLeastFinite c.tMin t.envAttack && atLeastFinite c.tMin t.envDecay && inUnit t.envSustain
    && atLeastFinite c.tMin t.envRelease && Fp.finite t.fltCutoff && inUnit t.fltResonance
    && atLeastFinite Fp.zero t.lfoRate && inUnit t.lfoDepth && atLeastFinite Fp.one t.distDrive
    && atLeastFinite c.grainRateMin t.grainRate && Fp.finite t.grainDuty && inUnit t.grainJitter

/-- An envelope, in the reference format, whose amplitudes are in [0, 1] and whose elapsed time is a finite number not below 0
(R30). -/
def envLegal (e : Env) : Bool :=
  e.amp.wordIs inUnit && e.start.wordIs inUnit && e.elapsed.val.wordIs (atLeastFinite Fp.zero)

/-- A grain, in the reference format, whose timer and length are numbers not below 0 (R32). -/
def grainLegal (g : Grain) : Bool := g.timer.val.wordIs (Fp.le Fp.zero) && g.len.val.wordIs (Fp.le Fp.zero)

/-- A grain as R32 writes its ranges, in the reference format: timer not below 0, length above 0, open time not below 0. -/
def grainProper (g : Grain) : Bool :=
  g.timer.val.wordIs (Fp.le Fp.zero) && g.len.val.wordIs (Fp.lt Fp.zero) && g.duty.val.wordIs (Fp.le Fp.zero)

/-- The timbre registers and every voice's latched copy are legal (R14, R29). -/
def timbresLegal (s : State) : Bool := timbreLegal s.cfg s.timbre && s.voices.all fun v => timbreLegal s.cfg v.t

/-- Every voice's envelope is legal (R30). -/
def envsLegal (s : State) : Bool := s.voices.all fun v => envLegal v.env

/-- Every voice's grain is legal (R32). -/
def grainsLegal (s : State) : Bool := s.voices.all fun v => grainLegal v.gr

/-- Every voice's grain is in the ranges of R32. -/
def grainsProper (s : State) : Bool := s.voices.all fun v => grainProper v.gr

/-- Grain rates that no jitter carries out of the format: the reciprocal of the floor and twice every rate are finite. Beyond
them a rounded length can be infinite or 0. -/
def grainRatesInFormat (s : State) : Bool :=
  Fp.finite (Fp.div Fp.one s.cfg.grainRateMin) && Fp.finite (Fp.mul Fp.two s.timbre.grainRate)
    && s.voices.all fun v => Fp.finite (Fp.mul Fp.two v.t.grainRate)

/-- The ids: `NEXT_ID` is not 0; every id of the pool is not 0, has been handed out and is distinct (R23, R27). -/
def idsFresh (s : State) : Prop :=
  s.nextId ≠ 0 ∧ (∀ v ∈ s.voices, v.id ≠ 0 ∧ v.id.toNat < s.nextId.toNat) ∧ (s.voices.map (·.id)).Nodup

/-- `OUT` is in its canonical form and lists no byte outside it (20_memory.md R40). -/
def outInside (s : State) : Prop := memoryWf s.out = true ∧ ∀ a, 4 * s.cfg.outCap ≤ a → readByte s.out a = none

/-- `OUT` holds whole words, each a sample in [−1, 1] (R43). -/
def outSamples (m : Memory) : Prop :=
  ∀ a b, readByte m a = some b → ∃ w, readWord m (a / 4) = some w ∧ inSample w = true

/-- Bits 31:9 of `STATUS` read as 0 (R21). -/
def statusLegal (s : State) : Prop := s.status &&& ~~~statusMask = 0

/-- The pool is within its slots (R25, 46_commands.md R165). -/
def poolBounded (s : State) : Prop := s.voices.length ≤ s.cfg.nvoices

/-- `n` ticks of an envelope. -/
def envTicks (num : NumFormat) (t : Timbre) (dt : Tracked) : Nat → Env → Env
  | 0, e => e
  | n + 1, e => envTick num t dt (envTicks num t dt n e)

/-- The machine is ready to start a command: not in reset, and the last response taken (R195, R207). -/
def canStart (s : State) : Bool := !s.rst && s.rsp == []

/-- The state a command starts from: its words are gone from the stream, `rest` being left, and the model's record of R200
says whether it is a `RENDER`. -/
def started (s : State) (rest : List Word) : State :=
  { s with held := [], cmd := rest, rendering := (s.held ++ s.cmd).head? == some 0x06000000 }

/-- Two states that differ at most in what the `rnd` port supplies and has supplied. -/
def sameButDraws (s t : State) : Prop := { s with rnd := t.rnd } = t

end Sys2Proof.Machine
end

