-- ==== Sys2Proof/Certificates/Slice0/Obligations.lean ====
section
/-! DEFINITION. The statements about the machine, from the numbered rules of spec/. Every statement holds for every value
of the parameters in `cfg`, the number format `NUM` among them (log 1), and of the free values unless it says otherwise; one
that rests on the arithmetic of the reference format of 00_scope.md R11 has that format as a premise. `n.load w` is the number
of the format that an operand or register word denotes, the word itself in the reference format. A `Tracked` number is a stored
one with the model's record of its value over the reals (log 7). -/

open Sys2Proof Sys2Proof.Machine

/-! ### Reset -/

/-- R196: every register after reset, the empty pool, and an `OUT` of which no byte has a value. -/
def Obligations.ResetLeavesTheListedState : Prop :=
  readReg State.reset .oscA = 0 ∧ readReg State.reset .oscB = 0 ∧ readReg State.reset .oscMix = 0
  ∧ readReg State.reset .envAttack = 0x3C23D70A ∧ readReg State.reset .envDecay = 0x3DCCCCCD
  ∧ readReg State.reset .envSustain = 0x3F333333 ∧ readReg State.reset .envRelease = 0x3E4CCCCD
  ∧ readReg State.reset .fltCutoff = 0x447A0000 ∧ readReg State.reset .fltResonance = 0
  ∧ readReg State.reset .fltMode = 0 ∧ readReg State.reset .lfoShape = 0 ∧ readReg State.reset .lfoRate = 0
  ∧ readReg State.reset .lfoDepth = 0 ∧ readReg State.reset .distDrive = 0x3F800000
  ∧ readReg State.reset .grainEnable = 0 ∧ readReg State.reset .grainRate = 0x41A00000
  ∧ readReg State.reset .grainDuty = 0x3F000000 ∧ readReg State.reset .grainJitter = 0
  ∧ readReg State.reset .status = 0 ∧ readReg State.reset .nextId = 1 ∧ readReg State.reset .activeCount = 0
  ∧ readReg State.reset .nvoices = BitVec.ofNat 32 State.reset.cfg.nvoices
  ∧ State.reset.voices = [] ∧ ∀ a, readByte State.reset.out a = none

/-- R195: while `rst` is asserted a step executes and sends nothing and leaves the registers, the pool and `OUT` of R196, with
the accepted words of a command and the rest of a response gone; once it is released the engine waits for the first command
word. That the words still offered, the host's lines and record and the configuration stay is the model's choice (log 11). -/
def Obligations.AssertedResetHoldsTheResetState : Prop :=
  ∀ s : State, s.rst = true → ∃ t, step s = .next t
    ∧ t = { State.reset with
        cfg := s.cfg, cmd := s.cmd, taken := s.taken, rspReady := s.rspReady, rst := true, rnd := s.rnd }
    ∧ step { t with rst := false, cmd := [] } = .next { t with rst := false, cmd := [] }

/-! ### One step -/

/-- R46: a step on a stream whose head decodes to an instruction executes that instruction, from the state in which its
words are taken from the stream (the ports as the model holds them: log 9, log 10, log 17). -/
def Obligations.StepExecutesTheDecodedInstruction : Prop :=
  ∀ (s : State) (i : Instr) (rest : List Word), canStart s = true → decode (s.held ++ s.cmd) = .instr i rest →
    step s = exec i (started s rest)

/-- R67: a reserved `op` is one word long; a defined `op` whose `zero` is not 0, or whose `idx` is not 0 in a command
without a register, consumes its operands. Both are answered `BAD_CMD` with the header as value, set the sticky bit (R65,
R177) and change nothing else. The next state is built on the ports as the model holds them (log 9, log 10). -/
def Obligations.StepAnswersAnIllegalHeader : Prop :=
  ∀ (s : State) (h : Word) (ws : List Word), canStart s = true → s.held ++ s.cmd = h :: ws →
    (((headerOp h).toNat = 0 ∨ 7 ≤ (headerOp h).toNat) →
      step s = .next { started s ws with status := s.status ||| 0x20, rsp := [0x80, h] })
    ∧ (1 ≤ (headerOp h).toNat → (headerOp h).toNat ≤ 6 →
      (headerZero h ≠ 0 ∨ (headerIdx h ≠ 0 ∧ headerOp h ≠ 4 ∧ headerOp h ≠ 5)) →
      ∀ ops rest, ws = ops ++ rest →
        ops.length = (if headerOp h = 5 then 0 else if headerOp h = 6 then 3 else 1) →
        step s = .next { started s rest with status := s.status ||| 0x20, rsp := [0x80, h] })

/-- R8, R207, R191: while response words wait no command starts: the host takes one of them if it is ready, else nothing
changes. With no whole command in the stream a step accepts the next word offered, or changes nothing (the model's ports:
log 9, log 10). -/
def Obligations.StepWaitsForHostOrWords : Prop :=
  (∀ s : State, s.rst = false → s.rspReady = false → s.rsp ≠ [] → step s = .next s)
  ∧ (∀ (s : State) (w : Word) (ws : List Word), s.rst = false → s.rspReady = true → s.rsp = w :: ws →
      step s = .next { s with rsp := ws, taken := s.taken ++ [w] })
  ∧ (∀ s : State, canStart s = true → decode s.held = .incomplete → s.cmd = [] → step s = .next s)
  ∧ (∀ (s : State) (w : Word) (ws : List Word), canStart s = true → decode (s.held ++ s.cmd) = .incomplete →
      s.cmd = w :: ws → step s = .next { s with held := s.held ++ [w], cmd := ws })

/-- R175: no command and no internal condition stops the engine: every state has a next state. -/
def Obligations.StepAlwaysHasANextState : Prop := ∀ s : State, ∃ t, step s = .next t

/-- R64, R65: every command answers exactly two words after those pending, the first a status code; a rejected command's
value is 0. -/
def Obligations.EveryCommandAnswersOnce : Prop :=
  ∀ (i : Instr) (s : State), ∃ t st v, exec i s = .next t ∧ t.rsp = s.rsp ++ [st, v]
    ∧ st ∈ ([0, 1, 2, 3, 4, 5, 0x81, 0x82, 0x83] : List Word) ∧ (0x80 ≤ st.toNat → v = 0)

/-- R65: a command whose status code is 0x80 or above changed nothing but `STATUS` (and sent its response). -/
def Obligations.RejectedCommandChangesOnlyStatus : Prop :=
  ∀ (i : Instr) (s t : State) (st v : Word), exec i s = .next t → t.rsp = s.rsp ++ [st, v] → 0x80 ≤ st.toNat →
    t = { s with status := t.status, rsp := t.rsp }

/-- R21: a bit of `STATUS` that is set stays set through every command but `SETP STATUS`. -/
def Obligations.StatusBitsAreSticky : Prop :=
  ∀ (i : Instr) (s t : State), exec i s = .next t → (∀ m, i ≠ .setp (.reg .status) m) →
    s.status &&& t.status = s.status

/-- R14, R23, R26, R40, R132: only `SETP` writes a timbre register, only `NOTE_ON` `NEXT_ID`, only `RENDER` `OUT`, only
`NOTE_ON` and `RENDER` draw; `SETP` and `GETP` touch no voice. That no command changes the parameters, the streams, the
host's lines and the model's records, the last clause, is the model's (log 8, log 9, log 10, log 17). -/
def Obligations.EachStateHasItsWriters : Prop :=
  ∀ (i : Instr) (s t : State), exec i s = .next t →
    ((∀ sel v, i ≠ .setp sel v) → t.timbre = s.timbre)
    ∧ ((∀ f, i ≠ .noteOn f) → t.nextId = s.nextId)
    ∧ ((∀ n c sr, i ≠ .render n c sr) → t.out = s.out)
    ∧ ((∀ f, i ≠ .noteOn f) → (∀ n c sr, i ≠ .render n c sr) → t.rnd = s.rnd)
    ∧ ((∀ sel v, i = .setp sel v → t.voices = s.voices) ∧ ∀ sel, i = .getp sel → t.voices = s.voices)
    ∧ t.cfg = s.cfg ∧ t.cmd = s.cmd ∧ t.held = s.held ∧ t.taken = s.taken ∧ t.rspReady = s.rspReady ∧ t.rst = s.rst
    ∧ t.rendering = s.rendering

/-! ### Encoding -/

/-- R59 to R63: the words of every command, and the examples those rules give decode to their commands; R14, R21 to R24: the
number of every register, in both directions. -/
def Obligations.EncodingsOfTheSixCommands : Prop :=
  (∀ f, encode (.noteOn f) = [0x01000000, f]) ∧ (∀ id, encode (.noteOff id) = [0x02000000, id])
  ∧ (∀ f, encode (.noteOffFreq f) = [0x03000000, f])
  ∧ (∀ r v, encode (.setp (.reg r) v) = [0x04000000 ||| ((idxOfReg r).setWidth 32 <<< 16), v])
  ∧ (∀ r, encode (.getp (.reg r)) = [0x05000000 ||| ((idxOfReg r).setWidth 32 <<< 16)])
  ∧ (∀ n c sr, encode (.render n c sr) = [0x06000000, n, c, sr])
  ∧ (∀ p ∈ ([(.oscA, 0x00), (.oscB, 0x01), (.oscMix, 0x02), (.envAttack, 0x03), (.envDecay, 0x04), (.envSustain, 0x05),
        (.envRelease, 0x06), (.fltCutoff, 0x07), (.fltResonance, 0x08), (.fltMode, 0x09), (.lfoShape, 0x0A),
        (.lfoRate, 0x0B), (.lfoDepth, 0x0C), (.distDrive, 0x0D), (.grainEnable, 0x0E), (.grainRate, 0x0F),
        (.grainDuty, 0x10), (.grainJitter, 0x11), (.status, 0x20), (.activeCount, 0x21), (.nextId, 0x22),
        (.nvoices, 0x23)] : List (Reg × BitVec 8)), idxOfReg p.1 = p.2 ∧ selOfIdx p.2 = .reg p.1)
  ∧ decode [0x01000000, 0x43DC0000] = .instr (.noteOn 0x43DC0000) []
  ∧ decode [0x02000000, 0x00000003] = .instr (.noteOff 3) []
  ∧ decode [0x03000000, 0x43DC0000] = .instr (.noteOffFreq 0x43DC0000) []
  ∧ decode [0x04030000, 0x3C23D70A] = .instr (.setp (.reg .envAttack) 0x3C23D70A) []
  ∧ decode [0x04000000, 0x00000001] = .instr (.setp (.reg .oscA) 1) []
  ∧ decode [0x05210000] = .instr (.getp (.reg .activeCount)) []
  ∧ decode [0x06000000, 0x00000100, 0x00000002, 0x472C4400] = .instr (.render 256 2 0x472C4400) []

/-- Decode and encode agree: the words of every well-formed instruction decode to it, whatever follows. -/
def Obligations.DecodeOfEncodeIsTheInstruction : Prop :=
  ∀ (i : Instr) (rest : List Word), i.wf = true → decode (encode i ++ rest) = .instr i rest

/-- Each word has one meaning: whatever decodes to an instruction is its encoding, and the instruction is well-formed. -/
def Obligations.OnlyEncodingsDecode : Prop :=
  ∀ (i : Instr) (ws rest : List Word), decode ws = .instr i rest → i.wf = true ∧ ws = encode i ++ rest

/-- R66: the length of a command is found from `op` alone; the operands are read even when the header is illegal. -/
def Obligations.DecoderFindsTheLength : Prop :=
  ∀ (h : Word) (ws : List Word) (k : Nat),
    k = (if 1 ≤ (headerOp h).toNat ∧ (headerOp h).toNat ≤ 4 then 1 else if (headerOp h).toNat = 6 then 3 else 0) →
    (ws.length < k → decode (h :: ws) = .incomplete)
    ∧ (k ≤ ws.length → (∃ i, decode (h :: ws) = .instr i (ws.drop k)) ∨
        ∃ why, decode (h :: ws) = .rejected why h (ws.drop k))

/-! ### NOTE_ON, NOTE_OFF, NOTE_OFF_FREQ -/

/-- R150: `NOTE_ON` of an infinity or a NaN is rejected, and no id is consumed. -/
def Obligations.NoteOnRejectsNonFinite : Prop :=
  ∀ (f : F32) (s : State), Fp.finite f = false →
    exec (.noteOn f) s = .next { s with status := s.status ||| 0x40, rsp := s.rsp ++ [0x83, 0] }

/-- R150, R151, R152, R104, R116, R133, R135: `NOTE_ON` with a free slot takes the next id, appends the newest voice with
every field written, latches the timbre and takes two draws; the whole next state. The grain's length and open time carry
the model's record of their real values (log 7), and the draws are the model's `rnd` port (log 13). -/
def Obligations.NoteOnCreatesTheNewestVoice : Prop :=
  ∀ (f : F32) (s : State) (n : Config.NumFormat), n = s.cfg.num → Fp.finite f = true →
    s.voices.length < s.cfg.nvoices → s.cfg.idw ≤ 32 →
    ∃ (u1 u2 : F32) (len duty : Tracked) (r1 r2 : Rnd), draw s.rnd = (u1, r1) ∧ draw r1 = (u2, r2)
      ∧ len.val = n.div .one (Val.atLeast
          (n.mul (n.load s.timbre.grainRate) (n.add .one (n.mul (n.load s.timbre.grainJitter) (n.load u1))))
          (n.load s.cfg.grainRateMin))
      ∧ duty.val = n.mul (Val.clamp01
          (n.mul (n.load s.timbre.grainDuty) (n.add .one (n.mul (n.load s.timbre.grainJitter) (n.load u2))))) len.val
      ∧ len = .div n .one (.atLeast (jittered n s.timbre.grainRate s.timbre.grainJitter u1)
          (.load n s.cfg.grainRateMin))
      ∧ duty = .mul n (.clamp01 (jittered n s.timbre.grainDuty s.timbre.grainJitter u2)) len
      ∧ exec (.noteOn f) s = .next { s with
          voices := s.voices ++ [{
            id := s.nextId, freq := f, phase := .zero, t := s.timbre
            env := { stage := .attack, amp := .zero, start := .zero, elapsed := .ofWord 0 }
            flt := { tap0 := ⟨.zero, .zero⟩, tap1 := ⟨.zero, .zero⟩, tap2 := ⟨.zero, .zero⟩, tap3 := ⟨.zero, .zero⟩,
                     lfo := .zero }
            gr := { timer := .ofWord 0, len := len, duty := duty } }]
          nextId := if s.nextId.toNat = 2 ^ s.cfg.idw - 1 then 1 else s.nextId + 1
          rnd := r2
          status := if s.nextId.toNat = 2 ^ s.cfg.idw - 1 then s.status ||| 0x100 else s.status
          rsp := s.rsp ++ [if s.nextId.toNat = 2 ^ s.cfg.idw - 1 then 5 else 0, s.nextId] }

/-- R150, R153: `NOTE_ON` on a full pool retargets slot 0: frequency, fresh id, and the envelope restarts its attack from
its current amplitude; nothing else in the slot changes; the whole next state. -/
def Obligations.NoteOnStealsSlotZero : Prop :=
  ∀ (f : F32) (s : State) (v : Voice) (vs : List Voice), Fp.finite f = true → s.voices = v :: vs →
    s.cfg.nvoices ≤ s.voices.length → s.cfg.idw ≤ 32 →
    exec (.noteOn f) s = .next { s with
      voices := { v with
        freq := f, id := s.nextId
        env := { stage := .attack, amp := v.env.amp, start := v.env.amp, elapsed := .ofWord 0 } } :: vs
      nextId := if s.nextId.toNat = 2 ^ s.cfg.idw - 1 then 1 else s.nextId + 1
      status := (if s.nextId.toNat = 2 ^ s.cfg.idw - 1 then s.status ||| 0x100 else s.status) ||| 0x10
      rsp := s.rsp ++ [if s.nextId.toNat = 2 ^ s.cfg.idw - 1 then 5 else 4, s.nextId] }

/-- R154: `NOTE_OFF` releases the voice with the id from its current amplitude and answers 1; where no voice has the id it
is a no-op that answers `MISS`. -/
def Obligations.NoteOffReleasesById : Prop :=
  (∀ (id : Word) (s : State) (pre post : List Voice) (v : Voice), s.voices = pre ++ v :: post → v.id = id →
    (∀ u ∈ pre, u.id ≠ id) →
    exec (.noteOff id) s = .next { s with
      voices := pre ++ { v with
        env := { stage := .release, amp := v.env.amp, start := v.env.amp, elapsed := .ofWord 0 } } :: post
      rsp := s.rsp ++ [0, 1] })
  ∧ (∀ (id : Word) (s : State), (∀ v ∈ s.voices, v.id ≠ id) →
    exec (.noteOff id) s = .next { s with status := s.status ||| 0x4, rsp := s.rsp ++ [1, 0] })

/-- R155: `NOTE_OFF_FREQ` rejects a non-finite frequency; releases every voice with `|V[k].freq − f| ≤ FREQ_TOL` and answers
their number; answers `MISS` where there is none. That the stored numbers decide the test also where its sides are equal over
the reals, of which R208 says that it can go either way, is the model's reading (log 7). -/
def Obligations.NoteOffFreqReleasesEveryMatch : Prop :=
  ∀ (f : F32) (s : State) (n : Config.NumFormat) (hit : Voice → Bool), n = s.cfg.num →
    (∀ v, hit v = (n.sub (n.load v.freq) (n.load f)).abs.le s.cfg.freqTol) →
    (Fp.finite f = false →
      exec (.noteOffFreq f) s = .next { s with status := s.status ||| 0x40, rsp := s.rsp ++ [0x83, 0] })
    ∧ (Fp.finite f = true → (∀ v ∈ s.voices, hit v = false) →
      exec (.noteOffFreq f) s = .next { s with status := s.status ||| 0x4, rsp := s.rsp ++ [1, 0] })
    ∧ (Fp.finite f = true → (∃ v ∈ s.voices, hit v = true) →
      exec (.noteOffFreq f) s = .next { s with
        voices := s.voices.map fun v =>
          if hit v = true then
            { v with env := { stage := .release, amp := v.env.amp, start := v.env.amp, elapsed := .ofWord 0 } }
          else v
        rsp := s.rsp ++ [0, BitVec.ofNat 32 (s.voices.filter hit).length] })

/-- "Unrelated voices remain active" (46_commands.md section 5): a voice that a note-off does not match is unchanged in its
slot; `SETP` changes no voice. -/
def Obligations.UnmatchedVoicesAreUnchanged : Prop :=
  (∀ (id : Word) (s t : State) (k : Nat) (v : Voice), exec (.noteOff id) s = .next t → s.voices[k]? = some v →
    v.id ≠ id → t.voices[k]? = some v)
  ∧ (∀ (f : F32) (s t : State) (k : Nat) (v : Voice), exec (.noteOffFreq f) s = .next t → s.voices[k]? = some v →
    freqMatches s.cfg f v = false → t.voices[k]? = some v)
  ∧ (∀ (sel : RegSel) (w : Word) (s t : State), exec (.setp sel w) s = .next t → t.voices = s.voices)

/-- R29: the latched timbre of a slot is written only when `NOTE_ON` creates the voice: every other command, and a
retarget, leaves the copies of the voices there as they are; `RENDER` only removes whole voices. -/
def Obligations.LatchedTimbreIsNeverRewritten : Prop :=
  ∀ (i : Instr) (s t : State), exec i s = .next t →
    ((∀ n c sr, i ≠ .render n c sr) → (s.voices.map (·.t)) <+: (t.voices.map (·.t)))
    ∧ ((∀ n c sr, i ≠ .render n c sr) → (∀ f, i ≠ .noteOn f) → t.voices.map (·.t) = s.voices.map (·.t))
    ∧ ((∀ f, i = .noteOn f → t.voices.map (·.t) = s.voices.map (·.t)
        ∨ t.voices.map (·.t) = s.voices.map (·.t) ++ [s.timbre]))
    ∧ (∀ n c sr, i = .render n c sr →
        (t.voices.map fun v => (v.id, v.freq, v.t)).Sublist (s.voices.map fun v => (v.id, v.freq, v.t)))

/-! ### SETP and GETP -/

/-- R68, R156: `SETP` of a reserved or read-only register is rejected with `BAD_REG`. -/
def Obligations.SetpRejectsBadRegister : Prop :=
  ∀ (sel : RegSel) (v : Word) (s : State),
    ((∃ b, sel = .reserved b) ∨ sel = .reg .activeCount ∨ sel = .reg .nextId ∨ sel = .reg .nvoices) →
    exec (.setp sel v) s = .next { s with status := s.status ||| 0x80, rsp := s.rsp ++ [0x81, 0] }

/-- R156, R14: `SETP` of a code register stores a legal code, answers it, and changes no other register and nothing else;
an unknown code is rejected with `BAD_KIND`. The codes mean: 0 SINE, 1 SQUARE, 2 SAW, 3 TRIANGLE; 0 LP, 1 HP, 2 BP; 0 no
gate, 1 gate attached. -/
def Obligations.SetpWritesCodeRegisters : Prop :=
  (∀ (r : Reg) (v : Word) (s : State) (max : Nat), regLegal s.cfg r = .code max →
    (v.toNat ≤ max → ∃ t, exec (.setp (.reg r) v) s = .next t ∧ readReg t r = v
      ∧ (∀ r', r' ≠ r → readReg t r' = readReg s r')
      ∧ t = { s with timbre := t.timbre, rsp := s.rsp ++ [0, v] })
    ∧ (max < v.toNat →
      exec (.setp (.reg r) v) s = .next { s with status := s.status ||| 0x2, rsp := s.rsp ++ [0x82, 0] }))
  ∧ (∀ s : State, ∀ p ∈ ([(0, .sine), (1, .square), (2, .saw), (3, .triangle)] : List (Word × Wave)),
      exec (.setp (.reg .oscA) p.1) s =
        .next { s with timbre := { s.timbre with oscA := p.2 }, rsp := s.rsp ++ [0, p.1] }
      ∧ exec (.setp (.reg .oscB) p.1) s =
        .next { s with timbre := { s.timbre with oscB := p.2 }, rsp := s.rsp ++ [0, p.1] }
      ∧ exec (.setp (.reg .lfoShape) p.1) s =
        .next { s with timbre := { s.timbre with lfoShape := p.2 }, rsp := s.rsp ++ [0, p.1] })
  ∧ (∀ s : State, ∀ p ∈ ([(0, .lp), (1, .hp), (2, .bp)] : List (Word × Mode)),
      exec (.setp (.reg .fltMode) p.1) s =
        .next { s with timbre := { s.timbre with fltMode := p.2 }, rsp := s.rsp ++ [0, p.1] })
  ∧ (∀ s : State, ∀ p ∈ ([(0, false), (1, true)] : List (Word × Bool)),
      exec (.setp (.reg .grainEnable) p.1) s =
        .next { s with timbre := { s.timbre with grainEnable := p.2 }, rsp := s.rsp ++ [0, p.1] })

/-- R156, R14: `SETP` of an `f32` register stores the value brought into the register's legal range and answers it,
`CLAMPED` when it differs from the value written, and changes no other register and nothing else; a non-finite value is
rejected with `BAD_VALUE`. -/
def Obligations.SetpWritesRealRegisters : Prop :=
  ∀ (r : Reg) (v : Word) (s : State) (lo hi : Option F32), regLegal s.cfg r = .range lo hi →
    (Fp.finite v = true → ∃ t, exec (.setp (.reg r) v) s = .next t ∧ readReg t r = boundedBy lo hi v
      ∧ (∀ r', r' ≠ r → r' ≠ .status → readReg t r' = readReg s r')
      ∧ t = { s with
          timbre := t.timbre
          status := if boundedBy lo hi v = v then s.status else s.status ||| 0x1
          rsp := s.rsp ++ [if boundedBy lo hi v = v then 0 else 2, boundedBy lo hi v] })
    ∧ (Fp.finite v = false →
      exec (.setp (.reg r) v) s = .next { s with status := s.status ||| 0x40, rsp := s.rsp ++ [0x83, 0] })

/-- R157: `SETP STATUS, m` clears the bits that are 1 in `m`, raises nothing and answers the new contents. -/
def Obligations.SetpStatusClearsBits : Prop :=
  ∀ (m : Word) (s : State), exec (.setp (.reg .status) m) s =
    .next { s with status := s.status &&& ~~~m, rsp := s.rsp ++ [0, s.status &&& ~~~m] }

/-- R158, R22 to R24: `GETP` answers the register's contents and changes nothing; a reserved index is rejected with
`BAD_REG`; the status registers read as `STATUS`, `VCOUNT`, `NEXT_ID` and the parameter. -/
def Obligations.GetpReadsTheRegister : Prop :=
  (∀ (r : Reg) (s : State), exec (.getp (.reg r)) s = .next { s with rsp := s.rsp ++ [0, readReg s r] })
  ∧ (∀ (b : BitVec 8) (s : State),
      exec (.getp (.reserved b)) s = .next { s with status := s.status ||| 0x80, rsp := s.rsp ++ [0x81, 0] })
  ∧ (∀ s : State, readReg s .status = s.status ∧ readReg s .activeCount = BitVec.ofNat 32 s.voices.length
      ∧ readReg s .nextId = s.nextId ∧ readReg s .nvoices = BitVec.ofNat 32 s.cfg.nvoices)

/-- 95_test_vectors.md L1-8: a `SETP` of a legal value followed by a `GETP` of the register answers the same word twice. -/
def Obligations.SetpThenGetpAnswersTheSameWord : Prop :=
  ∀ (r : Reg) (v : Word) (s : State),
    ((∃ max, regLegal s.cfg r = .code max ∧ v.toNat ≤ max) ∨
      ∃ lo hi, regLegal s.cfg r = .range lo hi ∧ Fp.finite v = true ∧ boundedBy lo hi v = v) →
    ∃ t u, exec (.setp (.reg r) v) s = .next t ∧ exec (.getp (.reg r)) t = .next u
      ∧ u.rsp = s.rsp ++ [0, v, 0, v] ∧ u.status = s.status

/-! ### RENDER -/

/-- R159: `RENDER` with a sample rate that is an infinity or a NaN is rejected: no frame, no voice advances, `OUT` and the
pool are unchanged. -/
def Obligations.RenderRejectsNonFiniteRate : Prop :=
  ∀ (n c : Word) (sr : F32) (s : State), Fp.finite sr = false →
    exec (.render n c sr) s = .next { s with status := s.status ||| 0x40, rsp := s.rsp ++ [0x83, 0] }

/-- R159 to R162: `RENDER` with a finite sample rate completes: the operands after their clamps, the frames, the
compaction, the statuses and the answer; the whole next state. -/
def Obligations.RenderCompletes : Prop :=
  ∀ (n c : Word) (sr : F32) (s : State) (rate : F32) (ch fr : Nat) (x : RenderRun), Fp.finite sr = true →
    rate = (if Fp.lt sr s.cfg.srMin = true then s.cfg.srMin else sr) →
    ch = (if c.toNat < 1 then 1 else if s.cfg.maxCh < c.toNat then s.cfg.maxCh else c.toNat) →
    fr = (if s.cfg.outCap / ch < n.toNat then s.cfg.outCap / ch else n.toNat) →
    x = renderFrames s.cfg rate ch fr { voices := s.voices, out := s.out, rnd := s.rnd, silenced := false } →
    exec (.render n c sr) s = .next { s with
      voices := x.voices.filter fun v => v.env.stage != .idle
      out := x.out
      rnd := x.rnd
      status := (if Fp.lt sr s.cfg.srMin = true ∨ ch ≠ c.toNat ∨ fr ≠ n.toNat then s.status ||| 0x1 else s.status)
        ||| (if x.silenced = true then 0x8 else 0)
      rsp := s.rsp ++ [if x.silenced = true then 3
        else if Fp.lt sr s.cfg.srMin = true ∨ ch ≠ c.toNat ∨ fr ≠ n.toNat then 2 else 0, BitVec.ofNat 32 fr] }

/-- R42, R43: a `RENDER` of `N'` frames and `C'` channels writes words 0 to `N'·C' − 1`, one sample of [−1, 1] per frame on
all its channels at `n·C' + c`, and every byte above keeps its old contents. -/
def Obligations.RenderWritesInterleavedFrames : Prop :=
  ∀ (n c : Word) (sr : F32) (s : State) (o : RenderOperands), Fp.finite sr = true →
    o = renderOperands s.cfg n c sr →
    ∃ t, exec (.render n c sr) s = .next t
      ∧ (∃ sample : Nat → F32, ∀ k < o.frames, inSample (sample k) = true
          ∧ ∀ j < o.channels, readWord t.out (k * o.channels + j) = some (sample k))
      ∧ ∀ a, 4 * (o.frames * o.channels) ≤ a → readByte t.out a = readByte s.out a

/-- R160, R161, R147: frame `k` steps every voice as frame `k − 1` left it, in slot order, the draws going from one voice to
the next; its sample is the sum of the voices' samples in that order from 0, zero where it is not finite, clamped to [−1, 1],
on every channel; the frame leaves the voices, the draws and `SILENCED` as the voice steps and the sum leave them. -/
def Obligations.RenderSampleIsTheClampedMix : Prop :=
  ∀ (n c : Word) (sr : F32) (s t : State) (o : RenderOperands) (k j : Nat) (x y : RenderRun), Fp.finite sr = true →
    o = renderOperands s.cfg n c sr → exec (.render n c sr) s = .next t → k < o.frames → j < o.channels →
    x = renderFrames s.cfg o.rate o.channels k { voices := s.voices, out := s.out, rnd := s.rnd, silenced := false } →
    y = renderFrames s.cfg o.rate o.channels (k + 1)
      { voices := s.voices, out := s.out, rnd := s.rnd, silenced := false } →
    ∃ (fs : List VoiceFrame) (acc : Val), fs.length = x.voices.length
      ∧ (∀ i v, x.voices[i]? = some v →
          fs[i]? = some (voiceStep s.cfg o.rate v (((fs.take i).getLast?.map (·.rnd)).getD x.rnd)))
      ∧ acc = fs.foldl (fun a f => s.cfg.num.add a f.sample) .zero
      ∧ readWord t.out (k * o.channels + j)
          = some (s.cfg.num.store (Val.clamp (if acc.finite = true then acc else .zero) .negOne .one))
      ∧ y.voices = fs.map (·.voice) ∧ y.rnd = (fs.getLast?.map (·.rnd)).getD x.rnd
      ∧ y.silenced = (x.silenced || fs.any (·.silenced) || !acc.finite)

/-- R160: with an empty pool every frame is 0, nothing is silenced, and the pool stays empty. -/
def Obligations.RenderOfAnEmptyPoolIsSilence : Prop :=
  ∀ (n c : Word) (sr : F32) (s : State) (o : RenderOperands), Fp.finite sr = true →
    o = renderOperands s.cfg n c sr → s.voices = [] →
    ∃ t, exec (.render n c sr) s = .next t ∧ t.voices = [] ∧ t.rnd = s.rnd ∧ s.status &&& 0x8 = t.status &&& 0x8
      ∧ ∀ a < o.frames * o.channels, readWord t.out a = some 0

/-- R162: after a `RENDER` no voice is Idle, every voice that is not Idle after the last frame is kept with all its
fields, and the order is kept. -/
def Obligations.RenderRemovesExactlyTheIdleVoices : Prop :=
  ∀ (n c : Word) (sr : F32) (s t : State) (o : RenderOperands) (x : RenderRun), Fp.finite sr = true →
    o = renderOperands s.cfg n c sr → x = renderRun s o → exec (.render n c sr) s = .next t →
    (∀ v ∈ t.voices, v.env.stage ≠ .idle) ∧ (∀ v ∈ x.voices, v.env.stage ≠ .idle → v ∈ t.voices)
      ∧ t.voices.Sublist x.voices
      ∧ t.voices.length + (x.voices.filter fun v => v.env.stage == .idle).length = x.voices.length

/-- R162: a `RENDER` never removes a voice that has not been released: one in Attack, Decay or Sustain is still there. -/
def Obligations.RenderKeepsUnreleasedVoices : Prop :=
  ∀ (n c : Word) (sr : F32) (s t : State) (v : Voice), exec (.render n c sr) s = .next t → v ∈ s.voices →
    (v.env.stage = .attack ∨ v.env.stage = .decay ∨ v.env.stage = .sustain) →
    ∃ v' ∈ t.voices, v'.id = v.id ∧ v'.freq = v.freq ∧ v'.t = v.t

/-- R144, R160: the frames of a `RENDER` tick the envelope of every voice once per frame by `1/SR`, whatever its stage,
and change neither id, frequency nor latched timbre. -/
def Obligations.FramesTickEveryEnvelope : Prop :=
  ∀ (s : State) (o : RenderOperands) (k : Nat) (v : Voice), s.voices[k]? = some v →
    ∃ v', (renderRun s o).voices[k]? = some v' ∧ v'.id = v.id ∧ v'.freq = v.freq ∧ v'.t = v.t
      ∧ v'.env = envTicks s.cfg.num v.t (stepOf s.cfg.num o.rate) o.frames v.env
      ∧ (stepOf s.cfg.num o.rate).val = s.cfg.num.div .one (s.cfg.num.load o.rate)

/-- R45, R47, R198, R200: once the response of a `RENDER` is taken and no other has been sent, the host reads at each address it
wrote the sample of that frame; an address at or above `OUTCAP`, in reset every word, and a word never written since reset
have no value to read (log 14), and none is read between the sending of a `RENDER` and the taking of its response (log 17). -/
def Obligations.HostReadsWhatRenderWrote : Prop :=
  (∀ (n c : Word) (sr : F32) (s t : State) (o : RenderOperands) (x : RenderRun) (a : Nat), Fp.finite sr = true →
    o = renderOperands s.cfg n c sr → exec (.render n c sr) s = .next t → a < o.frames * o.channels →
    s.rst = false → streamRenders 0 (s.held ++ s.cmd) = false →
    x = renderFrames s.cfg o.rate o.channels (a / o.channels)
      { voices := s.voices, out := s.out, rnd := s.rnd, silenced := false } →
    ∃ w, hostReadOut { t with rsp := [], taken := t.taken ++ t.rsp } a = .next w ∧ readWord t.out a = some w
      ∧ inSample w = true ∧ w = mixSample s.cfg.num (mixVoices s.cfg o.rate x.voices .zero x.rnd).acc)
  ∧ (∀ (s : State) (a : Nat), s.cfg.outCap ≤ a → hostReadOut s a = .refused .outRange)
  ∧ (∀ (s : State) (a : Nat), a < s.cfg.outCap → renderUnderWay s = false → (s.rst = true ∨ readWord s.out a = none) →
      hostReadOut s a = .refused .outUnwritten)
  ∧ (∀ (s : State) (a : Nat), a < s.cfg.outCap →
      ((s.rendering = true ∧ s.rsp ≠ []) ∨ ∃ (is : List Instr) (ws : List Word), (∀ i ∈ is, i.wf = true) ∧
        s.held ++ s.cmd = is.flatMap encode ++ 0x06000000 :: ws) →
      hostReadOut s a = .refused .outDuringRender)
  ∧ (∀ a, a < State.reset.cfg.outCap → hostReadOut State.reset a = .refused .outUnwritten)

/-! ### Units -/

/-- R91, R92: `ENV_ON` and `ENV_OFF` start from the current amplitude, in every stage, and do not change it. -/
def Obligations.EnvOnAndOffStartFromTheAmplitude : Prop :=
  ∀ e : Env, envOn e = { stage := .attack, amp := e.amp, start := e.amp, elapsed := .ofWord 0 }
    ∧ envOff e = { stage := .release, amp := e.amp, start := e.amp, elapsed := .ofWord 0 }

/-- R93 to R98: one tick in each stage. A stage that ends sets the amplitude to its target and enters the next with
`start` the target and `elapsed` 0; else the amplitude is interpolated, then clamped. A stage of length `T` ends when the
stored `elapsed` is at least `T`, unless the sum has been rounded and is equal to `T` over the reals, where U14 admits both
outcomes (log 7). -/
def Obligations.EnvTickFollowsTheStages : Prop :=
  ∀ (n : Config.NumFormat) (t : Timbre) (dt el : Tracked) (e : Env) (sus : Val), el = .add n e.elapsed dt →
    sus = n.load t.envSustain →
    el.val = n.add e.elapsed.val dt.val
    ∧ (∀ len, tieOpen n el len = false → reaches n .elapsed el len = len.val.le el.val)
    ∧ (e.stage = .idle → envTick n t dt e = { e with amp := .zero })
    ∧ (e.stage = .attack → reaches n .elapsed el (.load n t.envAttack) = true →
        envTick n t dt e = { stage := .decay, amp := .one, start := .one, elapsed := .ofWord 0 })
    ∧ (e.stage = .attack → reaches n .elapsed el (.load n t.envAttack) = false →
        envTick n t dt e = { e with
          elapsed := el
          amp := Val.clamp01 (n.add e.start (n.mul (n.sub .one e.start) (n.div el.val (n.load t.envAttack)))) })
    ∧ (e.stage = .decay → sus.inUnit = true → reaches n .elapsed el (.load n t.envDecay) = true →
        envTick n t dt e = { stage := .sustain, amp := sus, start := sus, elapsed := .ofWord 0 })
    ∧ (e.stage = .decay → reaches n .elapsed el (.load n t.envDecay) = false →
        envTick n t dt e = { e with
          elapsed := el
          amp := Val.clamp01 (n.add e.start (n.mul (n.sub sus e.start) (n.div el.val (n.load t.envDecay)))) })
    ∧ (e.stage = .sustain → sus.inUnit = true → envTick n t dt e = { e with amp := sus })
    ∧ (e.stage = .release → reaches n .elapsed el (.load n t.envRelease) = true →
        envTick n t dt e = { stage := .idle, amp := .zero, start := .zero, elapsed := .ofWord 0 })
    ∧ (e.stage = .release → reaches n .elapsed el (.load n t.envRelease) = false →
        envTick n t dt e = { e with
          elapsed := el
          amp := Val.clamp01 (n.add e.start (n.mul (n.sub .zero e.start) (n.div el.val (n.load t.envRelease)))) })

/-- R97, R99 and the settling property of 41_envelope.md section 3: from the tick that enters Sustain on, the amplitude is
exactly `ENV_SUSTAIN` for ever; from the tick that enters Idle on, exactly 0 for ever. -/
def Obligations.SettledEnvelopesStaySettled : Prop :=
  ∀ (num : Config.NumFormat) (t : Timbre) (dt : Tracked) (e : Env) (n : Nat),
    ((num.load t.envSustain).inUnit = true → e.stage = .decay → (envTick num t dt e).stage = .sustain →
      (envTicks num t dt (n + 1) e).stage = .sustain ∧ (envTicks num t dt (n + 1) e).amp = num.load t.envSustain)
    ∧ (e.stage = .release → (envTick num t dt e).stage = .idle →
      (envTicks num t dt (n + 1) e).stage = .idle ∧ (envTicks num t dt (n + 1) e).amp = .zero)

/-- 40_oscillator.md section 3: at mix 0 the blend equals oscillator A exactly, at mix 1 oscillator B exactly, for finite
samples (as numbers: −0 is 0), in the reference format. -/
def Obligations.BlendIsExactAtBothEnds : Prop :=
  ∀ (c : Config.Params) (ka kb : Wave) (theta : Val), c.num = .binary32 → (wave c ka theta).finite = true →
    (wave c kb theta).finite = true →
    Fp.eq (blend c ka kb .zero theta).word (wave c ka theta).word = true
    ∧ Fp.eq (blend c ka kb .one theta).word (wave c kb theta).word = true

/-- R57: in every number format a finite operand word is loaded as the number it denotes, and in a format other than the
reference −0 and 0 as one. R11: in the reference format `+`, `−`, `·` and `/` of finite words are the exact results rounded once to
nearest even. R10: `floor` is the greatest integer not above its operand, in the reference format and in every other (log 5).
R11: `sin`, `tanh` and `exp2` at 0 and the bound 1 of `sin` and `tanh`, for finite operands, in every
format (for formats other than the reference by log 2); in the reference format alone, the sine at π/2, π and 3π/2, where the
binary32 numbers nearest to those points, and nearest inside the 1e-5 bounds, are the model's reading (log 2). -/
def Obligations.FunctionsOfNumHaveTheirProperties : Prop :=
  (∀ a b : F32, Fp.finite a = true → Fp.finite b = true →
    roundsTo (Fp.add a b) (Fp.value a + Fp.value b) 1 ∧ roundsTo (Fp.sub a b) (Fp.value a - Fp.value b) 1
    ∧ roundsTo (Fp.mul a b) (Fp.value a * Fp.value b) (2 ^ 149)
    ∧ (Fp.isZero b = false → roundsTo (Fp.div a b)
        (if Fp.isNeg b = true then -(Fp.value a * 2 ^ 149) else Fp.value a * 2 ^ 149) (Fp.value b).natAbs))
  ∧ (∀ w : F32, Fp.finite w = true → ∃ m : Int, Fp.value (Fp.floor w) = m * 2 ^ 149
    ∧ m * 2 ^ 149 ≤ Fp.value w ∧ Fp.value w < (m + 1) * 2 ^ 149)
  ∧ (∀ (a b : F32), Config.NumFormat.binary32.add (.f32 a) (.f32 b) = .f32 (Fp.add a b)
    ∧ Config.NumFormat.binary32.sub (.f32 a) (.f32 b) = .f32 (Fp.sub a b)
    ∧ Config.NumFormat.binary32.mul (.f32 a) (.f32 b) = .f32 (Fp.mul a b)
    ∧ Config.NumFormat.binary32.div (.f32 a) (.f32 b) = .f32 (Fp.div a b)
    ∧ Config.NumFormat.binary32.floor (.f32 a) = .f32 (Fp.floor a))
  ∧ (∀ (n : Config.NumFormat) (w : F32), Fp.finite w = true →
    n.holds (n.load w) = true ∧ (n.load w).finite = true ∧ (n.load w).real = .ofWord w)
  ∧ (∀ (k : Nat) (w : F32), Fp.isZero w = true → (Config.NumFormat.other k).load w = .num ⟨0, 1⟩)
  ∧ (∀ (k : Nat) (q : Exact), q.den ≠ 0 → ∃ m : Int, (Config.NumFormat.other k).floor (.num q) = .num ⟨m, 1⟩
    ∧ m * q.den ≤ q.num ∧ q.num < (m + 1) * q.den)
  ∧ (∀ (n : Config.NumFormat) (x : Val), n.holds x = true → x.isZero = true →
    (n.sin x).isZero = true ∧ (n.tanh x).isZero = true ∧ n.exp2 x = .one)
  ∧ (∀ (n : Config.NumFormat) (x : Val), n.holds x = true → x.finite = true →
    (n.sin x).abs.le .one = true ∧ (n.tanh x).abs.le .one = true)
  ∧ Fp.le 0x3F7FFF59 (Fp.sin 0x3FC90FDB) = true ∧ Fp.le (Fp.abs (Fp.sin 0x40490FDB)) 0x3727C5AC = true
  ∧ Fp.le (Fp.sin 0x4096CBE4) 0xBF7FFF59 = true
  ∧ (∀ x : F32, Config.NumFormat.binary32.sin (.f32 x) = .f32 (Fp.sin x))

/-- R76 to R79: the law of each waveform at every phase: SINE is `sin`; SQUARE is the sign of the sine with `SIGN0` at 0; SAW
and TRIANGLE by their formulas, operation by operation. That SAW's `frac` is evaluated so, and may round to 1, is the model's
reading (log 5), and that the rounded TRIANGLE law is kept where it passes the bound 1 of R75 and R80, as it does in binary32
from 2^23 cycles on, is the model's choice (log 22). Then, in the reference format, SAW and TRIANGLE at the phases those rules
name, as exact words of the model's constants (log 4). -/
def Obligations.WavesFollowTheirLaws : Prop :=
  (∀ c theta, wave c .sine theta = c.num.sin theta)
  ∧ (∀ c theta, Val.zero.lt (c.num.sin theta) = true → wave c .square theta = .one)
  ∧ (∀ c theta, (c.num.sin theta).lt .zero = true → wave c .square theta = .negOne)
  ∧ (∀ c theta, (c.num.sin theta).isZero = true →
      wave c .square theta = match c.sign0 with | .plus => .one | .minus => .negOne)
  ∧ (∀ (c : Config.Params) (n : Config.NumFormat) (theta t : Val), n = c.num → t = n.div theta (n.angle .twoPi) →
      wave c .saw theta = n.sub (n.mul .two (n.sub t (n.floor t))) .one
      ∧ wave c .triangle theta =
          n.sub (n.mul .two (n.mul .two (n.sub t (n.floor (n.add t .half)))).abs) .one)
  ∧ (∀ c : Config.Params, c.num = .binary32 →
      wave c .saw .zero = .negOne ∧ wave c .saw (.f32 Fp.halfPi) = .f32 0xBF000000 ∧ wave c .saw (.f32 Fp.pi) = .zero
      ∧ wave c .triangle .zero = .negOne ∧ wave c .triangle (.f32 0x3F490FDB) = .f32 0xBF000000
      ∧ wave c .triangle (.f32 Fp.halfPi) = .zero ∧ wave c .triangle (.f32 Fp.pi) = .one
      ∧ wave c .triangle (.f32 Fp.threeHalfPi) = .zero)

/-- R106 to R115: one step of the ladder filter, as the whole pseudocode of R115, `frac` operation by operation (log 5). In the
reference format the literals 0.45, 1.8,
0.8, 0.15 and 50 are the words of the last clause, the model's reading of them (log 4); in another they are the numbers
written (log 1). -/
def Obligations.LadderStepFollowsThePseudocode : Prop :=
  (∀ (c : Config.Params) (n : Config.NumFormat) (t : Timbre) (sr input : Val) (l : Ladder)
    (ph lfo lv cut f p k r y0 y1 y2 y3 : Val), n = c.num →
    ph = n.add l.lfo (n.div (n.load t.lfoRate) sr) → lfo = n.sub ph (n.floor ph) →
    lv = n.div (n.add (wave c t.lfoShape (n.mul (n.angle .twoPi) lfo)) .one) .two →
    cut = Val.clamp (n.mul (n.load t.fltCutoff)
        (n.exp2 (n.mul (n.mul (n.sub (n.mul .two lv) .one) (n.load t.lfoDepth)) .four)))
      (.f32 0x42480000) (n.mul n.cutFrac sr) →
    f = n.div cut sr → p = n.mul f (n.sub n.c1_8 (n.mul n.c0_8 f)) →
    k = n.sub (n.mul .two (n.sin (n.div (n.mul f (n.angle .pi)) .two))) .one →
    r = n.mul (n.load t.fltResonance) (n.sub .one (n.mul (n.mul n.c0_15 p) p)) →
    y0 = n.sub (n.mul p (n.add (n.sub input (n.mul r l.tap3.y)) l.tap0.oldx)) (n.mul k l.tap0.y) →
    y1 = n.sub (n.mul p (n.add y0 l.tap1.oldx)) (n.mul k l.tap1.y) →
    y2 = n.sub (n.mul p (n.add y1 l.tap2.oldx)) (n.mul k l.tap2.y) →
    y3 = n.sub (n.mul p (n.add y2 l.tap3.oldx)) (n.mul k l.tap3.y) →
    ladderStep c t sr input l =
      (Val.clamp (match t.fltMode with
          | .lp => y3
          | .hp => n.sub input y3
          | .bp => n.sub (n.sub input y3) y3) .negOne .one,
        { tap0 := ⟨n.sub input (n.mul r l.tap3.y), y0⟩, tap1 := ⟨y0, y1⟩, tap2 := ⟨y1, y2⟩, tap3 := ⟨y2, y3⟩,
          lfo := lfo }))
  ∧ (∀ n : Config.NumFormat,
      (n = .binary32 → n.cutFrac = .f32 0x3EE66666 ∧ n.c1_8 = .f32 0x3FE66666 ∧ n.c0_8 = .f32 0x3F4CCCCD
        ∧ n.c0_15 = .f32 0x3E19999A ∧ n.angle .pi = .f32 0x40490FDB ∧ n.angle .twoPi = .f32 0x40C90FDB)
      ∧ (n ≠ .binary32 → n.cutFrac = .num ⟨9, 20⟩ ∧ n.c1_8 = .num ⟨9, 5⟩ ∧ n.c0_8 = .num ⟨4, 5⟩
        ∧ n.c0_15 = .num ⟨3, 20⟩))

/-- R114: the sample the filter returns is in [−1, 1] whatever the stages hold and in every number format, unless it is no
number at all. -/
def Obligations.FilterOutputIsClamped : Prop :=
  ∀ (c : Config.Params) (t : Timbre) (sr input : Val) (l : Ladder),
    (ladderStep c t sr input l).1.isNum = true → (ladderStep c t sr input l).1.inSample = true

/-- R107: with `LFO_DEPTH` 0 the LFO has no effect: the cutoff is `FLT_CUTOFF`, clamped, for every LFO value in [0, 1], in
the reference format. The word for 0.45 is the model's reading of that literal (log 4). -/
def Obligations.DepthZeroCutoffIsTheClampedRegister : Prop :=
  ∀ (t : Timbre) (sr l : F32), Fp.isZero t.lfoDepth = true → Fp.finite t.fltCutoff = true → inUnit l = true →
    cutoff .binary32 t (.f32 sr) (.f32 l) = .f32 (Fp.clamp t.fltCutoff 0x42480000 (Fp.mul 0x3EE66666 sr))

/-- R125: the distortion of 0 is 0 exactly, in the reference format, and its samples do not exceed 1, for a finite product
in any format, which for formats other than the reference is the model's reading (log 2). -/
def Obligations.DistortionIsBoundedAndKeepsZero : Prop :=
  ∀ (n : Config.NumFormat) (t : Timbre) (x : Val),
    (n = .binary32 → n.holds x = true → x.isZero = true → Fp.finite t.distDrive = true →
      (distort n t x).isZero = true)
    ∧ ((n.mul x (n.load t.distDrive)).finite = true → (distort n t x).abs.le .one = true)

/-- R133, R134: the timer advances by `step`; at the end of a grain the next is rolled from two draws (log 13), the rate's
first, and the timer is 0; a sample passes unchanged while `timer < duty`, else 0. A grain ends when the stored timer is at
least the stored length, and is open while the stored timer is below the stored open time, unless the two sides are equal
over the reals and one has been rounded, where U14 admits both outcomes (log 7). A gate whose open time is its length never
closes (R133): a frame that does not end such a grain passes. A frame that ends a grain is judged with `timer = 0`, and passes
unless the new open time is 0. -/
def Obligations.GrainGateFollowsItsLaw : Prop :=
  ∀ (c : Config.Params) (n : Config.NumFormat) (t : Timbre) (step timer : Tracked) (g : Grain) (r : Rnd), n = c.num →
    timer = .add n g.timer step →
    timer.val = n.add g.timer.val step.val
    ∧ (tieOpen n timer g.len = false → reaches n .grain timer g.len = g.len.val.le timer.val)
    ∧ (tieOpen n g.timer g.duty = false → below n .grain g.timer g.duty = g.timer.val.lt g.duty.val)
    ∧ (reaches n .grain timer g.len = false → grainAdvance c t step g r = ({ g with timer := timer }, r))
    ∧ (reaches n .grain timer g.len = true →
        ∃ (u1 u2 : F32) (len duty : Tracked) (r1 r2 : Rnd), draw r = (u1, r1) ∧ draw r1 = (u2, r2)
        ∧ len.val = n.div .one (Val.atLeast
            (n.mul (n.load t.grainRate) (n.add .one (n.mul (n.load t.grainJitter) (n.load u1))))
            (n.load c.grainRateMin))
        ∧ duty.val = n.mul (Val.clamp01
            (n.mul (n.load t.grainDuty) (n.add .one (n.mul (n.load t.grainJitter) (n.load u2))))) len.val
        ∧ grainAdvance c t step g r = ({ timer := .ofWord 0, len := len, duty := duty }, r2))
    ∧ (∀ x, below n .grain g.timer g.duty = true → gated n g x = x)
    ∧ (∀ x, below n .grain g.timer g.duty = false → gated n g x = .zero)
    ∧ (∀ x, g.duty = g.len → g.len.val.isNum = true → timer.val.isNum = true →
        reaches n .grain timer g.len = false → gated n (grainAdvance c t step g r).1 x = x)
    ∧ (∀ x (g' : Grain), reaches n .grain timer g.len = true → g' = (grainAdvance c t step g r).1 →
        (Val.zero.lt g'.duty.val = true → gated n g' x = x) ∧ (g'.duty.val.isZero = true → gated n g' x = .zero))

/-- R132, R133: with `GRAIN_JITTER` 0 the draws are taken and affect no value, in the reference format, and then a
`GRAIN_DUTY` of 1 or more gives an open time that is the length; with any legal `GRAIN_JITTER` a `GRAIN_DUTY` of 0 or less gives
an open time of 0, where the length is finite. -/
def Obligations.JitterZeroGrainIgnoresDraws : Prop :=
  ∀ (c : Config.Params) (t : Timbre) (g : Grain) (r r' : Rnd), c.num = .binary32 →
    (Fp.isZero t.grainJitter = true →
      (grainRoll c t g r).1 = (grainRoll c t g r').1 ∧ (grainRoll c t g r).2.count = r.count + 2
      ∧ (paramsLegal c = true → timbreLegal c t = true → Fp.le Fp.one t.grainDuty = true →
          (grainRoll c t g r).1.duty = (grainRoll c t g r).1.len))
    ∧ (inUnit t.grainJitter = true → (grainRoll c t g r).1.len.val.finite = true → Fp.finite t.grainDuty = true → Fp.le t.grainDuty Fp.zero = true →
        (grainRoll c t g r).1.duty.val.isZero = true)

/-- R142 to R148: one frame of one voice: the phase, the chain, the level, the gate where it is attached, and the guard. The
phase is wrapped by R10's formula, operation by operation (log 5), and the blend is R81's. The guard replaces the sample by 0 where it is not finite, and where the filter state has become non-finite, as the prose of R147
and U4 has it beyond the pseudocode of R148; that no other field of the voice fires it is the model's choice (log 20). -/
def Obligations.VoiceStepFollowsTheChain : Prop :=
  ∀ (c : Config.Params) (n : Config.NumFormat) (sr : F32) (v : Voice) (r : Rnd) (rate twoPi x ph mix raw out lev : Val)
    (step : Tracked) (fl : Ladder) (en : Env) (quiet : Val → Bool), n = c.num → rate = n.load sr → twoPi = n.angle .twoPi →
    x = n.add v.phase (n.div (n.mul twoPi (n.load v.freq)) rate) →
    ph = n.sub x (n.mul twoPi (n.floor (n.div x twoPi))) → mix = n.load v.t.oscMix →
    raw = n.add (n.mul (n.sub .one mix) (wave c v.t.oscA ph)) (n.mul mix (wave c v.t.oscB ph)) →
    (out, fl) = ladderStep c v.t rate (n.tanh (n.mul raw (n.load v.t.distDrive))) v.flt →
    step = .div n .one (.load n sr) →
    en = envTick n v.t step v.env → lev = n.mul (n.mul out en.amp) .half →
    (∀ x, quiet x = !(x.finite && ([fl.tap0, fl.tap1, fl.tap2, fl.tap3].all fun tap => tap.oldx.finite && tap.y.finite)
      && fl.lfo.finite)) →
    step.val = n.div .one rate
    ∧ (v.t.grainEnable = false → voiceStep c sr v r =
      { sample := if quiet lev = true then .zero else lev
        voice := { v with phase := ph, flt := fl, env := en }
        rnd := r
        silenced := quiet lev })
    ∧ (v.t.grainEnable = true → ∀ g r', grainAdvance c v.t step v.gr r = (g, r') → voiceStep c sr v r =
      { sample := if quiet (gated n g lev) = true then .zero else gated n g lev
        voice := { v with phase := ph, flt := fl, env := en, gr := g }
        rnd := r'
        silenced := quiet (gated n g lev) })

/-- R140, R147, U4, U13: the sample of a voice step is finite whatever the voice holds, and 0 where `SILENCED` is raised, which it
is on every sample that leaves the filter state non-finite (log 20); in the reference format a voice with a non-finite stage
output is silent at every later sample: the stage stays non-finite. -/
def Obligations.VoiceSampleIsFinite : Prop :=
  ∀ (c : Config.Params) (sr : F32) (v : Voice) (r : Rnd) (o : VoiceFrame), o = voiceStep c sr v r →
    o.sample.finite = true ∧ (o.silenced = true → o.sample = .zero)
    ∧ (ladderFinite o.voice.flt = false → o.silenced = true ∧ o.sample = .zero)
    ∧ (c.num = .binary32 → ∀ tap : Ladder → Tap, tap = (·.tap0) ∨ tap = (·.tap1) ∨ tap = (·.tap2) ∨ tap = (·.tap3) →
        (tap v.flt).y.finite = false →
        (tap o.voice.flt).y.finite = false ∧ o.silenced = true ∧ o.sample = .zero)

/-! ### Invariants -/

/-- The invariants below hold in the reset state, with the premises their statements take. That the parameters at reset are
those of the reference configuration is the model's choice (log 8, log 19), so that they are legal ones, and that the grain
rates stay within the format, rests on it. -/
def Obligations.ResetMeetsTheInvariants : Prop :=
  paramsLegal State.reset.cfg = true ∧ timbresLegal State.reset = true ∧ envsLegal State.reset = true
  ∧ grainsLegal State.reset = true ∧ grainsProper State.reset = true ∧ grainRatesInFormat State.reset = true
  ∧ idsFresh State.reset ∧ poolBounded State.reset ∧ outInside State.reset
  ∧ outSamples State.reset.out ∧ statusLegal State.reset

/-- R14: every step keeps every timbre register, and every latched copy, in its legal range. The parameters must leave
R196's values legal, or reset itself would break it. -/
def Obligations.StepKeepsTimbresLegal : Prop :=
  ∀ s t : State, paramsLegal s.cfg = true → timbreLegal s.cfg State.reset.timbre = true → timbresLegal s = true →
    step s = .next t → timbresLegal t = true

/-- R30, R43's counterpart for the envelope: every step keeps every amplitude in [0, 1] and every elapsed time finite and
not below 0, where the timbres are legal, in the reference format. -/
def Obligations.StepKeepsAmplitudesInRange : Prop :=
  ∀ s t : State, s.cfg.num = .binary32 → paramsLegal s.cfg = true → timbresLegal s = true → envsLegal s = true →
    step s = .next t → envsLegal t = true

/-- R32: every step keeps every grain timer and grain length a number not below 0, where the timbres are legal, in the
reference format; and, where no jittered rate or reciprocal leaves the format, keeps every length above 0 and every open time
a number not below 0. -/
def Obligations.StepKeepsGrainTimesNonNegative : Prop :=
  ∀ s t : State, s.cfg.num = .binary32 → paramsLegal s.cfg = true → timbresLegal s = true → step s = .next t →
    (grainsLegal s = true → grainsLegal t = true)
    ∧ (grainRatesInFormat s = true → grainsProper s = true → grainsProper t = true)

/-- R27, R23: every step that does not wrap the id counter keeps the ids of the pool distinct, not 0, and handed out before:
every step below the last id, and at the last id every step but the `NOTE_ON` that hands it out. Past the wrap R27 promises
nothing (log 15). -/
def Obligations.StepKeepsIdsDistinct : Prop :=
  ∀ s t : State, s.cfg.idw ≤ 32 →
    (s.nextId.toNat < 2 ^ s.cfg.idw - 1 ∨ canStart s = false ∨
      ∀ f rest, decode (s.held ++ s.cmd) = .instr (.noteOn f) rest → Fp.finite f = false) →
    idsFresh s → step s = .next t → idsFresh t

/-- R25 and 46_commands.md section 5: every step keeps `VCOUNT ≤ NVOICES`. -/
def Obligations.StepKeepsThePoolBounded : Prop :=
  ∀ s t : State, poolBounded s → step s = .next t → poolBounded t

/-- R40 and log 14: every step keeps `OUT` in its canonical form and inside its `OUTCAP` words. -/
def Obligations.StepKeepsOutInside : Prop :=
  ∀ s t : State, outInside s → step s = .next t → outInside t

/-- R43: every step keeps every word of `OUT` that has been written a finite value in [−1, 1]. -/
def Obligations.StepKeepsOutSamples : Prop :=
  ∀ s t : State, outSamples s.out → step s = .next t → outSamples t.out

/-- R21: every step keeps bits 31:9 of `STATUS` at 0. -/
def Obligations.StepKeepsReservedStatusBitsZero : Prop :=
  ∀ s t : State, statusLegal s → step s = .next t → statusLegal t

/-- R132: where every voice has `GRAIN_JITTER` 0, `RENDER` does the same whatever the random source supplies, in the
reference format. -/
def Obligations.RenderWithoutJitterIgnoresDraws : Prop :=
  ∀ (n c : Word) (sr : F32) (s s' : State), s.cfg.num = .binary32 → sameButDraws s s' →
    (∀ v ∈ s.voices, Fp.isZero v.t.grainJitter = true) →
    ∃ t t', exec (.render n c sr) s = .next t ∧ exec (.render n c sr) s' = .next t' ∧ sameButDraws t t'
end

