-- ==== Sys2Proof/Laws/Fp.lean ====
section
/-! SUPPORT. Facts of the number formats that the statements about samples rest on: what `clamp` answers, what the functions of
NUM may be assumed to answer, that an operation's NaN is one, and what becomes of every operation in the reference format. -/

namespace Sys2Proof.Machine.Fp

theorem lt_iff {a b : F32} : lt a b = true ↔ isNaN a = false ∧ isNaN b = false ∧ key a < key b := by
  simp [lt, and_assoc]

theorem le_iff {a b : F32} : le a b = true ↔ isNaN a = false ∧ isNaN b = false ∧ key a ≤ key b := by
  simp [le, and_assoc]

/-- Of two numbers, one is below the other or not above it. -/
theorem le_of_not_lt {a b : F32} (ha : isNaN a = false) (hb : isNaN b = false) (h : lt a b = false) :
    le b a = true := by
  rw [le_iff]
  refine ⟨hb, ha, ?_⟩
  by_contra hn
  have : lt a b = true := lt_iff.2 ⟨ha, hb, by omega⟩
  simp_all

/-- A finite pattern is a number. -/
theorem isNaN_of_finite {a : F32} (h : finite a = true) : isNaN a = false := by
  have := of_decide_eq_true h
  exact decide_eq_false (by omega)

/-- `clamp` of a number lies between its bounds. -/
theorem clamp_between {x lo hi : F32} (hx : isNaN x = false) (h : le lo hi = true) :
    le lo (clamp x lo hi) = true ∧ le (clamp x lo hi) hi = true := by
  obtain ⟨hl, hh, hk⟩ := le_iff.1 h
  have refl : ∀ {a : F32}, isNaN a = false → le a a = true := fun ha => le_iff.2 ⟨ha, ha, le_refl _⟩
  unfold clamp
  split_ifs with h1 h2
  · exact ⟨refl hl, h⟩
  · exact ⟨h, refl hh⟩
  · exact ⟨le_of_not_lt hx hl (by simpa using h1), le_of_not_lt hh hx (by simpa using h2)⟩

/-- A sample clamped to [−1, 1] is one, if it is a number at all. -/
theorem clamp_sample {x : F32} (hx : isNaN x = false) : inSample (clamp x negOne one) = true := by
  have := clamp_between hx (by decide : le negOne one = true)
  simp [inSample, this]

/-- An amplitude clamped to [0, 1] is one, if it is a number at all. -/
theorem clamp01_unit {x : F32} (hx : isNaN x = false) : inUnit (clamp01 x) = true := by
  have := clamp_between hx (by decide : le zero one = true)
  simp [inUnit, clamp01, this]

/-- `sin` answers what R11 allows, and nothing else is known of it. -/
theorem sin_allowed (x : F32) : sinAllowed x (sin x) = true := by
  unfold sin
  split_ifs with h
  · exact h
  · unfold sinAllowed sinFallback
    by_cases hf : finite x = true
    · by_cases hz : isZero x = true
      · have h1 : x ≠ halfPi := by rintro rfl; revert hz; decide
        have h2 : x ≠ threeHalfPi := by rintro rfl; revert hz; decide
        simp [hf, hz, h1, h2]; decide
      · by_cases h1 : x = halfPi
        · subst h1; decide
        · by_cases h2 : x = pi
          · subst h2; decide
          · by_cases h3 : x = threeHalfPi
            · subst h3; decide
            · simp [hf, hz, h1, h2, h3]; decide
    · simp [hf]

/-- `tanh` answers what R11 allows, and nothing else is known of it. -/
theorem tanh_allowed (x : F32) : tanhAllowed x (tanh x) = true := by
  unfold tanh
  split_ifs with h
  · exact h
  · unfold tanhAllowed
    by_cases hf : finite x = true <;> simp [hf]
    exact ⟨by decide, .inr (by decide)⟩

/-- `exp2(0) = 1` (R11). -/
theorem exp2_zero {x : F32} (h : isZero x = true) : exp2 x = one := by simp [exp2, h]

/-- A draw's value is in [−1, 1] whatever the port holds (44_grain_gate.md R132). -/
theorem unitDraw_le (u : F32) : le (abs (unitDraw u)) one = true := by
  unfold unitDraw
  split_ifs with h
  · exact h
  · decide

/-- The NaN of an operation is one, whatever its payload. -/
theorem isNaN_nan (op : Nat) (a b : F32) : isNaN (nan op a b) = true := by
  have h : (nan op a b).toNat % 2 ^ 31 = ((nan op a b).setWidth 31).toNat := by simp
  have h2 : 0x7FC00000 ≤ ((nan op a b).setWidth 31).toNat := by
    rw [nan, BitVec.setWidth_or, BitVec.toNat_or]
    exact Nat.left_le_or
  simp only [isNaN, mag, infMag, decide_eq_true_eq, h]
  omega

/-- What is not finite is a NaN or an infinity. -/
theorem not_finite_iff {a : F32} : finite a = false ↔ isNaN a = true ∨ isInf a = true := by
  simp only [finite, isNaN, isInf, decide_eq_false_iff_not, decide_eq_true_eq, beq_iff_eq]; omega

/-- A packed pattern has the magnitude it was packed from. -/
theorem mag_pack (neg : Bool) {m : Nat} (h : m < 2 ^ 31) : mag (pack neg m) = m := by
  simp only [mag, pack, BitVec.toNat_ofNat]; split_ifs <;> omega

/-- A sign reversed leaves the magnitude. -/
theorem mag_negate (a : F32) : mag (negate a) = mag a := by
  have h : ∀ b : F32, mag b = (b.setWidth 31).toNat := fun b => by simp [mag]
  rw [h, h, negate, BitVec.setWidth_xor]
  simp

/-- A product with what is not finite is not finite. -/
theorem mul_not_finite (a : F32) {b : F32} (h : finite b = false) : finite (mul a b) = false := by
  have hn : ∀ x y, finite (nan 1 x y) = false := fun x y => not_finite_iff.2 (.inl (isNaN_nan _ _ _))
  have hp : ∀ s, finite (pack s infMag) = false := fun s => by
    simp [finite, mag_pack s (by decide : infMag < 2 ^ 31)]
  rcases not_finite_iff.1 h with h | h <;> simp only [mul, h, Bool.or_true] <;> split_ifs <;>
    first | exact hn _ _ | exact hp _

/-- A sum with what is not finite is not finite. -/
theorem add_not_finite (a : F32) {b : F32} (h : finite b = false) : finite (add a b) = false := by
  have hn : ∀ x y, finite (nan 0 x y) = false := fun x y => not_finite_iff.2 (.inl (isNaN_nan _ _ _))
  have ha : ∀ x, isInf x = true → finite x = false := fun x hx => not_finite_iff.2 (.inr hx)
  rcases not_finite_iff.1 h with h | h <;> simp only [add, h, Bool.or_true] <;> split_ifs <;>
    first | exact hn _ _ | simp_all

/-- A difference with what is not finite is not finite. -/
theorem sub_not_finite (a : F32) {b : F32} (h : finite b = false) : finite (sub a b) = false :=
  add_not_finite a (by simpa [finite, mag_negate] using h)

/-! ### Rounding: what `roundMag` answers is the nearest magnitude (00_scope.md R11) -/

/-- The sign a pattern was packed with. -/
theorem isNeg_pack (neg : Bool) {m : Nat} (h : m < 2 ^ 31) : isNeg (pack neg m) = neg := by
  have e : ∀ x : Nat, x < 2 ^ 32 → (BitVec.ofNat 32 x).getLsbD 31 = decide (2 ^ 31 ≤ x) := by
    intro x hx
    rw [BitVec.getLsbD_ofNat, Nat.testBit_eq_decide_div_mod_eq]
    simp only [show (31 < 32) = True by simp, decide_true, Bool.true_and]
    exact decide_eq_decide.2 (by omega)
  cases neg <;> simp only [isNeg, pack] <;> rw [e _ (by simp; omega)] <;> simp
  omega

/-- The value of a packed pattern. -/
theorem value_pack (neg : Bool) {m : Nat} (h : m < 2 ^ 31) :
    value (pack neg m) = if neg then -(units m : Int) else (units m : Int) := by
  rw [value, isNeg_pack neg h, mag_pack neg h]

/-- Below the second binade a magnitude is its own pattern. -/
theorem units_small {m : Nat} (h : m < 2 ^ 24) : units m = m := by
  unfold units
  split_ifs with h1
  · rfl
  · have : m / 2 ^ 23 = 1 := by omega
    rw [this]; simp; omega

/-- A magnitude pattern written as exponent and significand, the significand possibly one binade up. -/
theorem units_split (e : Nat) {q : Nat} (h1 : 2 ^ 23 ≤ q) (h2 : q ≤ 2 ^ 24) : units (e * 2 ^ 23 + q) = q * 2 ^ e := by
  unfold units
  rw [if_neg (by omega)]
  rcases Nat.lt_or_ge q (2 ^ 24) with h | h
  · have d : (e * 2 ^ 23 + q) / 2 ^ 23 - 1 = e := by omega
    have r : (e * 2 ^ 23 + q) % 2 ^ 23 = q - 2 ^ 23 := by omega
    rw [d, r, Nat.add_sub_cancel' h1]
  · have hq : q = 2 ^ 24 := by omega
    have d : (e * 2 ^ 23 + q) / 2 ^ 23 - 1 = e + 1 := by omega
    have r : (e * 2 ^ 23 + q) % 2 ^ 23 = 0 := by omega
    rw [d, r, hq, Nat.add_zero, pow_succ 2 e, ← mul_assoc, mul_right_comm]
    norm_num

/-- Magnitudes rise with their patterns. -/
theorem units_strictMono : StrictMono units := by
  refine strictMono_nat_of_lt_succ fun m => ?_
  rcases Nat.lt_or_ge m (2 ^ 23) with h | h
  · rw [units_small (by omega), units_small (by omega)]; omega
  · obtain ⟨e, q, rfl, h1, h2⟩ : ∃ e q, m = e * 2 ^ 23 + q ∧ 2 ^ 23 ≤ q ∧ q < 2 ^ 24 :=
      ⟨m / 2 ^ 23 - 1, 2 ^ 23 + m % 2 ^ 23, by omega, by omega, by omega⟩
    rw [add_assoc, units_split e h1 h2.le, units_split e (by omega) h2]
    exact (Nat.mul_lt_mul_right (by positivity)).2 (Nat.lt_succ_self q)

/-- What `roundMag` rounds: `q` steps of `2 ^ e` and a rest, `q` and `q + 1` being the two neighbours. -/
theorem roundMag_split (num den : Nat) : ∃ e q, q = num / (den * 2 ^ e) ∧
    roundMag num den = min (e * 2 ^ 23 + nearestEven num (den * 2 ^ e)) infMag ∧
    units (e * 2 ^ 23 + q) = q * 2 ^ e ∧ units (e * 2 ^ 23 + (q + 1)) = (q + 1) * 2 ^ e ∧
    e = Nat.log2 (num / den) - 23 ∧ q < 2 ^ 24 := by
  refine ⟨_, _, rfl, rfl, ?_⟩
  generalize he : Nat.log2 (num / den) - 23 = e
  rw [← Nat.div_div_eq_div_mul]
  generalize hN : num / den = N at he
  have hlt : N < 2 ^ (Nat.log2 N + 1) := Nat.lt_log2_self
  rcases Nat.lt_or_ge (Nat.log2 N) 24 with h | h
  · obtain rfl : e = 0 := by omega
    have : N < 2 ^ 24 := lt_of_lt_of_le hlt (Nat.pow_le_pow_right (by decide) (by omega))
    rcases Nat.lt_or_ge N (2 ^ 23) with h3 | h3
    · refine ⟨?_, ?_, rfl, by simpa using this⟩ <;> simp only [zero_mul, zero_add, pow_zero, Nat.div_one, mul_one] <;> exact units_small (by omega)
    · refine ⟨units_split 0 (by simpa using h3) (by simp; omega), units_split 0 (by simp; omega) (by simp; omega), rfl, by simpa using this⟩
  · have hN0 : N ≠ 0 := by rintro rfl; simp at h
    have hge : 2 ^ Nat.log2 N ≤ N := Nat.log2_self_le hN0
    have hl : Nat.log2 N = 23 + e := by omega
    have a1 : 2 ^ 23 ≤ N / 2 ^ e := by
      rw [Nat.le_div_iff_mul_le (by positivity), ← pow_add, ← hl]; exact hge
    have a2 : N / 2 ^ e < 2 ^ 24 := by
      rw [Nat.div_lt_iff_lt_mul (by positivity), ← pow_add]; rw [hl] at hlt; convert hlt using 2; omega
    exact ⟨units_split e a1 a2.le, units_split e (by omega) a2, rfl, a2⟩

/-- `roundMag` answers the nearest magnitude, ties to an even pattern, as long as it is finite. -/
theorem roundMag_nearest {num den : Nat} (hd : 0 < den) (hf : roundMag num den < infMag) (m : Nat) :
    ((units (roundMag num den) * den : Int) - num).natAbs ≤ ((units m * den : Int) - num).natAbs ∧
    (((units (roundMag num den) * den : Int) - num).natAbs = ((units m * den : Int) - num).natAbs →
      units m = units (roundMag num den) ∨ roundMag num den % 2 = 0) := by
  obtain ⟨e, q, hq, hr, hu, hu1, -, -⟩ := roundMag_split num den
  have hr' : roundMag num den = e * 2 ^ 23 + nearestEven num (den * 2 ^ e) := by omega
  have hD : 0 < den * 2 ^ e := by positivity
  have hnum : num = q * (den * 2 ^ e) + num % (den * 2 ^ e) := by
    rw [hq]; exact (Nat.div_add_mod' num _).symm
  have hlt := Nat.mod_lt num hD
  have c0 : units (e * 2 ^ 23 + q) * den = q * (den * 2 ^ e) := by rw [hu]; ring
  have c1 : units (e * 2 ^ 23 + (q + 1)) * den = q * (den * 2 ^ e) + den * 2 ^ e := by rw [hu1]; ring
  have side : units m * den ≤ q * (den * 2 ^ e) ∨ q * (den * 2 ^ e) + den * 2 ^ e ≤ units m * den := by
    rcases Nat.lt_or_ge m (e * 2 ^ 23 + (q + 1)) with h | h
    · left; rw [← c0]; exact Nat.mul_le_mul_right _ (units_strictMono.monotone (by omega))
    · right; rw [← c1]; exact Nat.mul_le_mul_right _ (units_strictMono.monotone h)
  have inj : ∀ x, units m * den = units x * den → units m = units x := fun x h => Nat.eq_of_mul_eq_mul_right hd h
  have ev : nearestEven num (den * 2 ^ e) = if 2 * (num % (den * 2 ^ e)) < den * 2 ^ e then q
      else if den * 2 ^ e < 2 * (num % (den * 2 ^ e)) then q + 1 else if q % 2 = 0 then q else q + 1 := by
    rw [hq]; rfl
  have cast : ∀ x, (units x : Int) * den = ((units x * den : Nat) : Int) := fun x => by push_cast; rfl
  have e2 : e * 2 ^ 23 % 2 = 0 := by omega
  have main : ∀ r, r = q ∨ r = q + 1 →
      (r = q → 2 * (num % (den * 2 ^ e)) < den * 2 ^ e ∨ 2 * (num % (den * 2 ^ e)) = den * 2 ^ e ∧ q % 2 = 0) →
      (r = q + 1 → den * 2 ^ e < 2 * (num % (den * 2 ^ e)) ∨ 2 * (num % (den * 2 ^ e)) = den * 2 ^ e ∧ q % 2 ≠ 0) →
      ((units (e * 2 ^ 23 + r) * den : Int) - num).natAbs ≤ ((units m * den : Int) - num).natAbs ∧
      (((units (e * 2 ^ 23 + r) * den : Int) - num).natAbs = ((units m * den : Int) - num).natAbs →
        units m = units (e * 2 ^ 23 + r) ∨ (e * 2 ^ 23 + r) % 2 = 0) := by
    intro r hr h0 h1
    generalize e * 2 ^ 23 = E at e2 c0 c1 ⊢
    have im := inj (E + r)
    rw [cast, cast]
    generalize units m * den = X at side im ⊢
    rcases hr with rfl | rfl
    · rw [c0] at im ⊢
      generalize r * (den * 2 ^ e) = A at *
      generalize den * 2 ^ e = D at *
      generalize num % D = R at *
      refine ⟨by omega, fun h => ?_⟩
      by_cases hx : X = A
      · exact .inl (im hx)
      · exact .inr (by omega)
    · rw [c1] at im ⊢
      generalize q * (den * 2 ^ e) = A at *
      generalize den * 2 ^ e = D at *
      generalize num % D = R at *
      refine ⟨by omega, fun h => ?_⟩
      by_cases hx : X = A + D
      · exact .inl (im hx)
      · exact .inr (by omega)
  rw [hr', ev]
  split_ifs with g1 g2 g3
  · exact main q (.inl rfl) (fun _ => .inl g1) (fun h => by omega)
  · exact main (q + 1) (.inr rfl) (fun h => by omega) (fun _ => .inl g2)
  · exact main q (.inl rfl) (fun _ => .inr ⟨by omega, g3⟩) (fun h => by omega)
  · exact main (q + 1) (.inr rfl) (fun h => by omega) (fun _ => .inr ⟨by omega, g3⟩)

/-- What `roundMag` answers where nothing is to be rounded off: a whole number of steps. -/
theorem roundMag_exact {num e : Nat} (h : Nat.log2 num - 23 = e) (hd : 2 ^ e ∣ num) (hf : e ≤ 253) :
    units (roundMag num 1) = num ∧ roundMag num 1 < infMag := by
  obtain ⟨e', q, hq, hr, hu, -, he', hq2⟩ := roundMag_split num 1
  obtain rfl : e' = e := by rw [he', Nat.div_one]; exact h
  rw [one_mul] at hq hr
  have hn : nearestEven num (2 ^ e') = q := by
    simp [nearestEven, Nat.mod_eq_zero_of_dvd hd, hq]
  have hb : e' * 2 ^ 23 + q < infMag := by simp only [infMag]; omega
  rw [hr, hn, min_eq_left hb.le, hu]
  exact ⟨by rw [hq]; exact Nat.div_mul_cancel hd, hb⟩

/-- A number not above a finite one rounds to a finite one. -/
theorem roundMag_units {m : Nat} (h : m < infMag) : units (roundMag (units m) 1) = units m ∧ roundMag (units m) 1 < infMag := by
  rcases Nat.lt_or_ge m (2 ^ 23) with h1 | h1
  · have hu := units_small (m := m) (by omega)
    refine roundMag_exact (e := 0) ?_ (by simp) (by omega)
    have := Nat.log2_lt (n := units m) (k := 24)
    rcases Nat.eq_zero_or_pos (units m) with h0 | h0
    · simp [h0]
    · have := (Nat.log2_lt (n := units m) (k := 24) (by omega)).2 (by omega); omega
  · obtain ⟨e, q, rfl, h2, h3⟩ : ∃ e q, m = e * 2 ^ 23 + q ∧ 2 ^ 23 ≤ q ∧ q < 2 ^ 24 :=
      ⟨m / 2 ^ 23 - 1, 2 ^ 23 + m % 2 ^ 23, by omega, by omega, by omega⟩
    rw [units_split e h2 h3.le]
    refine roundMag_exact (e := e) ?_ (Nat.dvd_mul_left _ _) (by simp only [infMag] at h; omega)
    have p : 0 < 2 ^ e := by positivity
    have l : Nat.log2 (q * 2 ^ e) = 23 + e := by
      rw [Nat.log2_eq_iff (by positivity)]
      constructor
      · rw [pow_add]; exact Nat.mul_le_mul_right _ h2
      · rw [show 23 + e + 1 = 24 + e by omega, pow_add]; exact (Nat.mul_lt_mul_right p).2 h3
    rw [l]; omega

/-- The packed nearest magnitude is the nearest number of its sign. -/
theorem isNearestEven_pack (neg : Bool) {num den : Nat} (hd : 0 < den) (hf : roundMag num den < infMag) :
    isNearestEven (pack neg (roundMag num den)) (if neg then -(num : Int) else num) den := by
  have hm : roundMag num den < 2 ^ 31 := lt_trans hf (by decide)
  intro w hw
  have key := roundMag_nearest hd hf
  rw [value_pack neg hm, mag_pack neg hm]
  have k0 := key 0
  have k1 := key (mag w)
  have z : units 0 = 0 := rfl
  have hv : value w = if isNeg w then -(units (mag w) : Int) else (units (mag w) : Int) := rfl
  rw [hv]
  rw [z] at k0
  generalize units (mag w) = u at *
  generalize roundMag num den = r at *
  generalize units r = v at *
  have hp : (0 : Int) ≤ (u : Int) * den := by positivity
  have hu0 : (u : Int) * den = 0 → u = 0 := fun h => by
    rcases mul_eq_zero.1 h with h | h
    · exact_mod_cast h
    · omega
  cases neg <;> cases isNeg w <;> simp only [if_true, if_false, Bool.false_eq_true, neg_mul] at * <;>
    push_cast at * <;> generalize (u : Int) * den = U at * <;> generalize (v : Int) * den = V at * <;>
    refine ⟨by omega, fun h => ?_⟩
  all_goals
    first
      | (rcases k1.2 (by omega) with hh | hh
         · left; rw [hh]
         · exact .inr hh)
      | (have hz : u = 0 := hu0 (by omega)
         rcases k0.2 (by omega) with hh | hh
         · left; rw [hz, ← hh]; rfl
         · exact .inr hh)

/-- The magnitude of a value. -/
theorem natAbs_value (a : F32) : (value a).natAbs = units (mag a) := by
  unfold value; split_ifs <;> simp

/-- What rounds to the infinity is above every finite magnitude. -/
theorem roundMag_overflow {num den : Nat} (hd : 0 < den) (hf : ¬ roundMag num den < infMag) {m : Nat} (hm : m < infMag) :
    units m * den < num ∧ roundMag num den = infMag := by
  obtain ⟨e, q, hq, hr, hu, -, -, -⟩ := roundMag_split num den
  have hD : 0 < den * 2 ^ e := by positivity
  have hnum : q * (den * 2 ^ e) + num % (den * 2 ^ e) = num := by rw [hq]; exact Nat.div_add_mod' num _
  have c0 : units (e * 2 ^ 23 + q) * den = q * (den * 2 ^ e) := by rw [hu]; ring
  have ev : nearestEven num (den * 2 ^ e) = if 2 * (num % (den * 2 ^ e)) < den * 2 ^ e then q
      else if den * 2 ^ e < 2 * (num % (den * 2 ^ e)) then q + 1 else if q % 2 = 0 then q else q + 1 := by
    rw [hq]; rfl
  refine ⟨?_, by omega⟩
  rcases Nat.lt_or_ge m (e * 2 ^ 23 + q) with h | h
  · exact lt_of_lt_of_le ((Nat.mul_lt_mul_right hd).2 (units_strictMono h)) (by rw [c0]; omega)
  · have h2 : e * 2 ^ 23 + q < e * 2 ^ 23 + nearestEven num (den * 2 ^ e) := by omega
    have h3 : 0 < num % (den * 2 ^ e) := by
      rw [ev] at h2
      by_contra h0
      rw [if_pos (by omega)] at h2
      omega
    have h4 : m = e * 2 ^ 23 + q := by
      have : nearestEven num (den * 2 ^ e) ≤ q + 1 := by rw [ev]; split_ifs <;> omega
      omega
    rw [h4, c0]; omega

/-- Packing a sign and the rounded magnitude rounds the signed number. -/
theorem roundsTo_pack (neg : Bool) {num den : Nat} (hd : 0 < den) :
    roundsTo (pack neg (roundMag num den)) (if neg then -(num : Int) else num) den := by
  have hle : roundMag num den ≤ infMag := by
    obtain ⟨_, _, _, hr, _⟩ := roundMag_split num den
    rw [hr]; exact min_le_right _ _
  have hm : roundMag num den < 2 ^ 31 := lt_of_le_of_lt hle (by decide)
  have hfin : finite (pack neg (roundMag num den)) = decide (roundMag num den < infMag) := by rw [finite, mag_pack neg hm]
  refine ⟨fun h => isNearestEven_pack neg hd (by simpa [hfin] using h), fun h => ?_⟩
  have hf : ¬ roundMag num den < infMag := by simpa [hfin] using h
  have h0 := (roundMag_overflow hd hf (m := 0) (by decide)).1
  refine ⟨?_, ?_, fun w hw => ?_⟩
  · rw [isInf, mag_pack neg hm]; simp; omega
  · rw [isNeg_pack neg hm]; cases neg <;> simp
    omega
  · rw [natAbs_value]
    have := (roundMag_overflow hd hf (m := mag w) (of_decide_eq_true hw)).1
    cases neg <;> simpa using this

/-- An integer of at most 24 bits is a number of the format. -/
theorem roundMag_integer {j : Nat} (h : j ≤ 2 ^ 23) :
    units (roundMag (j * 2 ^ 149) 1) = j * 2 ^ 149 ∧ roundMag (j * 2 ^ 149) 1 < infMag := by
  have hl : Nat.log2 (j * 2 ^ 149) - 23 ≤ 149 := by
    rcases Nat.eq_zero_or_pos j with h0 | h0
    · simp [h0]
    · have : Nat.log2 (j * 2 ^ 149) < 173 := (Nat.log2_lt (by positivity)).2 (by omega)
      omega
  exact roundMag_exact rfl ((Nat.pow_dvd_pow 2 hl).mul_left j) (by omega)

/-- What is not zero has a magnitude above 0. -/
theorem units_pos {a : F32} (h : isZero a = false) : 0 < units (mag a) := by
  have hm : mag a ≠ 0 := by simpa [isZero] using h
  have := units_strictMono (Nat.pos_of_ne_zero hm)
  omega

/-- A sign reversed reverses the value. -/
theorem value_negate (b : F32) : value (negate b) = -value b := by
  have h : isNeg (negate b) = !isNeg b := by simp [isNeg, negate]
  unfold value; rw [h, mag_negate]; cases isNeg b <;> simp

end Sys2Proof.Machine.Fp

namespace Sys2Proof

open Sys2Proof.Machine

/-! ### Stored numbers that are words -/

@[simp] theorem Val.finite_f32 (w : F32) : (Val.f32 w).finite = Fp.finite w := rfl
@[simp] theorem Val.isNum_f32 (w : F32) : (Val.f32 w).isNum = !Fp.isNaN w := rfl
@[simp] theorem Val.isZero_f32 (w : F32) : (Val.f32 w).isZero = Fp.isZero w := rfl
@[simp] theorem Val.word_f32 (w : F32) : (Val.f32 w).word = w := rfl
@[simp] theorem Val.real_f32 (w : F32) : (Val.f32 w).real = .ofWord w := rfl
@[simp] theorem Val.lt_f32 (x y : F32) : (Val.f32 x).lt (.f32 y) = Fp.lt x y := rfl
@[simp] theorem Val.abs_f32 (w : F32) : (Val.f32 w).abs = .f32 (Fp.abs w) := rfl
@[simp] theorem Val.wordIs_f32 (p : F32 → Bool) (w : F32) : (Val.f32 w).wordIs p = p w := rfl

@[simp] theorem Val.le_f32 (x y : F32) : (Val.f32 x).le (.f32 y) = Fp.le x y := by
  have h : decide (Fp.key x ≤ Fp.key y) = !decide (Fp.key y < Fp.key x) := by
    rw [← decide_not]; exact decide_eq_decide.2 not_lt.symm
  simp only [Val.le, Val.isNum_f32, Val.lt_f32, Fp.le, Fp.lt, h]
  cases Fp.isNaN x <;> cases Fp.isNaN y <;> rfl

@[simp] theorem Val.clamp_f32 (x lo hi : F32) : (Val.f32 x).clamp (.f32 lo) (.f32 hi) = .f32 (Fp.clamp x lo hi) := by
  cases h1 : Fp.lt x lo <;> cases h2 : Fp.lt hi x <;> simp [Val.clamp, Fp.clamp, h1, h2]

@[simp] theorem Val.clamp01_f32 (x : F32) : (Val.f32 x).clamp01 = .f32 (Fp.clamp01 x) := Val.clamp_f32 _ _ _

@[simp] theorem Val.atLeast_f32 (x lo : F32) : (Val.f32 x).atLeast (.f32 lo) = .f32 (Fp.atLeast x lo) := by
  cases h1 : Fp.lt x lo <;> simp [Val.atLeast, Fp.atLeast, h1]

/-- What is a word with a property is a word. -/
theorem Val.wordIs_iff {p : F32 → Bool} {v : Val} : v.wordIs p = true ↔ ∃ w, v = .f32 w ∧ p w = true := by
  cases v <;> simp [Val.wordIs]

/-- What is not finite is a word: only the binary32 patterns write an infinity or a NaN. -/
theorem Val.not_finite {v : Val} (h : v.finite = false) : ∃ w, v = .f32 w ∧ Fp.finite w = false := by
  cases v with
  | f32 w => exact ⟨w, rfl, h⟩
  | num q => cases h

/-- Of two numbers one is below the other or not above it. -/
theorem Val.le_of_not_lt {a b : Val} (ha : a.isNum = true) (hb : b.isNum = true) (h : a.lt b = false) : b.le a = true := by
  simp [Val.le, ha, hb, h]

/-- `clamp` of a number to [−1, 1] is a sample, in every format. -/
theorem Val.clamp_sample {x : Val} (hx : x.isNum = true) : (x.clamp .negOne .one).inSample = true := by
  cases x with
  | f32 w =>
    have h := Fp.clamp_between (by simpa using hx) (by decide : Fp.le Fp.negOne Fp.one = true)
    simp only [Val.negOne, Val.one, Val.clamp_f32, Val.inSample, Val.le_f32, h, Bool.and_self]
  | num q =>
    unfold Val.clamp
    split_ifs with h1 h2
    · decide
    · decide
    · simp only [Val.inSample, Bool.and_eq_true]
      exact ⟨Val.le_of_not_lt hx rfl (by simpa using h1), Val.le_of_not_lt rfl hx (by simpa using h2)⟩

@[simp] theorem Val.number_num (q : Exact) : (Val.num q).number = .num q := rfl

@[simp] theorem Val.floor_num (q : Exact) : (Val.num q).floor = .num q.floor := rfl

/-- What a finite word denotes. -/
theorem Val.number_f32 {w : F32} (h : Fp.finite w = true) : (Val.f32 w).number = .num (.ofWord w) := if_pos h

/-- A rational against 0. -/
theorem Val.num_lt_zero (q : Exact) : (Val.num q).lt .zero = decide (q.num < 0) := by
  have e : Exact.ofWord Fp.zero = { num := 0, den := 1 } := by decide +kernel
  have h1 : Fp.isNaN Fp.zero = false := by decide
  have h2 : Fp.isInf Fp.zero = false := by decide
  simp [Val.zero, Val.lt, Exact.lt, e, h1, h2]

/-- 0 against a rational. -/
theorem Val.zero_lt_num (q : Exact) : Val.zero.lt (.num q) = decide (0 < q.num) := by
  have e : Exact.ofWord Fp.zero = { num := 0, den := 1 } := by decide +kernel
  have h1 : Fp.isNaN Fp.zero = false := by decide
  have h2 : Fp.isInf Fp.zero = false := by decide
  simp [Val.zero, Val.lt, Exact.lt, e, h1, h2]

/-- What is below 0 is not above it. -/
theorem Val.not_pos_of_neg {v : Val} (h : v.lt .zero = true) : Val.zero.lt v = false := by
  cases v with
  | f32 w =>
    by_contra hn
    have h1 := Fp.lt_iff.1 (h : Fp.lt w Fp.zero = true)
    have h2 := Fp.lt_iff.1 ((Bool.not_eq_false _).mp hn : Fp.lt Fp.zero w = true)
    omega
  | num q => rw [Val.num_lt_zero, decide_eq_true_eq] at h; rw [Val.zero_lt_num]; exact decide_eq_false (by omega)

/-- A zero is neither below 0 nor above it. -/
theorem Val.zero_neither {v : Val} (h : v.isZero = true) : v.lt .zero = false ∧ Val.zero.lt v = false := by
  cases v with
  | f32 w =>
    have hm : Fp.mag w = 0 := by simpa [Val.isZero, Fp.isZero] using h
    have hk : Fp.key w = 0 := by unfold Fp.key; rw [hm]; split_ifs <;> rfl
    have hz : Fp.key Fp.zero = 0 := by decide
    constructor <;> simp [Val.zero, Fp.lt, hk, hz]
  | num q =>
    have hq : q.num = 0 := by simpa [Val.isZero] using h
    rw [Val.num_lt_zero, Val.zero_lt_num, hq]; exact ⟨rfl, rfl⟩

/-- Lowest terms are reached once. -/
theorem Exact.reduce_reduce {num : Int} {den : Nat} (h : den ≠ 0) :
    Exact.reduce (Exact.reduce num den).num (Exact.reduce num den).den = Exact.reduce num den := by
  have hg : Nat.gcd num.natAbs den ≠ 0 := fun h0 => h (Nat.eq_zero_of_gcd_eq_zero_right h0)
  have e : Exact.reduce num den
      = { num := num / (Nat.gcd num.natAbs den : Int), den := den / Nat.gcd num.natAbs den } := by
    simp [Exact.reduce, hg]
  have h1 : Nat.gcd (num / (Nat.gcd num.natAbs den : Int)).natAbs (den / Nat.gcd num.natAbs den) = 1 := by
    rw [Int.natAbs_ediv_of_dvd (Int.natCast_dvd.2 (Nat.gcd_dvd_left _ _)), Int.natAbs_natCast]
    exact Nat.gcd_div_gcd_div_gcd_of_pos_right (Nat.pos_of_ne_zero h)
  rw [e]
  simp [Exact.reduce, h1]

end Sys2Proof

namespace Sys2Proof.Config

open Sys2Proof.Machine

/-! In the reference format the operations of `NUM` are those of binary32 (00_scope.md R11). -/

@[simp] theorem NumFormat.add_binary32 (a b : Val) : NumFormat.binary32.add a b = .f32 (Fp.add a.word b.word) := rfl
@[simp] theorem NumFormat.sub_binary32 (a b : Val) : NumFormat.binary32.sub a b = .f32 (Fp.sub a.word b.word) := rfl
@[simp] theorem NumFormat.mul_binary32 (a b : Val) : NumFormat.binary32.mul a b = .f32 (Fp.mul a.word b.word) := rfl
@[simp] theorem NumFormat.div_binary32 (a b : Val) : NumFormat.binary32.div a b = .f32 (Fp.div a.word b.word) := rfl
@[simp] theorem NumFormat.floor_binary32 (a : Val) : NumFormat.binary32.floor a = .f32 (Fp.floor a.word) := rfl
@[simp] theorem NumFormat.floor_other (k : Nat) (a : Val) : (NumFormat.other k).floor a = a.floor := rfl
@[simp] theorem NumFormat.sin_binary32 (a : Val) : NumFormat.binary32.sin a = .f32 (Fp.sin a.word) := rfl
@[simp] theorem NumFormat.tanh_binary32 (a : Val) : NumFormat.binary32.tanh a = .f32 (Fp.tanh a.word) := rfl
@[simp] theorem NumFormat.exp2_binary32 (a : Val) : NumFormat.binary32.exp2 a = .f32 (Fp.exp2 a.word) := rfl
@[simp] theorem NumFormat.load_binary32 (w : F32) : NumFormat.binary32.load w = .f32 w := rfl
@[simp] theorem NumFormat.load_other (k : Nat) (w : F32) : (NumFormat.other k).load w = (Val.f32 w).number := rfl
@[simp] theorem NumFormat.store_f32 (n : NumFormat) (w : F32) : n.store (.f32 w) = w := by cases n <;> rfl
@[simp] theorem NumFormat.angle_pi : NumFormat.binary32.angle .pi = .f32 Fp.pi := rfl
@[simp] theorem NumFormat.angle_twoPi : NumFormat.binary32.angle .twoPi = .f32 Fp.twoPi := rfl

/-- A finite word is loaded as a finite number, whose value is the one it denotes (30_encoding.md R57). -/
theorem NumFormat.load_finite {n : NumFormat} {w : F32} (h : Fp.finite w = true) :
    n.holds (n.load w) = true ∧ (n.load w).finite = true ∧ (n.load w).real = .ofWord w := by
  cases n with
  | binary32 => exact ⟨rfl, h, rfl⟩
  | other k => rw [NumFormat.load_other, Val.number_f32 h]; exact ⟨rfl, rfl, rfl⟩

/-- What is written for a sample is a sample (20_memory.md R43). -/
theorem NumFormat.store_sample {n : NumFormat} {m : Val} (h : m.inSample = true) : inSample (n.store m) = true := by
  have e : ∀ w, (Val.f32 w).inSample = inSample w := fun w => by
    simp only [Val.inSample, Val.negOne, Val.one, Val.le_f32, inSample]
  have z : inSample Fp.zero = true := by decide
  cases m with
  | f32 w => rw [NumFormat.store_f32, ← e]; exact h
  | num q => cases n <;> simp only [NumFormat.store, e] <;> split_ifs with hw <;> assumption

end Sys2Proof.Config

namespace Sys2Proof.Machine

@[simp] theorem Tracked.load_val (n : Config.NumFormat) (a : F32) : (Tracked.load n a).val = n.load a := rfl
@[simp] theorem Tracked.load_binary32 (a : F32) : Tracked.load .binary32 a = .ofWord a := rfl
@[simp] theorem Tracked.ofWord_val (a : F32) : (Tracked.ofWord a).val = .f32 a := rfl
@[simp] theorem Tracked.zero_val : Tracked.zero.val = .zero := rfl
@[simp] theorem Tracked.one_val : Tracked.one.val = .one := rfl
@[simp] theorem Tracked.add_val (n : Config.NumFormat) (a b : Tracked) : (Tracked.add n a b).val = n.add a.val b.val := rfl
@[simp] theorem Tracked.mul_val (n : Config.NumFormat) (a b : Tracked) : (Tracked.mul n a b).val = n.mul a.val b.val := rfl
@[simp] theorem Tracked.div_val (n : Config.NumFormat) (a b : Tracked) : (Tracked.div n a b).val = n.div a.val b.val := rfl
@[simp] theorem Tracked.atLeast_val (a lo : Tracked) : (a.atLeast lo).val = a.val.atLeast lo.val := rfl
@[simp] theorem Tracked.clamp01_val (a : Tracked) : a.clamp01.val = a.val.clamp01 := rfl

/-- The value of a draw is in [−1, 1] (R132). -/
theorem draw_unit (r : Rnd) : Fp.le (Fp.abs (draw r).1) Fp.one = true := by
  unfold draw; split <;> exact Fp.unitDraw_le _

/-- A draw counts one (R132). -/
@[simp] theorem draw_count (r : Rnd) : (draw r).2.count = r.count + 1 := by
  unfold draw; split <;> rfl

/-- In the reference format a stage whose output is not finite stays so (45_voice.md R147). -/
theorem tapStep_not_finite (co : Coeffs) (x : Val) {tap : Tap} (h : tap.y.finite = false) :
    (tapStep .binary32 co x tap).y.finite = false := by
  obtain ⟨w, hw, hf⟩ := Val.not_finite h
  simp only [tapStep, Config.NumFormat.sub_binary32, Config.NumFormat.mul_binary32, Val.finite_f32, Val.word_f32, hw]
  exact Fp.sub_not_finite _ (Fp.mul_not_finite _ hf)

end Sys2Proof.Machine
end

