-- ==== Sys2Proof/Laws/Memory.lean ====
section
/-! SUPPORT. The laws of `OUT`: a read after a write, what a write leaves alone, and that every write keeps the canonical
form. -/

namespace Sys2Proof.Machine

/-- Reading a byte after writing one. -/
theorem readByte_writeByte (m : Memory) (a : Nat) (v : Byte) (x : Nat) :
    readByte (writeByte m a v) x = if x = a then some v else readByte m x := by
  induction m with
  | nil => simp [writeByte, readByte, eq_comm]
  | cons c m ih =>
    obtain ⟨k, b⟩ := c
    by_cases h1 : a < k
    · by_cases hx : x = a
      · subst hx; simp [writeByte, readByte, h1]
      · simp [writeByte, readByte, h1, hx, Ne.symm hx]
    · by_cases h2 : a = k
      · subst h2
        by_cases hx : x = a
        · subst hx; simp [writeByte, readByte]
        · simp [writeByte, readByte, hx, Ne.symm hx]
      · by_cases hk : k = x
        · subst hk
          simp [writeByte, readByte, h1, h2, Ne.symm h2]
        · simp [writeByte, readByte, h1, h2, hk, ih]

/-- The canonical form of a memory from its first address and the rest. -/
theorem memoryWf_cons {a : Nat} {v : Byte} {m : Memory} :
    memoryWf ((a, v) :: m) = true ↔ (∀ c ∈ m.head?, a < c.1) ∧ memoryWf m = true := by
  cases m with
  | nil => simp [memoryWf]
  | cons c m => obtain ⟨b, w⟩ := c; simp [memoryWf]

/-- The first address after a write is the written one or the first before it. -/
theorem writeByte_head (m : Memory) (a : Nat) (v : Byte) :
    ∀ c ∈ (writeByte m a v).head?, c.1 = a ∨ ∃ d ∈ m.head?, d.1 = c.1 := by
  cases m with
  | nil => simp [writeByte]
  | cons c m => obtain ⟨k, b⟩ := c; unfold writeByte; split_ifs <;> simp

/-- A write of a byte keeps the canonical form. -/
theorem writeByte_wf {m : Memory} (h : memoryWf m = true) (a : Nat) (v : Byte) :
    memoryWf (writeByte m a v) = true := by
  induction m with
  | nil => rfl
  | cons c m ih =>
    obtain ⟨k, b⟩ := c
    obtain ⟨h1, h2⟩ := memoryWf_cons.1 h
    unfold writeByte
    split_ifs with hk he
    · exact memoryWf_cons.2 ⟨by simpa using hk, h⟩
    · subst he; exact memoryWf_cons.2 ⟨h1, h2⟩
    · refine memoryWf_cons.2 ⟨fun c hc => ?_, ih h2⟩
      rcases writeByte_head m a v c hc with hca | ⟨d, hd, hdc⟩
      · omega
      · have := h1 d hd; omega

/-- A write of a word keeps the canonical form. -/
theorem writeWord_wf {m : Memory} (h : memoryWf m = true) (a : Nat) (w : Word) :
    memoryWf (writeWord m a w) = true :=
  writeByte_wf (writeByte_wf (writeByte_wf (writeByte_wf h _ _) _ _) _ _) _ _

/-- A byte outside the word written reads as before. -/
theorem readByte_writeWord_other (m : Memory) (a : Nat) (w : Word) {x : Nat} (h : x / 4 ≠ a) :
    readByte (writeWord m a w) x = readByte m x := by
  simp only [writeWord, readByte_writeByte]
  rw [if_neg (by omega), if_neg (by omega), if_neg (by omega), if_neg (by omega)]

/-- The four bytes of a word make the word. -/
theorem wordOfBytes_byteOf (w : Word) : wordOfBytes (byteOf w 0) (byteOf w 1) (byteOf w 2) (byteOf w 3) = w := by
  apply BitVec.eq_of_toNat_eq
  simp only [wordOfBytes, byteOf, BitVec.toNat_append, BitVec.extractLsb'_toNat, Nat.shiftRight_eq_div_pow]
  have h : ∀ x y : Nat, (x <<< 8) ||| (y % 2 ^ 8) = x * 2 ^ 8 + y % 2 ^ 8 := fun x y => by
    rw [← Nat.shiftLeft_add_eq_or_of_lt (Nat.mod_lt _ (by decide)), Nat.shiftLeft_eq]
  simp only [h]
  have := w.isLt
  omega

/-- Reading a word after writing it gives what was written. -/
theorem readWord_writeWord_same (m : Memory) (a : Nat) (w : Word) : readWord (writeWord m a w) a = some w := by
  have e : ∀ i < 4, readByte (writeWord m a w) (4 * a + i) = some (byteOf w i) := by
    intro i hi
    simp only [writeWord, readByte_writeByte]
    interval_cases i <;> simp
  have h0 := e 0 (by decide)
  rw [Nat.add_zero] at h0
  simp only [readWord, h0, e 1 (by decide), e 2 (by decide), e 3 (by decide), wordOfBytes_byteOf]

/-- Reading another word gives what was there. -/
theorem readWord_writeWord_other (m : Memory) {a b : Nat} (w : Word) (h : b ≠ a) :
    readWord (writeWord m a w) b = readWord m b := by
  unfold readWord
  rw [readByte_writeWord_other _ _ _ (by omega), readByte_writeWord_other _ _ _ (by omega),
    readByte_writeWord_other _ _ _ (by omega), readByte_writeWord_other _ _ _ (by omega)]

/-- The writes of a frame keep the canonical form. -/
theorem writeChannels_wf {m : Memory} (h : memoryWf m = true) (a : Nat) (w : Word) (n : Nat) :
    memoryWf (writeChannels m a w n) = true := by
  induction n with
  | zero => exact h
  | succ n ih => exact writeWord_wf ih _ _

/-- A word after the writes of a frame: the sample on each of the frame's words, any other as before. -/
theorem readWord_writeChannels (m : Memory) (a : Nat) (w : Word) (n b : Nat) :
    readWord (writeChannels m a w n) b = if a ≤ b ∧ b < a + n then some w else readWord m b := by
  induction n with
  | zero => simp [writeChannels]
  | succ n ih =>
    unfold writeChannels
    by_cases hb : b = a + n
    · subst hb; rw [readWord_writeWord_same, if_pos (by omega)]
    · rw [readWord_writeWord_other _ _ hb, ih]
      by_cases h : a ≤ b ∧ b < a + n
      · rw [if_pos h, if_pos (by omega)]
      · rw [if_neg h, if_neg (by omega)]

/-- A byte outside the words of a frame reads as before its writes. -/
theorem readByte_writeChannels_other (m : Memory) (a : Nat) (w : Word) (n : Nat) {x : Nat}
    (h : x / 4 < a ∨ a + n ≤ x / 4) : readByte (writeChannels m a w n) x = readByte m x := by
  induction n with
  | zero => rfl
  | succ n ih =>
    rw [writeChannels, readByte_writeWord_other _ _ _ (by omega)]
    exact ih (by omega)

/-- The frames of a `RENDER` keep the canonical form. -/
theorem renderFrames_wf {c : Config.Params} {sr : F32} {ch k : Nat} {x : RenderRun} (h : memoryWf x.out = true) :
    memoryWf (renderFrames c sr ch k x).out = true := by
  induction k with
  | zero => exact h
  | succ k ih => exact writeChannels_wf ih _ _ _

end Sys2Proof.Machine
end

