-- ==== Sys2Proof/Laws/PerInstr.lean ====
section
/-! SUPPORT. Per-instruction facts: how many words each command has (30_encoding.md R56, R66). -/

namespace Sys2Proof.Laws.EncodingLength

/-- The encoding of a command has one header word and as many operand words as the decoder reads for its `op`. -/
def Statement (i : Instr) : Prop :=
  ∃ h ops, encode i = h :: ops ∧ ops.length = operandWords (headerOp h)

theorem noteOn (f : F32) : Statement (.noteOn f) := ⟨_, _, rfl, rfl⟩

theorem noteOff (id : Word) : Statement (.noteOff id) := ⟨_, _, rfl, rfl⟩

theorem noteOffFreq (f : F32) : Statement (.noteOffFreq f) := ⟨_, _, rfl, rfl⟩

/-- The `op` field of a header made of three fields. -/
theorem headerOp_mkHeader (op idx : BitVec 8) (zero : BitVec 16) : headerOp (mkHeader op idx zero) = op := by
  apply BitVec.eq_of_toNat_eq
  simp only [headerOp, mkHeader, BitVec.extractLsb'_toNat, BitVec.toNat_append, Nat.shiftRight_eq_div_pow]
  have h : ∀ (n x y : Nat), y < 2 ^ n → (x <<< n) ||| y = x * 2 ^ n + y := fun n x y hy => by
    rw [← Nat.shiftLeft_add_eq_or_of_lt hy, Nat.shiftLeft_eq]
  rw [h 8 _ _ idx.isLt, h 16 _ _ zero.isLt]
  have h1 := op.isLt
  have h2 := idx.isLt
  have h3 := zero.isLt
  omega

theorem setp (sel : RegSel) (v : Word) : Statement (.setp sel v) :=
  ⟨_, _, rfl, by rw [headerOp_mkHeader]; rfl⟩

theorem getp (sel : RegSel) : Statement (.getp sel) :=
  ⟨_, _, rfl, by rw [headerOp_mkHeader]; rfl⟩

theorem render (n c : Word) (sr : F32) : Statement (.render n c sr) := ⟨_, _, rfl, rfl⟩

end Sys2Proof.Laws.EncodingLength
end

