-- ==== Sys2Proof/Laws/State.lean ====
section
/-! SUPPORT. One lemma per field per update of the state, true by `rfl`, so that no proof unfolds an update. -/

namespace Sys2Proof.Machine

@[simp] theorem send_cfg (st v : Word) (s : State) : (send st v s).cfg = s.cfg := rfl
@[simp] theorem send_timbre (st v : Word) (s : State) : (send st v s).timbre = s.timbre := rfl
@[simp] theorem send_status (st v : Word) (s : State) : (send st v s).status = s.status := rfl
@[simp] theorem send_nextId (st v : Word) (s : State) : (send st v s).nextId = s.nextId := rfl
@[simp] theorem send_voices (st v : Word) (s : State) : (send st v s).voices = s.voices := rfl
@[simp] theorem send_out (st v : Word) (s : State) : (send st v s).out = s.out := rfl
@[simp] theorem send_cmd (st v : Word) (s : State) : (send st v s).cmd = s.cmd := rfl
@[simp] theorem send_held (st v : Word) (s : State) : (send st v s).held = s.held := rfl
@[simp] theorem send_rsp (st v : Word) (s : State) : (send st v s).rsp = s.rsp ++ [st, v] := rfl
@[simp] theorem send_rendering (st v : Word) (s : State) : (send st v s).rendering = s.rendering := rfl
@[simp] theorem send_taken (st v : Word) (s : State) : (send st v s).taken = s.taken := rfl
@[simp] theorem send_rspReady (st v : Word) (s : State) : (send st v s).rspReady = s.rspReady := rfl
@[simp] theorem send_rst (st v : Word) (s : State) : (send st v s).rst = s.rst := rfl
@[simp] theorem send_rnd (st v : Word) (s : State) : (send st v s).rnd = s.rnd := rfl

@[simp] theorem answer_cfg (l : List Status) (v : Word) (s : State) : (answer l v s).cfg = s.cfg := rfl
@[simp] theorem answer_timbre (l : List Status) (v : Word) (s : State) : (answer l v s).timbre = s.timbre := rfl
@[simp] theorem answer_status (l : List Status) (v : Word) (s : State) : (answer l v s).status = raiseBits l s.status := rfl
@[simp] theorem answer_nextId (l : List Status) (v : Word) (s : State) : (answer l v s).nextId = s.nextId := rfl
@[simp] theorem answer_voices (l : List Status) (v : Word) (s : State) : (answer l v s).voices = s.voices := rfl
@[simp] theorem answer_out (l : List Status) (v : Word) (s : State) : (answer l v s).out = s.out := rfl
@[simp] theorem answer_cmd (l : List Status) (v : Word) (s : State) : (answer l v s).cmd = s.cmd := rfl
@[simp] theorem answer_held (l : List Status) (v : Word) (s : State) : (answer l v s).held = s.held := rfl
@[simp] theorem answer_rsp (l : List Status) (v : Word) (s : State) : (answer l v s).rsp = s.rsp ++ [statusWord l, v] := rfl
@[simp] theorem answer_rendering (l : List Status) (v : Word) (s : State) : (answer l v s).rendering = s.rendering := rfl
@[simp] theorem answer_taken (l : List Status) (v : Word) (s : State) : (answer l v s).taken = s.taken := rfl
@[simp] theorem answer_rspReady (l : List Status) (v : Word) (s : State) : (answer l v s).rspReady = s.rspReady := rfl
@[simp] theorem answer_rst (l : List Status) (v : Word) (s : State) : (answer l v s).rst = s.rst := rfl
@[simp] theorem answer_rnd (l : List Status) (v : Word) (s : State) : (answer l v s).rnd = s.rnd := rfl

@[simp] theorem consume_cfg (rest : List Word) (s : State) : (consume rest s).cfg = s.cfg := rfl
@[simp] theorem consume_timbre (rest : List Word) (s : State) : (consume rest s).timbre = s.timbre := rfl
@[simp] theorem consume_status (rest : List Word) (s : State) : (consume rest s).status = s.status := rfl
@[simp] theorem consume_nextId (rest : List Word) (s : State) : (consume rest s).nextId = s.nextId := rfl
@[simp] theorem consume_voices (rest : List Word) (s : State) : (consume rest s).voices = s.voices := rfl
@[simp] theorem consume_out (rest : List Word) (s : State) : (consume rest s).out = s.out := rfl
@[simp] theorem consume_cmd (rest : List Word) (s : State) : (consume rest s).cmd = rest := rfl
@[simp] theorem consume_held (rest : List Word) (s : State) : (consume rest s).held = [] := rfl
@[simp] theorem consume_rsp (rest : List Word) (s : State) : (consume rest s).rsp = s.rsp := rfl
@[simp] theorem consume_rendering (rest : List Word) (s : State) : 
    (consume rest s).rendering = ((stream s).head? == some 0x06000000) := rfl
@[simp] theorem consume_taken (rest : List Word) (s : State) : (consume rest s).taken = s.taken := rfl
@[simp] theorem consume_rspReady (rest : List Word) (s : State) : (consume rest s).rspReady = s.rspReady := rfl
@[simp] theorem consume_rst (rest : List Word) (s : State) : (consume rest s).rst = s.rst := rfl
@[simp] theorem consume_rnd (rest : List Word) (s : State) : (consume rest s).rnd = s.rnd := rfl

@[simp] theorem putTimbre_cfg (t : Timbre) (s : State) : (putTimbre t s).cfg = s.cfg := rfl
@[simp] theorem putTimbre_timbre (t : Timbre) (s : State) : (putTimbre t s).timbre = t := rfl
@[simp] theorem putTimbre_status (t : Timbre) (s : State) : (putTimbre t s).status = s.status := rfl
@[simp] theorem putTimbre_nextId (t : Timbre) (s : State) : (putTimbre t s).nextId = s.nextId := rfl
@[simp] theorem putTimbre_voices (t : Timbre) (s : State) : (putTimbre t s).voices = s.voices := rfl
@[simp] theorem putTimbre_out (t : Timbre) (s : State) : (putTimbre t s).out = s.out := rfl
@[simp] theorem putTimbre_cmd (t : Timbre) (s : State) : (putTimbre t s).cmd = s.cmd := rfl
@[simp] theorem putTimbre_held (t : Timbre) (s : State) : (putTimbre t s).held = s.held := rfl
@[simp] theorem putTimbre_rsp (t : Timbre) (s : State) : (putTimbre t s).rsp = s.rsp := rfl
@[simp] theorem putTimbre_rendering (t : Timbre) (s : State) : (putTimbre t s).rendering = s.rendering := rfl
@[simp] theorem putTimbre_taken (t : Timbre) (s : State) : (putTimbre t s).taken = s.taken := rfl
@[simp] theorem putTimbre_rspReady (t : Timbre) (s : State) : (putTimbre t s).rspReady = s.rspReady := rfl
@[simp] theorem putTimbre_rst (t : Timbre) (s : State) : (putTimbre t s).rst = s.rst := rfl
@[simp] theorem putTimbre_rnd (t : Timbre) (s : State) : (putTimbre t s).rnd = s.rnd := rfl

@[simp] theorem resetEngine_cfg (s : State) : (resetEngine s).cfg = s.cfg := rfl
@[simp] theorem resetEngine_timbre (s : State) : (resetEngine s).timbre = State.reset.timbre := rfl
@[simp] theorem resetEngine_status (s : State) : (resetEngine s).status = State.reset.status := rfl
@[simp] theorem resetEngine_nextId (s : State) : (resetEngine s).nextId = State.reset.nextId := rfl
@[simp] theorem resetEngine_voices (s : State) : (resetEngine s).voices = [] := rfl
@[simp] theorem resetEngine_out (s : State) : (resetEngine s).out = [] := rfl
@[simp] theorem resetEngine_cmd (s : State) : (resetEngine s).cmd = s.cmd := rfl
@[simp] theorem resetEngine_held (s : State) : (resetEngine s).held = [] := rfl
@[simp] theorem resetEngine_rsp (s : State) : (resetEngine s).rsp = [] := rfl
@[simp] theorem resetEngine_rendering (s : State) : (resetEngine s).rendering = false := rfl
@[simp] theorem resetEngine_taken (s : State) : (resetEngine s).taken = s.taken := rfl
@[simp] theorem resetEngine_rspReady (s : State) : (resetEngine s).rspReady = s.rspReady := rfl
@[simp] theorem resetEngine_rst (s : State) : (resetEngine s).rst = s.rst := rfl
@[simp] theorem resetEngine_rnd (s : State) : (resetEngine s).rnd = s.rnd := rfl

@[simp] theorem deliver_cfg (s : State) : (deliver s).cfg = s.cfg := by
  unfold deliver; split <;> (try split) <;> rfl
@[simp] theorem deliver_timbre (s : State) : (deliver s).timbre = s.timbre := by
  unfold deliver; split <;> (try split) <;> rfl
@[simp] theorem deliver_status (s : State) : (deliver s).status = s.status := by
  unfold deliver; split <;> (try split) <;> rfl
@[simp] theorem deliver_nextId (s : State) : (deliver s).nextId = s.nextId := by
  unfold deliver; split <;> (try split) <;> rfl
@[simp] theorem deliver_voices (s : State) : (deliver s).voices = s.voices := by
  unfold deliver; split <;> (try split) <;> rfl
@[simp] theorem deliver_out (s : State) : (deliver s).out = s.out := by
  unfold deliver; split <;> (try split) <;> rfl
@[simp] theorem deliver_cmd (s : State) : (deliver s).cmd = s.cmd := by
  unfold deliver; split <;> (try split) <;> rfl
@[simp] theorem deliver_held (s : State) : (deliver s).held = s.held := by
  unfold deliver; split <;> (try split) <;> rfl
@[simp] theorem deliver_rendering (s : State) : (deliver s).rendering = s.rendering := by
  unfold deliver; split <;> (try split) <;> rfl
@[simp] theorem deliver_rspReady (s : State) : (deliver s).rspReady = s.rspReady := by
  unfold deliver; split <;> (try split) <;> rfl
@[simp] theorem deliver_rst (s : State) : (deliver s).rst = s.rst := by
  unfold deliver; split <;> (try split) <;> rfl
@[simp] theorem deliver_rnd (s : State) : (deliver s).rnd = s.rnd := by
  unfold deliver; split <;> (try split) <;> rfl

@[simp] theorem accept_cfg (s : State) : (accept s).cfg = s.cfg := by
  unfold accept; split <;> rfl
@[simp] theorem accept_timbre (s : State) : (accept s).timbre = s.timbre := by
  unfold accept; split <;> rfl
@[simp] theorem accept_status (s : State) : (accept s).status = s.status := by
  unfold accept; split <;> rfl
@[simp] theorem accept_nextId (s : State) : (accept s).nextId = s.nextId := by
  unfold accept; split <;> rfl
@[simp] theorem accept_voices (s : State) : (accept s).voices = s.voices := by
  unfold accept; split <;> rfl
@[simp] theorem accept_out (s : State) : (accept s).out = s.out := by
  unfold accept; split <;> rfl
@[simp] theorem accept_rsp (s : State) : (accept s).rsp = s.rsp := by
  unfold accept; split <;> rfl
@[simp] theorem accept_rendering (s : State) : (accept s).rendering = s.rendering := by
  unfold accept; split <;> rfl
@[simp] theorem accept_taken (s : State) : (accept s).taken = s.taken := by
  unfold accept; split <;> rfl
@[simp] theorem accept_rspReady (s : State) : (accept s).rspReady = s.rspReady := by
  unfold accept; split <;> rfl
@[simp] theorem accept_rst (s : State) : (accept s).rst = s.rst := by
  unfold accept; split <;> rfl
@[simp] theorem accept_rnd (s : State) : (accept s).rnd = s.rnd := by
  unfold accept; split <;> rfl

/-- A ready host takes the oldest waiting word. -/
theorem deliver_ready {s : State} {w : Word} {ws : List Word} (h : s.rspReady = true) (hr : s.rsp = w :: ws) :
    deliver s = { s with rsp := ws, taken := s.taken ++ [w] } := by simp [deliver, h, hr]

/-- A host that is not ready takes nothing. -/
theorem deliver_not_ready {s : State} (h : s.rspReady = false) : deliver s = s := by
  unfold deliver; split <;> simp [h]

/-- A transfer on `rsp` neither loses nor reorders a word. -/
theorem deliver_stream (s : State) : (deliver s).taken ++ (deliver s).rsp = s.taken ++ s.rsp := by
  unfold deliver; split <;> (try split) <;> simp_all

/-- Where no word is offered none is accepted. -/
theorem accept_nothing {s : State} (h : s.cmd = []) : accept s = s := by simp [accept, h]

/-- The next word offered is accepted. -/
theorem accept_word {s : State} {w : Word} {ws : List Word} (h : s.cmd = w :: ws) :
    accept s = { s with held := s.held ++ [w], cmd := ws } := by simp [accept, h]

/-- A transfer on `cmd` neither loses nor reorders a word. -/
@[simp] theorem accept_stream (s : State) : stream (accept s) = stream s := by
  unfold accept stream; split <;> simp_all

@[simp] theorem reject_eq (st : Status) (s : State) : reject st s = answer [st] 0 s := rfl

@[simp] theorem answerBadCmd_eq (h : Word) (s : State) : answerBadCmd h s = answer [.badCmd] h s := rfl

@[simp] theorem raiseBits_nil (w : Word) : raiseBits [] w = w := rfl

@[simp] theorem raiseBits_cons (st : Status) (l : List Status) (w : Word) :
    raiseBits (st :: l) w = raiseBits l (w ||| statusBit st) := rfl

@[simp] theorem raiseBits_append (l k : List Status) (w : Word) :
    raiseBits (l ++ k) w = raiseBits k (raiseBits l w) := by simp [raiseBits]

@[simp] theorem raisedIf_true (st : Status) : raisedIf true st = [st] := rfl

@[simp] theorem raisedIf_false (st : Status) : raisedIf false st = [] := rfl

end Sys2Proof.Machine
end

