-- ==== Sys2Proof/Laws/Step.lean ====
section
/-! SUPPORT. What a step and each shared operation can do, said once: the inversion lemma of `step`, and the case lemmas
of the meanings. -/

namespace Sys2Proof.Machine

/-- Everything a step can do: it is held in reset, it waits for the host, it waits for words, it answers an illegal header,
or it executes an instruction. -/
theorem step_cases (s : State) :
    (s.rst = true ∧ step s = .next (resetEngine s)) ∨
    (s.rst = false ∧ s.rsp ≠ [] ∧ step s = .next (deliver s)) ∨
    (canStart s = true ∧ decode (stream s) = .incomplete ∧ step s = .next (accept s)) ∨
    (∃ why h rest, canStart s = true ∧ decode (stream s) = .rejected why h rest ∧
      step s = .next (answerBadCmd h (consume rest s))) ∨
    (∃ i rest, canStart s = true ∧ decode (stream s) = .instr i rest ∧ step s = exec i (consume rest s)) := by
  unfold step fetch canStart stalled rspValid
  cases hr : s.rst with
  | true => simp
  | false =>
    by_cases hs : s.rsp = []
    · cases hd : decode (stream s) with
      | incomplete => simp [hs]
      | instr i rest => exact .inr (.inr (.inr (.inr ⟨i, rest, by simp [hs]⟩)))
      | rejected why h rest => exact .inr (.inr (.inr (.inl ⟨why, h, rest, by simp [hs]⟩)))
    · simp [hs]

/-- A command starts from `started`. -/
theorem consume_eq (rest : List Word) (s : State) : consume rest s = started s rest := rfl

/-- The engine can start a command exactly when its ready line is up. -/
theorem canStart_eq (s : State) : canStart s = cmdReady s := by
  unfold canStart cmdReady stalled rspValid
  cases s.rsp <;> rfl

/-- The decided comparison: where it is not open it is that of the stored numbers. -/
theorem reaches_closed {n : Config.NumFormat} {site : Config.TieSite} {a b : Tracked} (h : tieOpen n a b = false) :
    reaches n site a b = b.val.le a.val := by simp [reaches, h]

/-- The decided comparison: where it is not open it is that of the stored numbers. -/
theorem below_closed {n : Config.NumFormat} {site : Config.TieSite} {a b : Tracked} (h : tieOpen n a b = false) :
    below n site a b = a.val.lt b.val := by simp [below, h]

/-- Of two numbers one reaches the other or is below it, whatever the free value says. -/
theorem below_of_not_reaches {n : Config.NumFormat} {site : Config.TieSite} {a b : Tracked} (ha : a.val.isNum = true)
    (hb : b.val.isNum = true) (h : reaches n site a b = false) : below n site a b = true := by
  unfold reaches at h
  unfold below
  cases ht : tieOpen n a b with
  | true => simp_all
  | false => simp_all [Val.le]

/-- What an open comparison says of its sides: both are finite, so is their quotient, and neither is 0 over the reals. -/
theorem tieOpen_finite {n : Config.NumFormat} {a b : Tracked} (h : tieOpen n a b = true) :
    a.val.finite = true ∧ b.val.finite = true ∧ (n.div a.val b.val).finite = true ∧ a.real.num ≠ 0 ∧ b.real.num ≠ 0 := by
  simp only [tieOpen, Bool.and_eq_true, bne_iff_ne] at h
  exact ⟨h.1.1.1.1.2, h.1.1.1.2, h.1.1.2, h.1.1.1.1.1.1, h.1.1.1.1.1.2⟩

/-- A side that is 0 over the reals leaves nothing open. -/
theorem tieOpen_zero {n : Config.NumFormat} {a b : Tracked} (h : a.real.num = 0) : tieOpen n a b = false := by
  simp [tieOpen, h]

/-- What a timed stage can do: end at its target, or go on. -/
theorem envRamp_cases (n : Config.NumFormat) (target : Val) (len : F32) (dt : Tracked) (next : Stage) (e : Env) :
    (reaches n .elapsed (.add n e.elapsed dt) (.load n len) = true ∧ envRamp n target len dt next e
      = { stage := next, amp := target, start := target, elapsed := .zero }) ∨
    (reaches n .elapsed (.add n e.elapsed dt) (.load n len) = false ∧ envRamp n target len dt next e = { e with
      elapsed := .add n e.elapsed dt
      amp := n.add e.start (n.mul (n.sub target e.start) (n.div (n.add e.elapsed.val dt.val) (n.load len))) }) := by
  have e1 : (Tracked.add n e.elapsed dt).val = n.add e.elapsed.val dt.val := rfl
  unfold envRamp
  cases h : reaches n .elapsed (.add n e.elapsed dt) (.load n len) with
  | true => exact .inl ⟨rfl, if_pos h⟩
  | false => exact .inr ⟨rfl, (if_neg (by rw [h]; exact Bool.false_ne_true)).trans (by rw [e1])⟩

/-- What the first part of the grain gate can do: end the grain and roll the next, or go on. -/
theorem grainAdvance_cases (c : Config.Params) (t : Timbre) (step : Tracked) (g : Grain) (r : Rnd) :
    (reaches c.num .grain (.add c.num g.timer step) g.len = true ∧ grainAdvance c t step g r
      = ({ (grainRoll c t g r).1 with timer := .zero }, (grainRoll c t g r).2)) ∨
    (reaches c.num .grain (.add c.num g.timer step) g.len = false ∧ grainAdvance c t step g r
      = ({ g with timer := .add c.num g.timer step }, r)) := by
  unfold grainAdvance
  cases h : reaches c.num .grain (.add c.num g.timer step) g.len with
  | true => exact .inl ⟨rfl, if_pos h⟩
  | false => exact .inr ⟨rfl, if_neg (by rw [h]; exact Bool.false_ne_true)⟩

/-- What `NOTE_ON` can do: reject, create, or retarget. -/
theorem execNoteOn_cases (f : F32) (s : State) :
    (Fp.finite f = false ∧ execNoteOn f s = .next (reject .badValue s)) ∨
    (Fp.finite f = true ∧ s.voices.length < s.cfg.nvoices ∧ execNoteOn f s =
      .next (answer (raisedIf (idWraps s) .idWrap) s.nextId
        { s with nextId := bumpId s, voices := s.voices ++ [(create s f).1], rnd := (create s f).2 })) ∨
    (Fp.finite f = true ∧ s.cfg.nvoices ≤ s.voices.length ∧ execNoteOn f s =
      .next (answer (raisedIf (idWraps s) .idWrap ++ [.stolen]) s.nextId
        { s with nextId := bumpId s, voices := retarget s.nextId f s.voices })) := by
  unfold execNoteOn
  cases hf : Fp.finite f with
  | false => simp
  | true =>
    by_cases hl : s.voices.length < s.cfg.nvoices
    · simp [hl]
    · simp [hl]; omega

/-- What `NOTE_OFF` can do: release one voice, or miss. -/
theorem execNoteOff_cases (id : Word) (s : State) :
    (hasId id s.voices = true ∧
      execNoteOff id s = .next (answer [] 1 { s with voices := releaseId id s.voices })) ∨
    (hasId id s.voices = false ∧ execNoteOff id s = .next (answer [.miss] 0 s)) := by
  unfold execNoteOff; cases hasId id s.voices <;> simp

/-- What `NOTE_OFF_FREQ` can do: reject, miss, or release the matching voices. -/
theorem execNoteOffFreq_cases (f : F32) (s : State) :
    (Fp.finite f = false ∧ execNoteOffFreq f s = .next (reject .badValue s)) ∨
    (Fp.finite f = true ∧ countMatches s f = 0 ∧ execNoteOffFreq f s = .next (answer [.miss] 0 s)) ∨
    (Fp.finite f = true ∧ countMatches s f ≠ 0 ∧ execNoteOffFreq f s =
      .next (answer [] (BitVec.ofNat 32 (countMatches s f))
        { s with voices := releaseFreq s.cfg f s.voices })) := by
  unfold execNoteOffFreq
  cases hf : Fp.finite f with
  | false => simp
  | true => by_cases hn : countMatches s f = 0 <;> simp [hn]

/-- What `SETP` of a register other than `STATUS` can do: reject, or write the timbre. -/
theorem setReg_cases (r : Reg) (v : Word) (s : State) :
    (∃ st, writeReg s.cfg s.timbre r v = .rejected st ∧ setReg r v s = reject st s) ∨
    (∃ t b, writeReg s.cfg s.timbre r v = .written t b ∧
      setReg r v s = answer (raisedIf b .clamped) (readReg (putTimbre t s) r) (putTimbre t s)) := by
  unfold setReg
  cases h : writeReg s.cfg s.timbre r v with
  | rejected st => exact .inl ⟨st, rfl, rfl⟩
  | written t b => exact .inr ⟨t, b, rfl, rfl⟩

/-- What `SETP` can do. -/
theorem execSetp_cases (sel : RegSel) (v : Word) (s : State) :
    (∃ b, sel = .reserved b ∧ execSetp sel v s = .next (reject .badReg s)) ∨
    (sel = .reg .status ∧ execSetp sel v s = .next (setStatus v s)) ∨
    (∃ r, r ≠ .status ∧ sel = .reg r ∧ execSetp sel v s = .next (setReg r v s)) := by
  cases sel with
  | reserved b => exact .inl ⟨b, rfl, rfl⟩
  | reg r =>
    by_cases h : r = .status
    · subst h; exact .inr (.inl ⟨rfl, rfl⟩)
    · refine .inr (.inr ⟨r, h, rfl, ?_⟩)
      cases r <;> first | rfl | exact absurd rfl h

/-- What `GETP` can do. -/
theorem execGetp_cases (sel : RegSel) (s : State) :
    (∃ b, sel = .reserved b ∧ execGetp sel s = .next (reject .badReg s)) ∨
    (∃ r, sel = .reg r ∧ execGetp sel s = .next (answer [] (readReg s r) s)) := by
  cases sel with
  | reserved b => exact .inl ⟨b, rfl, rfl⟩
  | reg r => exact .inr ⟨r, rfl, rfl⟩

/-- What `RENDER` can do: reject, or render. -/
theorem execRender_cases (n c : Word) (sr : F32) (s : State) :
    (Fp.finite sr = false ∧ execRender n c sr s = .next (reject .badValue s)) ∨
    (Fp.finite sr = true ∧ execRender n c sr s =
      .next (answer
        (raisedIf (renderOperands s.cfg n c sr).clamped .clamped
          ++ raisedIf (renderRun s (renderOperands s.cfg n c sr)).silenced .silenced)
        (BitVec.ofNat 32 (renderOperands s.cfg n c sr).frames)
        { s with
          voices := compact (renderRun s (renderOperands s.cfg n c sr)).voices
          out := (renderRun s (renderOperands s.cfg n c sr)).out
          rnd := (renderRun s (renderOperands s.cfg n c sr)).rnd })) := by
  unfold execRender
  cases hf : Fp.finite sr <;> simp

end Sys2Proof.Machine
end

