-- ==== Sys2Proof/Tests/Slice0.lean ====
section
/-! SUPPORT. Tests. Expected results are the spec's own (95_test_vectors.md, the examples of the rules) or worked by hand
from it; the witnesses show that the hypotheses of the statements can be met. -/

namespace Sys2Proof.Tests

open Sys2Proof Sys2Proof.Machine

/-! ### Well-formedness: the check on register numbers refuses a named number carried as reserved (R68) -/

theorem test_wf_refuses_named_as_reserved : (Instr.getp (.reserved 0x11)).wf = false := by decide
theorem test_wf_refuses_status_as_reserved : (Instr.setp (.reserved 0x20) 0).wf = false := by decide
theorem test_wf_refuses_last_named_as_reserved : (Instr.getp (.reserved 0x23)).wf = false := by decide
theorem test_wf_accepts_reserved_ends :
    ([0x12, 0x1F, 0x24, 0xFF] : List (BitVec 8)).all (fun b => (Instr.getp (.reserved b)).wf) = true := by decide

/-! ### Decoding, from the words of R59 to R63 and V-ENC-1 -/

theorem test_decode_note_on : decode [0x01000000, 0x43DC0000] = .instr (.noteOn 0x43DC0000) [] := by decide
theorem test_decode_note_off : decode [0x02000000, 0x00000003, 0x05000000] = .instr (.noteOff 3) [0x05000000] := by decide
theorem test_decode_note_off_freq : decode [0x03000000, 0x43DC0000] = .instr (.noteOffFreq 0x43DC0000) [] := by decide
theorem test_decode_setp :
    decode [0x04030000, 0x3C23D70A] = .instr (.setp (.reg .envAttack) 0x3C23D70A) [] := by decide
theorem test_decode_getp : decode [0x05210000] = .instr (.getp (.reg .activeCount)) [] := by decide
theorem test_decode_getp_reserved : decode [0x05120000] = .instr (.getp (.reserved 0x12)) [] := by decide
theorem test_decode_render :
    decode [0x06000000, 0x100, 2, 0x472C4400] = .instr (.render 256 2 0x472C4400) [] := by decide
theorem test_decode_bytes_little_endian :
    decodeBytes [0x03, 0x00, 0x00, 0x00] = .rejected .reservedOp 3 [] ∧
      decodeBytes [0, 0, 0x21, 5] = .instr (.getp (.reg .activeCount)) [] := by decide
theorem test_decode_reserved_op_is_one_word :
    decode [0x09000000, 0x43DC0000] = .rejected .reservedOp 0x09000000 [0x43DC0000] := by decide
theorem test_decode_nonzero_idx_consumes :
    decode [0x01010000, 0x43DC0000, 7] = .rejected .nonZeroField 0x01010000 [7] := by decide
theorem test_decode_nonzero_zero_consumes :
    decode [0x06000001, 1, 2, 3, 4] = .rejected .nonZeroField 0x06000001 [4] := by decide
theorem test_decode_waits : decode [0x06000000, 1, 2] = .incomplete := by decide
theorem test_table_word : decodeTableWord 32 0x04000000 = some (.setp (.reg .oscA) 0) ∧
    decodeTableWord 32 0x06000000 = some (.render 0 0 0) ∧ decodeTableWord 32 0x05000000 = some (.getp (.reg .oscA)) := by
  decide
theorem test_encode_round_trip_at_the_ends :
    (([0x00, 0x11, 0x12, 0x1F, 0x20, 0x23, 0x24, 0xFF] : List (BitVec 8)).all fun b =>
      decode (encode (.getp (selOfIdx b))) == .instr (.getp (selOfIdx b)) [] && (selOfIdx b).wf) = true := by decide

/-! ### Arithmetic of binary32: hand-worked patterns -/

theorem test_add_ties_to_even : Fp.add 0x4B800000 0x3F800000 = 0x4B800000 := by decide +kernel
theorem test_add_cancels_to_plus_zero : Fp.sub 0x3F800000 0x3F800000 = 0 := by decide +kernel
theorem test_mul_overflows : Fp.mul 0x7F7FFFFF 0x40000000 = 0x7F800000 := by decide +kernel
theorem test_mul_underflows_to_even : Fp.mul 0x00000001 0x3F000000 = 0 := by decide +kernel
theorem test_div_third : Fp.div 0x3F800000 0x40400000 = 0x3EAAAAAB := by decide +kernel
theorem test_div_by_zero : Fp.div 0xBF800000 0 = 0xFF800000 := by decide +kernel
theorem test_floor_negative : Fp.floor 0xBE800000 = 0xBF800000 := by decide +kernel
theorem test_lt_zero_signs : Fp.lt 0x80000000 0 = false ∧ Fp.le 0 0x80000000 = true := by decide

/-! ### Units -/

/-- A word as a stored number of the reference format. -/
abbrev fv (w : F32) : Val := .f32 w

/-- V-OSC-1, SAW and TRIANGLE columns −π/2 and 7π/4 need no sine. -/
theorem test_saw_below_zero : wave Config.reference .saw (fv 0xBFC90FDB) = fv 0x3F000000 := by decide +kernel
theorem test_triangle_peak : wave Config.reference .triangle (fv Fp.pi) = fv 0x3F800000 := by decide +kernel

/-- V-OSC-3: (SINE, SAW, …) at mix 1 needs no sine only through the blend; (SAW, TRIANGLE, 0.5, π/4) is −0.625
(V-VOICE-3). -/
theorem test_blend_half : blend Config.reference .saw .triangle (fv 0x3F000000) (fv 0x3F490FDB) = fv 0xBF200000 := by
  decide +kernel

/-- The timbre of V-ENV-1 to V-ENV-5. -/
def envTimbre : Timbre :=
  { Timbre.reset with envAttack := 0x3C000000, envDecay := 0x3B800000, envSustain := 0x3F000000, envRelease := 0x3B800000 }

/-- A stored number that is exact. -/
def ex (w : F32) : Tracked := .ofWord w

/-- 1/1024 s. -/
def dt : Tracked := ex 0x3A800000

/-- V-ENV-1: amp 0.875 on tick 7, Decay at 1 on tick 8, Sustain at 0.5 on tick 12. -/
theorem test_env_attack_then_decay :
    envTicks .binary32 envTimbre dt 7 (envOn envInit) = ⟨.attack, fv 0x3F600000, fv 0, ex 0x3BE00000⟩ ∧
    envTicks .binary32 envTimbre dt 8 (envOn envInit) = ⟨.decay, fv 0x3F800000, fv 0x3F800000, ex 0⟩ ∧
    envTicks .binary32 envTimbre dt 12 (envOn envInit) = ⟨.sustain, fv 0x3F000000, fv 0x3F000000, ex 0⟩ := by
  decide +kernel

/-- V-ENV-5: a second release from 0.25: 0.1875 on its first tick, Idle at 0 on its fourth. -/
theorem test_env_release :
    (envTicks .binary32 envTimbre dt 1 (envOff ⟨.release, fv 0x3E800000, fv 0x3F000000, ex 0x3B000000⟩)).amp
      = fv 0x3E400000 ∧
    envTicks .binary32 envTimbre dt 4 (envOff ⟨.release, fv 0x3E800000, fv 0x3F000000, ex 0x3B000000⟩)
      = ⟨.idle, fv 0, fv 0, ex 0⟩ := by
  decide +kernel

/-- R133's example: rate 20, duty 0.5, jitter 0.5, u1 = 1, u2 = −1: `jd` 0.25 of a grain of 1/30 s. -/
theorem test_grain_roll_jitter :
    grainOf Config.reference { Timbre.reset with grainJitter := 0x3F000000 } Fp.one Fp.negOne grainInit
      = ⟨ex 0, ⟨fv 0x3D088889, ⟨1, 30⟩⟩, ⟨fv 0x3C088889, ⟨1, 120⟩⟩⟩ := by decide +kernel

/-- V-GRAIN-1: rate 256 at 1024 Hz: the fourth frame ends the grain and passes. -/
theorem test_grain_end_of_grain :
    grainAdvance Config.reference { Timbre.reset with grainRate := 0x43800000 } dt
      ⟨ex 0x3B400000, ex 0x3B800000, ex 0x3B000000⟩ ⟨[0, 0], 5⟩
      = (⟨ex 0, ex 0x3B800000, ex 0x3B000000⟩, ⟨[], 7⟩) ∧
    gated .binary32 ⟨ex 0x3B000000, ex 0x3B800000, ex 0x3B000000⟩ .one = .zero := by decide +kernel

/-- V-FLT-1: the first stages of the impulse with p = 0.4 are 0.4 and 0.16, and `oldx` is the input. -/
theorem test_ladder_taps :
    (ladderTaps .binary32 ⟨fv 0x3ECCCCCD, fv 0xBE704434, fv 0⟩ .one ladderInit).tap0 = ⟨fv 0x3F800000, fv 0x3ECCCCCD⟩ ∧
    (ladderTaps .binary32 ⟨fv 0x3ECCCCCD, fv 0xBE704434, fv 0⟩ .one ladderInit).tap1
      = ⟨fv 0x3ECCCCCD, fv 0x3E23D70B⟩ := by decide +kernel

/-- V-FLT-3: BP is `1 − 2·LP` in two subtractions. -/
theorem test_mode_bp : modeOutput .binary32 .bp .one (fv 0x3E800000) = fv 0x3F000000 := by decide +kernel

/-! ### Commands -/

/-- The state a command leaves. -/
def after (i : Instr) (s : State) : State := match exec i s with | .next t => t | _ => s

/-- A voice: id, frequency, envelope; the reset timbre, everything else 0. -/
def voice (id : Word) (f : F32) (e : Env) : Voice :=
  { id := id, freq := f, phase := .zero, t := Timbre.reset, env := e, flt := ladderInit,
    gr := ⟨ex 0, ⟨fv 0x3D4CCCCD, ⟨1, 20⟩⟩, ⟨fv 0x3CCCCCCD, ⟨1, 40⟩⟩⟩ }

/-- A voice in Sustain at 0.7. -/
def sustained (id : Word) (f : F32) : Voice := voice id f ⟨.sustain, fv 0x3F333333, fv 0x3F333333, ex 0⟩

/-- The pool of V-CMD-3: `NVOICES` = 2, ids 1 (220 Hz) and 2 (330 Hz). -/
def fullPool : State :=
  { State.reset with
    cfg := { Config.reference with nvoices := 2 }
    nextId := 3
    voices := [sustained 1 0x435C0000, sustained 2 0x43A50000] }

/-- V-CMD-1. -/
theorem test_note_on_creates : (after (.noteOn 0x43DC0000) State.reset).rsp = [0, 1] ∧
    (after (.noteOn 0x43DC0000) State.reset).nextId = 2 ∧
    ((after (.noteOn 0x43DC0000) State.reset).voices.map (·.id)) = [1] ∧
    (after (.noteOn 0x43DC0000) State.reset).rnd.count = 2 := by decide +kernel

/-- V-CMD-3. -/
theorem test_note_on_steals : (after (.noteOn 0x43DC0000) fullPool).rsp = [4, 3] ∧
    ((after (.noteOn 0x43DC0000) fullPool).voices.map fun v => (v.id, v.freq, v.env.stage))
      = [(3, 0x43DC0000, .attack), (2, 0x43A50000, .sustain)] := by decide +kernel

/-- R154's example: Release with start 0.7. -/
theorem test_note_off_hit : (after (.noteOff 2) fullPool).rsp = [0, 1] ∧
    ((after (.noteOff 2) fullPool).voices.map (·.env))
      = [⟨.sustain, fv 0x3F333333, fv 0x3F333333, ex 0⟩, ⟨.release, fv 0x3F333333, fv 0x3F333333, ex 0⟩] := by
  decide +kernel

/-- V-CMD-5. -/
theorem test_note_off_miss : after (.noteOff 0) fullPool = { fullPool with status := 4, rsp := [1, 0] } := by
  decide +kernel

/-- V-CMD-4: 330.005 matches 330 within 0.01; 330.02 does not. -/
theorem test_note_off_freq : (after (.noteOffFreq 0x43A500A4) fullPool).rsp = [0, 1] ∧
    (after (.noteOffFreq 0x43A5028F) fullPool).rsp = [1, 0] := by decide +kernel

/-- P5: `SETP ENV_ATTACK, 0.0` answers `CLAMPED`, 0x3A83126F. -/
theorem test_setp_clamps : (after (.setp (.reg .envAttack) 0) State.reset).rsp = [2, 0x3A83126F] ∧
    (after (.setp (.reg .envAttack) 0) State.reset).status = 1 ∧
    (after (.setp (.reg .envAttack) 0) State.reset).timbre.envAttack = 0x3A83126F := by decide +kernel

/-- V-CMD-6, R156: BP is stored, code 3 is rejected; −0 is in range of a register that starts at 0. -/
theorem test_setp_codes : (after (.setp (.reg .fltMode) 2) State.reset).timbre.fltMode = .bp ∧
    (after (.setp (.reg .fltMode) 3) State.reset).rsp = [0x82, 0] ∧
    (after (.setp (.reg .lfoRate) 0x80000000) State.reset).rsp = [0, 0x80000000] := by decide +kernel

/-- V-ENC-1 and R158's example. -/
theorem test_getp : (after (.getp (.reg .nvoices)) State.reset).rsp = [0, 0x10] ∧
    (after (.getp (.reserved 0x12)) State.reset).rsp = [0x81, 0] ∧
    (after (.getp (.reg .envSustain)) State.reset).rsp = [0, 0x3F333333] := by decide +kernel

/-- V-CMD-7, operand handling: `RENDER 4096, 2, 44100` and `RENDER 1000, 9, 44100` and `RENDER 4, 1, 500`. -/
theorem test_render_operands :
    renderOperands Config.reference 4096 2 0x472C4400 = ⟨2048, 2, 0x472C4400, true⟩ ∧
    renderOperands Config.reference 1000 9 0x472C4400 = ⟨512, 8, 0x472C4400, true⟩ ∧
    renderOperands Config.reference 4 1 0x43FA0000 = ⟨4, 1, 0x447A0000, true⟩ ∧
    renderOperands Config.reference 256 2 0x472C4400 = ⟨256, 2, 0x472C4400, false⟩ := by decide +kernel

/-- V-CMD-7: an empty pool renders 0x00000000; the word above is untouched. -/
theorem test_render_empty : (after (.render 1 2 0x44800000) State.reset).rsp = [0, 1] ∧
    readWord (after (.render 1 2 0x44800000) State.reset).out 1 = some 0 ∧
    readWord (after (.render 1 2 0x44800000) State.reset).out 2 = none := by decide +kernel

/-- P5's `STATUS`: the seventh command leaves 0xE7, clearing 7 leaves 0xE0. -/
theorem test_status_bits : raiseBits [.clamped, .badKind, .badReg, .badCmd, .badValue, .clamped, .miss] 0 = 0xE7 ∧
    clearStatus 7 0xE7 = 0xE0 := by decide

/-- V-ENC-1: a step answers the reserved header 0xFF123456. -/
theorem test_step_bad_cmd : step { State.reset with cmd := [0xFF123456, 0x05210000] }
    = .next { State.reset with cmd := [0x05210000], rsp := [0x80, 0xFF123456], status := 0x20 } := by rfl

/-- The command of `withFetchWord` is the one the next step executes. -/
theorem test_with_fetch_word (s : State) :
    step (s.withFetchWord 32 0x05210000)
      = exec (.getp (.reg .activeCount)) (started (s.withFetchWord 32 0x05210000) s.cmd) := by
  have hd : decode (stream (s.withFetchWord 32 0x05210000)) = .instr (.getp (.reg .activeCount)) s.cmd := rfl
  obtain h | h | h | ⟨_, _, _, h⟩ | ⟨i, rest, -, h2, h3⟩ := step_cases (s.withFetchWord 32 0x05210000)
  · exact absurd h.1 (by simp [State.withFetchWord])
  · exact absurd h.2.1 (by simp [State.withFetchWord])
  · rw [hd] at h; exact absurd h.2.1 (by simp)
  · rw [hd] at h; exact absurd h.2.1 (by simp)
  · rw [hd] at h2; cases h2; exact h3

/-- R66, R195: the words of a `RENDER` that is not whole are accepted one by one, and lost in reset. -/
theorem test_accepts_word_by_word :
    step { State.reset with cmd := [0x06000000, 7] } = .next { State.reset with held := [0x06000000], cmd := [7] } ∧
    step { State.reset with held := [0x06000000], cmd := [7], rst := true }
      = .next { State.reset with cmd := [7], rst := true } := ⟨rfl, rfl⟩

/-- R8, R207: a response is taken word by word, and the next command waits for the second word. -/
theorem test_response_word_by_word :
    step { State.reset with cmd := [0x05210000], rsp := [0, 5] }
      = .next { State.reset with cmd := [0x05210000], rsp := [5], taken := [0] } := rfl

/-- R200, U12, U10: no word is read while a `RENDER` is offered, half accepted or not answered, nor past `OUTCAP`. -/
theorem test_host_read_refused :
    hostReadOut { State.reset with cmd := [0x05000000, 0x06000000] } 0 = .refused .outDuringRender ∧
    hostReadOut { State.reset with held := [0x06000000, 1] } 0 = .refused .outDuringRender ∧
    hostReadOut { State.reset with rendering := true, rsp := [1] } 0 = .refused .outDuringRender ∧
    hostReadOut State.reset 4096 = .refused .outRange ∧ hostReadOut State.reset 4095 = .refused .outUnwritten ∧
    renderUnderWay { State.reset with cmd := [0x04000000, 0x06000000] } = false := ⟨rfl, rfl, rfl, rfl, rfl, rfl⟩

/-- L1-9: at 44100 Hz the 441st frame of an attack of 0.01 s may end it or not; the 440th may not. -/
theorem test_tie_at_441 :
    tieOpen .binary32 ⟨fv 0x3C23D705, ⟨441, 44100⟩⟩ (ex 0x3C23D70A) = true ∧
    tieOpen .binary32 ⟨fv 0x3C23D70F, ⟨441, 44100⟩⟩ (ex 0x3C23D70A) = true ∧
    tieOpen .binary32 ⟨fv 0x3C23735C, ⟨440, 44100⟩⟩ (ex 0x3C23D70A) = false ∧
    reaches .binary32 .elapsed ⟨fv 0x3C23735C, ⟨440, 44100⟩⟩ (ex 0x3C23D70A) = false := by decide +kernel

/-- R133: at 44100 Hz and rate 20 the end of a grain is a tie on frame 2205; a gate that is open for the whole grain either ends
it or passes. -/
theorem test_tie_of_an_open_gate : tieOpen .binary32 ⟨fv 0x3D4CCCC0, ⟨2205, 44100⟩⟩ ⟨fv 0x3D4CCCCD, ⟨1, 20⟩⟩ = true ∧
    (reaches .binary32 .grain ⟨fv 0x3D4CCCC0, ⟨2205, 44100⟩⟩ ⟨fv 0x3D4CCCCD, ⟨1, 20⟩⟩
      || below .binary32 .grain ⟨fv 0x3D4CCCC0, ⟨2205, 44100⟩⟩ ⟨fv 0x3D4CCCCD, ⟨1, 20⟩⟩) = true := by
  have h : tieOpen .binary32 ⟨fv 0x3D4CCCC0, ⟨2205, 44100⟩⟩ ⟨fv 0x3D4CCCCD, ⟨1, 20⟩⟩ = true := by decide +kernel
  refine ⟨h, ?_⟩
  simp only [reaches, below, h, if_true]
  cases Config.freeTie _ _ _ <;> rfl

/-- R134: the frame that ends a grain is judged with `timer` 0 and passes unless the open time is 0, be it the smallest word, whose
exact value 2^-150 rounds to 0. -/
theorem test_end_of_grain_passes :
    gated .binary32 ⟨.zero, ⟨fv 0x3E2AAAAB, ⟨1, 6⟩⟩, ⟨fv 0x00000001, ⟨1, 2 ^ 150⟩⟩⟩ .one = .one ∧
    gated .binary32 ⟨.zero, ⟨fv 0x3E2AAAAB, ⟨1, 6⟩⟩, .zero⟩ .one = .zero := by decide +kernel

/-- R57: in another format a word is the number it denotes, −0 being 0; what is not finite stays so. -/
theorem test_load : (Config.NumFormat.other 0).load 0x3FC00000 = .num ⟨3, 2⟩ ∧
    (Config.NumFormat.other 0).load 0x80000000 = (Config.NumFormat.other 0).load 0 ∧
    ((Config.NumFormat.other 0).load 0x7FC00000).finite = false := by decide +kernel

/-- R10: `floor` in another format, on both sides of 0 and of a word. -/
theorem test_floor_of_another_format : (Config.NumFormat.other 0).floor (.num ⟨-1, 4⟩) = .num ⟨-1, 1⟩ ∧
    (Config.NumFormat.other 0).floor (.num ⟨7, 3⟩) = .num ⟨2, 1⟩ ∧
    (Config.NumFormat.other 0).floor (fv 0xBF800000) = .num ⟨-1, 1⟩ := by decide +kernel

/-- R155: `|Δf|` strictly below `FREQ_TOL` that rounds to it matches, as over the reals. -/
theorem test_freq_at_tolerance : freqMatches Config.reference 0x2B8CBCCC (sustained 1 0x3C23D70A) = true := by
  decide +kernel

/-- U4, R147: a voice whose last stage is infinite is silenced, though its output is clamped to a bound. -/
theorem test_infinite_stage_is_silent :
    silent (.clamp (fv 0x7F800000) .negOne .one) { ladderInit with tap3 := ⟨.zero, fv 0x7F800000⟩ } = true ∧
    Val.clamp (fv 0x7F800000) .negOne .one = .one ∧ silent .one ladderInit = false := by decide +kernel

/-- R6, R10: order and clamp of numbers that no binary32 word holds: 1/3 between its two neighbours, 4/3 above 1. -/
theorem test_numbers_of_another_format : (fv 0x3EAAAAAA).lt (.num ⟨1, 3⟩) = true ∧ (fv 0x3EAAAAAB).lt (.num ⟨1, 3⟩) = false ∧
    Val.clamp01 (.num ⟨4, 3⟩) = .one ∧ Val.clamp01 (.num ⟨1, 3⟩) = .num ⟨1, 3⟩ ∧
    (Val.num ⟨1, 3⟩).lt (fv 0xFF800000) = false ∧ (Val.num ⟨1, 3⟩).le (fv 0x7FC00000) = false := by decide +kernel

/-- V-ENV-1: with exact sums the end of a stage is decided. -/
theorem test_no_tie_when_exact : tieOpen .binary32 (ex 0x3C000000) (ex 0x3C000000) = false ∧
    reaches .binary32 .elapsed (ex 0x3C000000) (ex 0x3C000000) = true := by decide +kernel

/-- R79's remaining corner phases, 3π/2 and π/4, and R78's. -/
theorem test_wave_corners : wave Config.reference .triangle (fv Fp.threeHalfPi) = .zero ∧
    wave Config.reference .triangle (fv 0x3F490FDB) = fv 0xBF000000 ∧ wave Config.reference .saw (fv Fp.pi) = .zero := by
  decide +kernel

/-- R73: `CLEAR_STATUS` and `SET_TIMBRE` in words, by the encodings of R62. -/
theorem test_pseudo_commands :
    encodeAll pseudoClearStatus = [0x04200000, 0xFFFFFFFF]
    ∧ encodeAll (pseudoSetTimbre [(.oscA, 1), (.envAttack, 0x3C23D70A)])
      = [0x04000000, 0x00000001, 0x04030000, 0x3C23D70A]
    ∧ encodeAll (pseudoNoteOffByFrequency 0x43DC0000) = [0x03000000, 0x43DC0000] := by decide

end Sys2Proof.Tests
end

