-- ==== Sys2Proof/Tests/Witnesses.lean ====
section
/-! SUPPORT. For every statement with hypotheses, a concrete state and operands that meet all of them together, each clause
at a boundary of its range. -/

namespace Sys2Proof.Tests

open Sys2Proof Sys2Proof.Machine

/-- The state a command leaves is its next state: what the witnesses below are about is a run, not a stop. -/
theorem exec_after (i : Instr) (s : State) : exec i s = .next (after i s) := by
  have h : ∃ t, exec i s = .next t := by
    cases i with
    | noteOn f => rcases execNoteOn_cases f s with h | h | h <;> exact ⟨_, by simp only [exec]; first | exact h.2 | exact h.2.2⟩
    | noteOff id => rcases execNoteOff_cases id s with h | h <;> exact ⟨_, h.2⟩
    | noteOffFreq f =>
      rcases execNoteOffFreq_cases f s with h | h | h <;> exact ⟨_, by simp only [exec]; first | exact h.2 | exact h.2.2⟩
    | setp sel v => rcases execSetp_cases sel v s with ⟨_, _, h⟩ | ⟨_, h⟩ | ⟨_, _, _, h⟩ <;> exact ⟨_, h⟩
    | getp sel => rcases execGetp_cases sel s with ⟨_, _, h⟩ | ⟨_, _, h⟩ <;> exact ⟨_, h⟩
    | render n c sr => rcases execRender_cases n c sr s with h | h <;> exact ⟨_, h.2⟩
  obtain ⟨t, ht⟩ := h
  simp only [after, ht]

theorem wit_reset_asserted : ({ State.reset with rst := true }).rst = true := rfl

theorem wit_step_executes : canStart { State.reset with cmd := [0x05210000] } = true ∧
    decode [0x05210000] = .instr (.getp (.reg .activeCount)) [] := by decide

/-- Ready or not, a machine with nothing pending can start; words accepted before count as the stream's first. -/
theorem wit_can_start_not_ready : canStart { State.reset with rspReady := false } = true ∧
    canStart { State.reset with held := [0x01000000], cmd := [7] } = true ∧
    decode ([0x01000000] ++ [7]) = .instr (.noteOn 7) [] := by decide

/-- The four ends of the reserved range, and one header of each kind of non-zero field. -/
theorem wit_illegal_headers :
    ((headerOp 0x00123456).toNat = 0 ∧ 7 ≤ (headerOp 0x07000000).toNat ∧ 7 ≤ (headerOp 0xFF000000).toNat) ∧
    (headerIdx 0x01010000 ≠ 0 ∧ headerOp 0x01010000 ≠ 4 ∧ headerOp 0x01010000 ≠ 5 ∧ [(0x43DC0000 : Word)].length = 1) ∧
    (headerZero 0x05000001 ≠ 0 ∧ headerOp 0x05000001 = 5) ∧
    (headerZero 0x06008000 ≠ 0 ∧ headerOp 0x06008000 = 6 ∧ [(1 : Word), 2, 3].length = 3) := by decide

theorem wit_step_waits :
    (State.reset.rst = false ∧ ({ State.reset with rspReady := false, rsp := [0, 1] }).rsp ≠ []) ∧
    (State.reset.rspReady = true ∧ ({ State.reset with rsp := [1] }).rsp = 1 :: []) ∧
    (canStart { State.reset with held := [0x06000000] } = true ∧ decode [0x06000000] = .incomplete ∧
      ({ State.reset with held := [0x06000000] }).cmd = []) ∧
    (canStart { State.reset with held := [0x06000000], cmd := [1, 2] } = true ∧
      decode ([0x06000000] ++ [1, 2]) = .incomplete) := by decide

/-- A rejected command, at the smallest rejecting code a command can give. -/
theorem wit_rejected : exec (.getp (.reserved 0x12)) State.reset
      = .next { State.reset with status := 0x80, rsp := [0x81, 0] } ∧ 0x80 ≤ (0x81 : Word).toNat := ⟨rfl, by decide⟩

/-- A command other than `SETP STATUS` on a state with bits set. -/
theorem wit_sticky : exec (.getp (.reg .status)) { State.reset with status := 0x1FF }
      = .next { State.reset with status := 0x1FF, rsp := [0, 0x1FF] } ∧
    ∀ m, Instr.getp (.reg .status) ≠ .setp (.reg .status) m := ⟨rfl, by simp⟩

/-- The classes of commands the writers' clauses name: one that is none of the named kinds, for each clause. -/
theorem wit_writers : exec (.getp (.reg .oscA)) fullPool = .next { fullPool with rsp := [0, 0] } ∧
    (∀ sel v, Instr.getp (.reg .oscA) ≠ .setp sel v) ∧ (∀ f, Instr.getp (.reg .oscA) ≠ .noteOn f) ∧
    (∀ n c sr, Instr.getp (.reg .oscA) ≠ .render n c sr) := ⟨rfl, by simp, by simp, by simp⟩

theorem wit_wf : (Instr.setp (.reserved 0x12) 5).wf = true ∧ (Instr.getp (.reserved 0xFF)).wf = true ∧
    (Instr.render 0xFFFFFFFF 0 0x7FC00000).wf = true := by decide

theorem wit_decodes : decode [0x04240000, 7, 9] = .instr (.setp (.reserved 0x24) 7) [9] := by decide

/-- Both clauses at each length: one word short, and exactly enough. -/
theorem wit_decoder_length :
    (([] : List Word).length < 1 ∧ 1 ≤ [(7 : Word)].length) ∧ ([(1 : Word), 2].length < 3 ∧ 3 ≤ [(1 : Word), 2, 3].length) ∧
    0 ≤ ([] : List Word).length := by decide

/-- An infinity and a NaN are not finite; the largest finite number is. -/
theorem wit_non_finite : Fp.finite 0x7F800000 = false ∧ Fp.finite 0xFF800000 = false ∧ Fp.finite 0x7F800001 = false ∧
    Fp.finite 0x7F7FFFFF = true := by decide

/-- A free slot, one below the capacity, with the counter at its last id and before it. -/
theorem wit_creates : State.reset.voices.length < State.reset.cfg.nvoices ∧ State.reset.cfg.idw ≤ 32 ∧
    ({ State.reset with nextId := 0xFFFFFFFF }).nextId.toNat = 2 ^ State.reset.cfg.idw - 1 ∧
    ({ fullPool with voices := [sustained 1 0x435C0000] }).voices.length < fullPool.cfg.nvoices := by decide

theorem wit_steals : fullPool.voices = sustained 1 0x435C0000 :: [sustained 2 0x43A50000] ∧
    fullPool.cfg.nvoices ≤ fullPool.voices.length ∧ fullPool.cfg.idw ≤ 32 := by decide

theorem wit_note_off : (fullPool.voices = [sustained 1 0x435C0000] ++ sustained 2 0x43A50000 :: [] ∧
      (sustained 2 0x43A50000).id = 2 ∧ ∀ u ∈ [sustained 1 0x435C0000], u.id ≠ 2) ∧
    ∀ v ∈ fullPool.voices, v.id ≠ 0 := by decide

/-- No match and a match at the tolerance's edge (V-CMD-4: 219.99 against 220). -/
theorem wit_note_off_freq :
    (∀ v ∈ fullPool.voices, freqMatches fullPool.cfg 0x43A5028F v = false) ∧
    (∃ v ∈ fullPool.voices, freqMatches fullPool.cfg 0x435BFD71 v = true) ∧
    (∀ v, freqMatches fullPool.cfg 0x435BFD71 v
      = (fullPool.cfg.num.sub (fullPool.cfg.num.load v.freq) (fullPool.cfg.num.load 0x435BFD71)).abs.le fullPool.cfg.freqTol) :=
  ⟨by decide +kernel, by decide +kernel, fun _ => rfl⟩

theorem wit_unmatched :
    (exec (.noteOff 2) fullPool = .next (after (.noteOff 2) fullPool) ∧
      fullPool.voices[0]? = some (sustained 1 0x435C0000) ∧ (sustained 1 0x435C0000).id ≠ 2) ∧
    (exec (.noteOffFreq 0x43A50000) fullPool = .next (after (.noteOffFreq 0x43A50000) fullPool) ∧
      freqMatches fullPool.cfg 0x43A50000 (sustained 1 0x435C0000) = false) ∧
    exec (.setp (.reg .oscA) 1) fullPool = .next (after (.setp (.reg .oscA) 1) fullPool) :=
  ⟨⟨exec_after _ _, rfl, by decide⟩, ⟨exec_after _ _, by decide +kernel⟩, exec_after _ _⟩

/-- `RENDER` of no frame, on a pool. -/
theorem wit_latched : exec (.render 0 1 0x44800000) fullPool = .next (after (.render 0 1 0x44800000) fullPool) ∧
    exec (.noteOn 0x43DC0000) fullPool = .next (after (.noteOn 0x43DC0000) fullPool) :=
  ⟨exec_after _ _, exec_after _ _⟩

theorem wit_bad_register : (∃ b, RegSel.reserved 0x1F = .reserved b) ∧ RegSel.reg .activeCount = .reg .activeCount ∧
    RegSel.reg .nextId = .reg .nextId ∧ RegSel.reg .nvoices = .reg .nvoices := by simp

/-- The last legal and the first illegal code of each kind of code register. -/
theorem wit_codes : (regLegal Config.reference .oscA = .code 3 ∧ (3 : Word).toNat ≤ 3 ∧ 3 < (4 : Word).toNat) ∧
    (regLegal Config.reference .fltMode = .code 2 ∧ (2 : Word).toNat ≤ 2 ∧ 2 < (3 : Word).toNat) ∧
    (regLegal Config.reference .grainEnable = .code 1 ∧ (1 : Word).toNat ≤ 1 ∧ 1 < (2 : Word).toNat) := by decide

/-- A register of each shape of range; a value below its floor, at it, and no number. -/
theorem wit_reals :
    (regLegal Config.reference .envAttack = .range (some 0x3A83126F) none ∧ Fp.finite 0 = true ∧
      boundedBy (some 0x3A83126F) none 0 = 0x3A83126F ∧ boundedBy (some 0x3A83126F) none 0x3A83126F = 0x3A83126F) ∧
    (regLegal Config.reference .oscMix = .range (some 0) (some 0x3F800000) ∧
      boundedBy (some 0) (some 0x3F800000) 0x40000000 = 0x3F800000) ∧
    regLegal Config.reference .fltCutoff = .range none none ∧ Fp.finite 0x7FC00000 = false := by decide

theorem wit_setp_getp : (regLegal State.reset.cfg .lfoShape = .code 3 ∧ (3 : Word).toNat ≤ 3) ∧
    (regLegal State.reset.cfg .distDrive = .range (some Fp.one) none ∧ Fp.finite Fp.one = true ∧
      boundedBy (some Fp.one) none Fp.one = Fp.one) := by decide

/-- The clamps of `RENDER` at their edges: no channel, one, the most, one more; the smallest rate and one below. -/
theorem wit_render_operands :
    ([0, 1, 8, 9] : List Word).map (fun c => (renderOperands Config.reference 4096 c 0x447A0000).channels) = [1, 1, 8, 8] ∧
    (renderOperands Config.reference 4096 1 0x447A0000) = ⟨4096, 1, 0x447A0000, false⟩ ∧
    (renderOperands Config.reference 4097 1 0x4479FFFF) = ⟨4096, 1, 0x447A0000, true⟩ ∧ Fp.finite 0x447A0000 = true := by
  decide +kernel

/-- One frame of two channels of an empty pool: a frame and a channel to speak of, an address of it, and the state left. -/
theorem wit_render_mix : renderOperands State.reset.cfg 1 2 0x44800000 = ⟨1, 2, 0x44800000, false⟩ ∧
    exec (.render 1 2 0x44800000) State.reset = .next (after (.render 1 2 0x44800000) State.reset) ∧
    0 < (⟨1, 2, 0x44800000, false⟩ : RenderOperands).frames ∧ 1 < (⟨1, 2, 0x44800000, false⟩ : RenderOperands).channels ∧
    State.reset.voices = [] := ⟨by decide +kernel, exec_after _ _, by decide, by decide, rfl⟩

/-- A pool with an Idle voice, an unreleased one in each stage the statement names, and a `RENDER` on it. -/
def mixedPool : State :=
  { State.reset with
    nextId := 5
    voices := [voice 1 0x435C0000 ⟨.idle, fv 0, fv 0, ex 0⟩, voice 2 0x43A50000 ⟨.attack, fv 0, fv 0, ex 0⟩,
      voice 3 0x43A50000 ⟨.decay, fv 0x3F800000, fv 0x3F800000, ex 0⟩, sustained 4 0x43DC0000] }

theorem wit_compaction : exec (.render 0 1 0x44800000) mixedPool = .next (after (.render 0 1 0x44800000) mixedPool) ∧
    (∃ v ∈ (renderRun mixedPool (renderOperands mixedPool.cfg 0 1 0x44800000)).voices, v.env.stage ≠ .idle) ∧
    (∃ v ∈ mixedPool.voices, v.env.stage = .attack) ∧ (∃ v ∈ mixedPool.voices, v.env.stage = .decay) ∧
    (∃ v ∈ mixedPool.voices, v.env.stage = .sustain) ∧ mixedPool.voices[3]? = some (sustained 4 0x43DC0000) := by
  refine ⟨exec_after _ _, ?_, ?_, ?_, ?_, rfl⟩ <;> decide +kernel

/-- A frame of four voices: a frame, a channel and a voice to speak of. -/
theorem wit_render_mix_of_voices : renderOperands mixedPool.cfg 1 1 0x44800000 = ⟨1, 1, 0x44800000, false⟩ ∧
    exec (.render 1 1 0x44800000) mixedPool = .next (after (.render 1 1 0x44800000) mixedPool) ∧
    mixedPool.voices[2]? = some (voice 3 0x43A50000 ⟨.decay, fv 0x3F800000, fv 0x3F800000, ex 0⟩) ∧
    0 < (⟨1, 1, 0x44800000, false⟩ : RenderOperands).frames ∧ 0 < (⟨1, 1, 0x44800000, false⟩ : RenderOperands).channels :=
  ⟨by decide +kernel, exec_after _ _, rfl, by decide, by decide⟩

/-- Each clause of the host's read: a word of a `RENDER` with nothing else sent; the first address past `OUTCAP` and the last
before it; a word never written; in reset; a response untaken; a `RENDER` behind another command. -/
theorem wit_host_read : (1 < 1 * 2 ∧ mixedPool.rst = false ∧ streamRenders 0 (mixedPool.held ++ mixedPool.cmd) = false) ∧
    (State.reset.cfg.outCap ≤ 4096 ∧ 4095 < State.reset.cfg.outCap) ∧
    (renderUnderWay State.reset = false ∧ readWord State.reset.out 4095 = none) ∧
    (renderUnderWay { State.reset with rst := true } = false) ∧
    (({ State.reset with rendering := true, rsp := [5] }).rsp ≠ []) ∧
    ((∀ i ∈ [Instr.getp (.reserved 0xFF)], i.wf = true) ∧
      ([0x05FF0000, 0x06000000, 1] : List Word)
        = [Instr.getp (.reserved 0xFF)].flatMap encode ++ 0x06000000 :: [1]) := by decide

/-- Every clause of the envelope tick: each stage, its end exactly reached and one tick before, and decided. -/
theorem wit_env_tick :
    envInit.stage = .idle ∧
    (reaches .binary32 .elapsed (.add .binary32 (ex 0x3BE00000) dt) (.load .binary32 envTimbre.envAttack) = true ∧
      reaches .binary32 .elapsed (.add .binary32 (ex 0x3BC00000) dt) (.load .binary32 envTimbre.envAttack) = false ∧
      tieOpen .binary32 (.add .binary32 (ex 0x3BE00000) dt) (.load .binary32 envTimbre.envAttack) = false) ∧
    (reaches .binary32 .elapsed (.add .binary32 (ex 0x3B400000) dt) (.load .binary32 envTimbre.envDecay) = true ∧
      reaches .binary32 .elapsed (.add .binary32 (ex 0x3B000000) dt) (.load .binary32 envTimbre.envDecay) = false) ∧
    (Config.NumFormat.binary32.load envTimbre.envSustain).inUnit = true ∧
    (reaches .binary32 .elapsed (.add .binary32 (ex 0x3B400000) dt) (.load .binary32 envTimbre.envRelease) = true ∧
      reaches .binary32 .elapsed (.add .binary32 (ex 0) dt) (.load .binary32 envTimbre.envRelease) = false) := by
  decide +kernel

theorem wit_settled :
    ((Config.NumFormat.binary32.load envTimbre.envSustain).inUnit = true ∧
      (envTick .binary32 envTimbre dt ⟨.decay, fv 0x3F200000, fv 0x3F800000, ex 0x3B400000⟩).stage = .sustain) ∧
    (envTick .binary32 envTimbre dt ⟨.release, fv 0x3E000000, fv 0x3F000000, ex 0x3B400000⟩).stage = .idle := by
  decide +kernel

/-- Finite samples of both oscillators, at phase 0 and just below 2π. -/
theorem wit_blend : (wave Config.reference .saw .zero).finite = true ∧ (wave Config.reference .triangle .zero).finite = true ∧
    (wave Config.reference .saw (fv 0x40C90FDA)).finite = true ∧
    (wave Config.reference .triangle (fv 0x40C90FDA)).finite = true := by decide +kernel

/-- A sum at a tie, one beyond the format, a product and a quotient of finite words; words at both ends of the finite ones; zeros of both formats and both signs, the largest word, and a number no word holds. -/
theorem wit_functions : (Fp.finite (Fp.add 0x4B800000 0x3F800000) = true ∧ Fp.finite (Fp.add 0x7F7FFFFF 0x7F7FFFFF) = false ∧
      Fp.finite (Fp.mul 0x00000001 0x3F000000) = true ∧ Fp.isZero 0x80000001 = false ∧
      Fp.finite (Fp.div 0x3F800000 0x40400000) = true) ∧
    (Fp.finite 0x7F7FFFFF = true ∧ Fp.finite 0x80000001 = true ∧ Fp.isZero 0x80000000 = true) ∧
    (fv 0).isZero = true ∧ (fv 0x80000000).isZero = true ∧ (fv 0x7F7FFFFF).finite = true ∧
    (∀ n : Config.NumFormat, n.holds (fv 0x7F7FFFFF) = true) ∧ (Val.num ⟨0, 1⟩).isZero = true ∧ (⟨-1, 4⟩ : Exact).den ≠ 0 ∧
    (Val.num ⟨1, 3⟩).finite = true ∧ (Config.NumFormat.other 0).holds (.num ⟨1, 3⟩) = true := by
  refine ⟨by decide +kernel, by decide, by decide, by decide, by decide, fun n => by cases n <;> rfl, by decide, by decide, by decide, by decide⟩

/-- A sample above a bound above 0 is above 0. -/
theorem lt_zero_of_le {b x : F32} (hb : Fp.lt Fp.zero b = true) (h : Fp.le b x = true) : Fp.lt Fp.zero x = true := by
  obtain ⟨h1, _, h3⟩ := Fp.lt_iff.1 hb
  obtain ⟨_, h5, h6⟩ := Fp.le_iff.1 h
  exact Fp.lt_iff.2 ⟨h1, h5, by omega⟩

/-- The three signs of a sine: positive at π/2, negative at 3π/2, zero at 0, whatever `sin` is. -/
theorem wit_square : Fp.lt Fp.zero (Fp.sin Fp.halfPi) = true ∧ Fp.lt (Fp.sin Fp.threeHalfPi) Fp.zero = true ∧
    Fp.isZero (Fp.sin 0) = true := by
  refine ⟨?_, ?_, ?_⟩
  · have h := Fp.sin_allowed Fp.halfPi
    have hb : Fp.le Fp.sinNearOne (Fp.sin Fp.halfPi) = true := by
      unfold Fp.sinAllowed at h
      rw [if_neg (by decide), if_neg (by decide), if_pos rfl] at h
      exact (Bool.and_eq_true_iff.1 h).2
    exact lt_zero_of_le (by decide) hb
  · have h := Fp.sin_allowed Fp.threeHalfPi
    unfold Fp.sinAllowed at h
    rw [if_neg (by decide), if_neg (by decide), if_neg (by decide), if_neg (by decide), if_pos rfl] at h
    obtain ⟨h1, h2, h3⟩ := Fp.le_iff.1 (Bool.and_eq_true_iff.1 h).2
    refine Fp.lt_iff.2 ⟨h1, by decide, ?_⟩
    have : Fp.key (Fp.negate Fp.sinNearOne) < Fp.key Fp.zero := by decide
    omega
  · have h := Fp.sin_allowed 0
    unfold Fp.sinAllowed at h
    rw [if_neg (by decide), if_pos (by decide)] at h
    exact (Bool.and_eq_true_iff.1 h).2

/-- The three signs of a sine in the reference format. -/
theorem wit_square_wave : Val.zero.lt (Config.reference.num.sin (fv Fp.halfPi)) = true ∧
    (Config.reference.num.sin (fv Fp.threeHalfPi)).lt .zero = true ∧
    (Config.reference.num.sin .zero).isZero = true := wit_square

/-- The hypotheses of the filter's law name its intermediate values: any timbre, rate, input and filter have them. -/
theorem wit_ladder (c : Config.Params) (t : Timbre) (sr : Val) (l : Ladder) :
    ∃ n ph lfo lv, n = c.num ∧ ph = n.add l.lfo (n.div (n.load t.lfoRate) sr) ∧ lfo = n.sub ph (n.floor ph) ∧
      lv = n.div (n.add (wave c t.lfoShape (n.mul (n.angle .twoPi) lfo)) .one) .two := ⟨_, _, _, _, rfl, rfl, rfl, rfl⟩

theorem wit_depth_zero : Fp.isZero Timbre.reset.lfoDepth = true ∧ Fp.finite Timbre.reset.fltCutoff = true ∧
    inUnit 0 = true ∧ inUnit Fp.one = true := by decide

theorem wit_distortion : (fv 0x80000000).isZero = true ∧ Config.NumFormat.binary32.holds (fv 0x80000000) = true ∧
    Fp.finite Timbre.reset.distDrive = true ∧
    (Config.NumFormat.binary32.mul .one (fv 0x7F7FFFFF)).finite = true := by decide +kernel

/-- The timer at the grain's length and just below; at the open time and just below; each decided; and a frame of a gate that is
open for the whole grain. -/
theorem wit_grain :
    (reaches .binary32 .grain (.add .binary32 (ex 0x3B400000) dt) (ex 0x3B800000) = true ∧
      reaches .binary32 .grain (.add .binary32 (ex 0x3B000000) dt) (ex 0x3B800000) = false ∧
      tieOpen .binary32 (.add .binary32 (ex 0x3B400000) dt) (ex 0x3B800000) = false) ∧
    (below .binary32 .grain (ex 0x3B000000) (ex 0x3B000000) = false ∧
      below .binary32 .grain (ex 0x3AFFFFFF) (ex 0x3B000000) = true ∧
      tieOpen .binary32 (ex 0x3B000000) (ex 0x3B000000) = false) ∧
    (({ timer := ex 0x3B000000, len := ex 0x3B800000, duty := ex 0x3B800000 } : Grain).duty = ex 0x3B800000 ∧
      (ex 0x3B800000).val.isNum = true ∧ (Tracked.add .binary32 (ex 0x3B000000) dt).val.isNum = true) ∧
    (Val.zero.lt (grainAdvance Config.reference Timbre.reset dt ⟨ex 0x3B400000, ex 0x3B800000, ex 0⟩ ⟨[0, 0], 0⟩).1.duty.val
      = true ∧
      (grainAdvance Config.reference { Timbre.reset with grainDuty := 0 } dt ⟨ex 0x3B400000, ex 0x3B800000, ex 0⟩
        ⟨[0, 0], 0⟩).1.duty.val.isZero = true) := by decide +kernel

/-- No jitter, legal parameters and timbre, an open time of the whole grain at its bound; the most jitter, and an open time of
nothing. -/
theorem wit_jitter_zero : Fp.isZero Timbre.reset.grainJitter = true ∧ paramsLegal Config.reference = true ∧
    timbreLegal Config.reference { Timbre.reset with grainDuty := Fp.one } = true ∧ Fp.le Fp.one Fp.one = true ∧
    (inUnit Fp.one = true ∧ Fp.finite 0x80000000 = true ∧ Fp.le 0x80000000 Fp.zero = true ∧
      (grainRoll Config.reference { Timbre.reset with grainDuty := 0x80000000, grainJitter := Fp.one } grainInit
        ⟨[Fp.negOne, Fp.negOne], 0⟩).1.len.val.finite = true) := by decide +kernel

theorem wit_voice_step (c : Config.Params) (sr : F32) (v : Voice) (r : Rnd) (x : Val) :
    (∃ y ph, y = c.num.add v.phase (c.num.div (c.num.mul (c.num.angle .twoPi) (c.num.load v.freq)) (c.num.load sr)) ∧
      ph = c.num.sub y (c.num.mul (c.num.angle .twoPi) (c.num.floor (c.num.div y (c.num.angle .twoPi))))) ∧
    (∃ out fl, (out, fl) = ladderStep c v.t (c.num.load sr) x v.flt) ∧
    (∃ g r', grainAdvance c v.t (.div c.num .one (.load c.num sr)) v.gr r = (g, r')) ∧
    ({ Timbre.reset with grainEnable := true }).grainEnable = true ∧ Timbre.reset.grainEnable = false :=
  ⟨⟨_, _, rfl, rfl⟩, ⟨_, _, rfl⟩, ⟨_, _, rfl⟩, rfl, rfl⟩

/-- A voice whose first stage has overflowed, and it alone: the stage stays so, and the voice is silenced. -/
theorem wit_infinite_state (v : Voice) (sr : F32) (r : Rnd)
    (hv : v.flt = { ladderInit with tap0 := ⟨.zero, fv 0x7F800000⟩ }) :
    v.flt.tap0.y.finite = false ∧ ladderFinite (voiceStep Config.reference sr v r).voice.flt = false ∧
    (voiceStep Config.reference sr v r).silenced = true := by
  have h : v.flt.tap0.y.finite = false := by rw [hv]; decide
  have h2 : ladderFinite (voiceStep Config.reference sr v r).voice.flt = false := by
    have := tapStep_not_finite (tap := v.flt.tap0) (h := h)
    simp only [voiceStep, ladderStep, ladderTaps, ladderFinite, tapFinite, Config.reference, this, Bool.and_false,
      Bool.false_and]
  refine ⟨h, h2, ?_⟩
  simp only [voiceStep] at h2 ⊢
  simp [silent, h2]

theorem wit_infinite_voice : (voiceStep Config.reference 0x44800000 { sustained 1 0x43DC0000 with
    flt := { ladderInit with tap0 := ⟨.zero, fv 0x7F800000⟩ } } ⟨[], 0⟩).silenced = true :=
  (wit_infinite_state _ _ _ rfl).2.2

/-- A zero pattern is one of two. -/
theorem zero_patterns {x : F32} (h : Fp.isZero x = true) : x = 0 ∨ x = 0x80000000 := by
  have h1 : x.toNat % 2 ^ 31 = 0 := by simpa [Fp.isZero, Fp.mag] using h
  have h2 := x.isLt
  have h3 : x.toNat = 0 ∨ x.toNat = 2 ^ 31 := by omega
  rcases h3 with h | h
  · exact .inl (BitVec.eq_of_toNat_eq h)
  · exact .inr (BitVec.eq_of_toNat_eq h)

/-- A filter whose output is a number, whatever `sin` and `exp2` are: an infinite sample rate makes `f` 0. -/
theorem wit_filter_number : (ladderStep Config.reference { Timbre.reset with lfoShape := .saw } (fv 0x7F800000)
    .half ladderInit).1.isNum = true := by
  have hcut : cutoff .binary32 { Timbre.reset with lfoShape := .saw } (fv 0x7F800000)
      (lfoValue Config.reference { Timbre.reset with lfoShape := .saw }
        (lfoAdvance .binary32 { Timbre.reset with lfoShape := .saw } (fv 0x7F800000) .zero)) = fv 0x447A0000 := by
    decide +kernel
  have hk : ∀ s : F32, Fp.isZero s = true → Fp.sub (Fp.mul Fp.two s) Fp.one = Fp.negOne := by
    intro s hs
    rcases zero_patterns hs with rfl | rfl <;> decide +kernel
  have hco : coeffs .binary32 { Timbre.reset with lfoShape := .saw } (fv 0x7F800000) (fv 0x447A0000)
      = ⟨.zero, .negOne, .zero⟩ := by
    have h1 : Fp.div (Fp.mul (Fp.div 0x447A0000 0x7F800000) Fp.pi) Fp.two = 0 := by decide +kernel
    have h2 : Fp.sub (Fp.mul Fp.two (Fp.sin 0)) Fp.one = Fp.negOne := hk _ wit_square.2.2
    have h3 : ∀ k, k = Fp.negOne → (⟨.f32 (Fp.mul (Fp.div 0x447A0000 0x7F800000)
        (Fp.sub Fp.c1_8 (Fp.mul Fp.c0_8 (Fp.div 0x447A0000 0x7F800000)))), .f32 k, .zero⟩ : Coeffs)
        = ⟨.zero, .negOne, .zero⟩ := by rintro k rfl; decide +kernel
    have h4 : coeffs .binary32 { Timbre.reset with lfoShape := .saw } (fv 0x7F800000) (fv 0x447A0000)
        = ⟨.f32 (Fp.mul (Fp.div 0x447A0000 0x7F800000)
            (Fp.sub Fp.c1_8 (Fp.mul Fp.c0_8 (Fp.div 0x447A0000 0x7F800000)))),
          .f32 (Fp.sub (Fp.mul Fp.two (Fp.sin (Fp.div (Fp.mul (Fp.div 0x447A0000 0x7F800000) Fp.pi) Fp.two))) Fp.one),
          (coeffs .binary32 { Timbre.reset with lfoShape := .saw } (fv 0x7F800000) (fv 0x447A0000)).r⟩ := rfl
    have h5 : (coeffs .binary32 { Timbre.reset with lfoShape := .saw } (fv 0x7F800000) (fv 0x447A0000)).r = .zero := by
      decide +kernel
    rw [h4, h5, h1, h2]
    exact h3 _ rfl
  unfold ladderStep
  have hl : ladderInit.lfo = .zero := rfl
  have hn : Config.reference.num = .binary32 := rfl
  simp only [hl, hn, hcut, hco]
  decide +kernel

/-- A state with a released voice and a sustained one, a timbre, a note-off to execute, and words in `OUT`. -/
def demo : State :=
  { mixedPool with cmd := [0x02000000, 4], out := writeWord (writeWord [] 0 Fp.one) 1 0xBF800000, status := 0x1FF }

theorem wit_invariants : paramsLegal demo.cfg = true ∧ timbreLegal demo.cfg State.reset.timbre = true ∧
    timbresLegal demo = true ∧ envsLegal demo = true ∧ grainsLegal demo = true ∧ demo.cfg.idw ≤ 32 ∧
    demo.cfg.num = .binary32 ∧ grainRatesInFormat demo = true ∧ grainsProper demo = true ∧
    demo.nextId.toNat < 2 ^ demo.cfg.idw - 1 ∧ poolBounded demo ∧ statusLegal demo := by
  refine ⟨?_, ?_, ?_, ?_, ?_, ?_, ?_, ?_, ?_, ?_, ?_, ?_⟩ <;> first | decide +kernel | (unfold poolBounded; decide) | (unfold statusLegal; decide)

theorem wit_ids : idsFresh demo := by unfold idsFresh; decide

/-- The counter at its last id: a `NOTE_OFF`, a `NOTE_ON` of no number, a wait for the host, and reset. -/
theorem wit_ids_at_the_last : (({ demo with nextId := 0xFFFFFFFF }).nextId.toNat = 2 ^ demo.cfg.idw - 1 ∧
      idsFresh { demo with nextId := 0xFFFFFFFF } ∧
      ∀ f rest, decode (({ demo with nextId := 0xFFFFFFFF }).held ++ [0x02000000, 4]) = .instr (.noteOn f) rest →
        Fp.finite f = false) ∧
    (∀ f rest, decode [0x01000000, 0x7F800000] = .instr (.noteOn f) rest → Fp.finite f = false) ∧
    canStart { demo with nextId := 0xFFFFFFFF, rsp := [0] } = false ∧
    canStart { demo with nextId := 0xFFFFFFFF, rst := true } = false := by
  refine ⟨⟨by decide, by unfold idsFresh; decide, ?_⟩, ?_, by decide, by decide⟩
  · intro f rest h
    have hd : decode (({ demo with nextId := 0xFFFFFFFF }).held ++ [0x02000000, 4]) = .instr (.noteOff 4) [] := by decide
    rw [hd] at h; cases h
  · intro f rest h
    have hd : decode [0x01000000, 0x7F800000] = .instr (.noteOn 0x7F800000) [] := by decide
    rw [hd] at h; cases h; decide

theorem wit_out_inside : outInside demo :=
  ⟨by decide, fun a ha => by
    have h4 : (4096 : Nat) = demo.cfg.outCap := rfl
    have hb : readByte demo.out a = readByte [] a := by
      change readByte (writeWord (writeWord [] 0 Fp.one) 1 0xBF800000) a = _
      rw [readByte_writeWord_other _ _ _ (by omega), readByte_writeWord_other _ _ _ (by omega)]
    rw [hb]; rfl⟩

theorem wit_out_samples : outSamples demo.out := by
  have h : ∀ i, i < 2 → ∃ w, readWord demo.out i = some w ∧ inSample w = true := by
    intro i hi
    obtain rfl | rfl : i = 0 ∨ i = 1 := by omega
    · exact ⟨Fp.one, by decide +kernel⟩
    · exact ⟨0xBF800000, by decide +kernel⟩
  intro a b hab
  by_cases ha : a / 4 < 2
  · exact h _ ha
  · have hb : readByte demo.out a = readByte [] a := by
      change readByte (writeWord (writeWord [] 0 Fp.one) 1 0xBF800000) a = _
      rw [readByte_writeWord_other _ _ _ (by omega), readByte_writeWord_other _ _ _ (by omega)]
    rw [hb] at hab; cases hab

theorem wit_step_of_demo : ∃ t, step demo = .next t := by
  rcases step_cases demo with h | h | h | ⟨_, _, _, _, _, h⟩ | ⟨i, rest, _, _, h⟩
  · exact ⟨_, h.2⟩
  · exact ⟨_, h.2.2⟩
  · exact ⟨_, h.2.2⟩
  · exact ⟨_, h⟩
  · exact ⟨_, h.trans (exec_after _ _)⟩

theorem wit_same_but_draws : sameButDraws mixedPool { mixedPool with rnd := ⟨[Fp.one, Fp.negOne], 7⟩ } ∧
    ∀ v ∈ mixedPool.voices, Fp.isZero v.t.grainJitter = true := ⟨rfl, by decide⟩

end Sys2Proof.Tests
end

/-! PROOFS. The statement of 00_scope.md: a step that starts no command. -/

namespace Sys2Proof.Machine

/-- The two conditions of starting a command, apart. -/
theorem canStart_iff (s : State) : canStart s = true ↔ s.rst = false ∧ s.rsp = [] := by
  simp [canStart]

/-- Out of reset with response words waiting, a step is one transfer on `rsp` (R207). -/
theorem step_eq_deliver {s : State} (hrst : s.rst = false) (hrsp : s.rsp ≠ []) : step s = .next (deliver s) := by
  have hstalled : stalled s = true := by simpa [stalled, rspValid] using hrsp
  simp [step, hrst, hstalled]

/-- Where a command could start but the stream holds no whole one, a step is one transfer on `cmd` (R191). -/
theorem step_eq_accept {s : State} (hstart : canStart s = true) (hfetch : decode (stream s) = .incomplete) :
    step s = .next (accept s) := by
  obtain ⟨hrst, hrsp⟩ := (canStart_iff s).mp hstart
  have hstalled : stalled s = false := by simp [stalled, rspValid, hrsp]
  simp [step, fetch, hrst, hstalled, hfetch]

/-- Settles O5: a step with words pending is `deliver`, one without a whole command is `accept`, each by the host's side
of its port. -/
theorem stepWaitsForHostOrWords : Obligations.StepWaitsForHostOrWords := by
  unfold Obligations.StepWaitsForHostOrWords
  refine ⟨?hostNotReady, ?hostReady, ?noWord, ?nextWord⟩
  case hostNotReady =>
    intro s hrst hready hrsp
    rw [step_eq_deliver hrst hrsp, deliver_not_ready hready]
  case hostReady =>
    intro s w ws hrst hready hrsp
    have hpending : s.rsp ≠ [] := by simp [hrsp]
    rw [step_eq_deliver hrst hpending, deliver_ready hready hrsp]
  case noWord =>
    intro s hstart hheld hcmd
    have hfetch : decode (stream s) = .incomplete := by rw [stream, hcmd, List.append_nil, hheld]
    rw [step_eq_accept hstart hfetch, accept_nothing hcmd]
  case nextWord =>
    intro s w ws hstart hfetch hcmd
    rw [step_eq_accept hstart hfetch, accept_word hcmd]

end Sys2Proof.Machine

/-! PROOFS. The statements of 10_state.md: what a command and a step can change, and the ranges every step keeps. -/

namespace Sys2Proof.Machine

/-! ### What a frame changes of a voice -/

@[simp] theorem voiceStep_id (c : Config.Params) (sr : F32) (v : Voice) (r : Rnd) :
    (voiceStep c sr v r).voice.id = v.id := rfl
@[simp] theorem voiceStep_freq (c : Config.Params) (sr : F32) (v : Voice) (r : Rnd) :
    (voiceStep c sr v r).voice.freq = v.freq := rfl
@[simp] theorem voiceStep_t (c : Config.Params) (sr : F32) (v : Voice) (r : Rnd) :
    (voiceStep c sr v r).voice.t = v.t := rfl
@[simp] theorem voiceStep_env (c : Config.Params) (sr : F32) (v : Voice) (r : Rnd) :
    (voiceStep c sr v r).voice.env = envTick c.num v.t (stepOf c.num sr) v.env := rfl
@[simp] theorem voiceStep_gr (c : Config.Params) (sr : F32) (v : Voice) (r : Rnd) :
    (voiceStep c sr v r).voice.gr
      = if v.t.grainEnable then (grainAdvance c v.t (stepOf c.num sr) v.gr r).1 else v.gr := by
  cases h : v.t.grainEnable <;> simp [voiceStep, h]

/-- What is written when a voice is created or retargeted and never by a frame (R28, R29): id, frequency, timbre. -/
def noteKey (v : Voice) : Word × F32 × Timbre := (v.id, v.freq, v.t)

/-- A frame steps every voice in its slot and leaves what a note wrote there (R160). -/
theorem mixVoices_noteKeys (c : Config.Params) (sr : F32) (vs : List Voice) (acc : Val) (r : Rnd) :
    (mixVoices c sr vs acc r).voices.map noteKey = vs.map noteKey := by
  induction vs generalizing acc r with
  | nil => rfl
  | cons v vs ih => simp [mixVoices, noteKey, ← ih (c.num.add acc (voiceStep c sr v r).sample) (voiceStep c sr v r).rnd]

/-- Frames leave what a note wrote in every slot. -/
theorem renderFrames_noteKeys (c : Config.Params) (sr : F32) (ch k : Nat) (x : RenderRun) :
    (renderFrames c sr ch k x).voices.map noteKey = x.voices.map noteKey := by
  induction k with
  | zero => rfl
  | succ k ih => rw [← ih]; exact mixVoices_noteKeys ..

/-- `RENDER` only removes whole voices: of what notes wrote, a sublist is left (R29, R162). -/
theorem compact_renderRun_noteKeys (s : State) (o : RenderOperands) :
    ((compact (renderRun s o).voices).map noteKey).Sublist (s.voices.map noteKey) := by
  have hkeys : (renderRun s o).voices.map noteKey = s.voices.map noteKey := renderFrames_noteKeys ..
  rw [← hkeys]
  exact List.filter_sublist.map noteKey

/-- What every voice step keeps of a voice, a frame keeps of all voices. -/
theorem mixVoices_keeps {c : Config.Params} {sr : F32} {P : Voice → Prop}
    (hstep : ∀ v r, P v → P (voiceStep c sr v r).voice) {vs : List Voice} (hvs : ∀ v ∈ vs, P v) (acc : Val) (r : Rnd) :
    ∀ v ∈ (mixVoices c sr vs acc r).voices, P v := by
  induction vs generalizing acc r with
  | nil => exact hvs
  | cons v vs ih =>
    obtain ⟨hv, hvs⟩ := List.forall_mem_cons.1 hvs
    exact List.forall_mem_cons.2 ⟨hstep v r hv, ih hvs _ _⟩

/-- What every voice step keeps of a voice, frames keep of all voices. -/
theorem renderFrames_keeps {c : Config.Params} {sr : F32} {P : Voice → Prop}
    (hstep : ∀ v r, P v → P (voiceStep c sr v r).voice) (ch k : Nat) {x : RenderRun} (hx : ∀ v ∈ x.voices, P v) :
    ∀ v ∈ (renderFrames c sr ch k x).voices, P v := by
  induction k with
  | zero => exact hx
  | succ k ih => exact mixVoices_keeps hstep ih _ _

/-! ### What a note-off changes of a voice -/

/-- The pool after a note-off: the same slots, some of the voices released (R154, R155). -/
def someReleased (vs ws : List Voice) : Prop := List.Forall₂ (fun v w => w = v ∨ w = releaseVoice v) vs ws

theorem releaseId_someReleased (id : Word) (vs : List Voice) : someReleased vs (releaseId id vs) := by
  induction vs with
  | nil => exact .nil
  | cons v vs ih =>
    unfold releaseId
    split_ifs
    · exact .cons (.inr rfl) (List.forall₂_same.2 fun _ _ => .inl rfl)
    · exact .cons (.inl rfl) ih

theorem releaseFreq_someReleased (c : Config.Params) (f : F32) (vs : List Voice) :
    someReleased vs (releaseFreq c f vs) := by
  refine List.forall₂_map_right_iff.2 (List.forall₂_same.2 fun v _ => ?_)
  split_ifs
  · exact .inr rfl
  · exact .inl rfl

/-- A release writes nothing of what the note wrote (R149). -/
theorem someReleased_noteKeys {vs ws : List Voice} (h : someReleased vs ws) : ws.map noteKey = vs.map noteKey := by
  induction h with
  | nil => rfl
  | cons hvw _ ih =>
    rw [List.map_cons, List.map_cons, ih]
    rcases hvw with rfl | rfl <;> rfl

/-- What a release keeps of a voice, a note-off keeps of all voices. -/
theorem someReleased_keeps {P : Voice → Prop} (hrelease : ∀ v, P v → P (releaseVoice v)) {vs ws : List Voice}
    (h : someReleased vs ws) (hvs : ∀ v ∈ vs, P v) : ∀ w ∈ ws, P w := by
  induction h with
  | nil => exact hvs
  | cons hvw _ ih =>
    obtain ⟨hv, hvs⟩ := List.forall_mem_cons.1 hvs
    refine List.forall_mem_cons.2 ⟨?_, ih hvs⟩
    rcases hvw with rfl | rfl
    · exact hv
    · exact hrelease _ hv

/-! ### What a command does -/

/-- Everything a command can do to the state, by command. -/
inductive CommandEffect (s : State) : Instr → State → Prop
  /-- It only answers: every rejection and miss, and `GETP`. -/
  | answered (i : Instr) (raised : List Status) (value : Word) : CommandEffect s i (answer raised value s)
  /-- `SETP STATUS` (R157). -/
  | statusCleared (m : Word) : CommandEffect s (.setp (.reg .status) m) (setStatus m s)
  /-- `SETP` of a timbre register (R156). -/
  | timbreWritten (r : Reg) (v : Word) (tm : Timbre) (clamped : Bool) (hr : r ≠ .status)
      (hw : writeReg s.cfg s.timbre r v = .written tm clamped) :
      CommandEffect s (.setp (.reg r) v)
        (answer (raisedIf clamped .clamped) (readReg (putTimbre tm s) r) (putTimbre tm s))
  /-- `NOTE_ON` with a free slot (R150, R151). -/
  | created (f : F32) (hf : Fp.finite f = true) (hroom : s.voices.length < s.cfg.nvoices) :
      CommandEffect s (.noteOn f) (answer (raisedIf (idWraps s) .idWrap) s.nextId
        { s with nextId := bumpId s, voices := s.voices ++ [(create s f).1], rnd := (create s f).2 })
  /-- `NOTE_ON` on a full pool (R150, R153). -/
  | retargeted (f : F32) (hf : Fp.finite f = true) : CommandEffect s (.noteOn f)
      (answer (raisedIf (idWraps s) .idWrap ++ [.stolen]) s.nextId
        { s with nextId := bumpId s, voices := retarget s.nextId f s.voices })
  /-- `NOTE_OFF` of an id that a voice has (R154). -/
  | releasedById (id value : Word) (vs : List Voice) (hvs : someReleased s.voices vs) :
      CommandEffect s (.noteOff id) (answer [] value { s with voices := vs })
  /-- `NOTE_OFF_FREQ` of a frequency that a voice matches (R155). -/
  | releasedByFreq (f : F32) (value : Word) (vs : List Voice) (hvs : someReleased s.voices vs) :
      CommandEffect s (.noteOffFreq f) (answer [] value { s with voices := vs })
  /-- `RENDER` at a finite rate (R159 to R162). -/
  | rendered (n c : Word) (sr : F32) (raised : List Status) (value : Word) (hsr : Fp.finite sr = true) :
      CommandEffect s (.render n c sr) (answer raised value { s with
        voices := compact (renderRun s (renderOperands s.cfg n c sr)).voices
        out := (renderRun s (renderOperands s.cfg n c sr)).out
        rnd := (renderRun s (renderOperands s.cfg n c sr)).rnd })

/-- Every command has one of the effects listed. -/
theorem exec_effect (i : Instr) (s : State) : ∃ t, exec i s = .next t ∧ CommandEffect s i t := by
  cases i with
  | noteOn f =>
    rcases execNoteOn_cases f s with ⟨-, h⟩ | ⟨hf, hroom, h⟩ | ⟨hf, -, h⟩
    · exact ⟨_, h, .answered ..⟩
    · exact ⟨_, h, .created f hf hroom⟩
    · exact ⟨_, h, .retargeted f hf⟩
  | noteOff id =>
    rcases execNoteOff_cases id s with ⟨-, h⟩ | ⟨-, h⟩
    · exact ⟨_, h, .releasedById id _ _ (releaseId_someReleased id s.voices)⟩
    · exact ⟨_, h, .answered ..⟩
  | noteOffFreq f =>
    rcases execNoteOffFreq_cases f s with ⟨-, h⟩ | ⟨-, -, h⟩ | ⟨-, -, h⟩
    · exact ⟨_, h, .answered ..⟩
    · exact ⟨_, h, .answered ..⟩
    · exact ⟨_, h, .releasedByFreq f _ _ (releaseFreq_someReleased s.cfg f s.voices)⟩
  | setp sel v =>
    rcases execSetp_cases sel v s with ⟨b, -, h⟩ | ⟨rfl, h⟩ | ⟨r, hr, rfl, h⟩
    · exact ⟨_, h, .answered ..⟩
    · exact ⟨_, h, .statusCleared v⟩
    · rcases setReg_cases r v s with ⟨st, -, hset⟩ | ⟨tm, clamped, hw, hset⟩
      · exact ⟨_, h.trans (congrArg _ hset), .answered ..⟩
      · exact ⟨_, h.trans (congrArg _ hset), .timbreWritten r v tm clamped hr hw⟩
  | getp sel =>
    rcases execGetp_cases sel s with ⟨b, -, h⟩ | ⟨r, -, h⟩ <;> exact ⟨_, h, .answered ..⟩
  | render n c sr =>
    rcases execRender_cases n c sr s with ⟨-, h⟩ | ⟨hsr, h⟩
    · exact ⟨_, h, .answered ..⟩
    · exact ⟨_, h, .rendered n c sr _ _ hsr⟩

/-- What a command answered with has one of the effects listed. -/
theorem effect_of_exec {i : Instr} {s t : State} (h : exec i s = .next t) : CommandEffect s i t := by
  obtain ⟨u, hu, heffect⟩ := exec_effect i s
  obtain rfl : u = t := by simpa using hu.symm.trans h
  exact heffect

/-! ### The statements about one command -/

/-- Raising a status clears no bit (R21, R181). -/
theorem and_raiseBits (raised : List Status) (w : Word) : w &&& raiseBits raised w = w := by
  induction raised generalizing w with
  | nil => exact BitVec.and_self
  | cons st raised ih =>
    have hkeep : w &&& (w ||| statusBit st) = w := by ext i; simp; tauto
    calc w &&& raiseBits raised (w ||| statusBit st)
        = w &&& ((w ||| statusBit st) &&& raiseBits raised (w ||| statusBit st)) := by
          rw [← BitVec.and_assoc, hkeep]
      _ = w := by rw [ih, hkeep]

/-- Settles O9: every command but `SETP STATUS` leaves `STATUS` with bits raised, and raising clears none. -/
theorem statusBitsAreSticky : Obligations.StatusBitsAreSticky := by
  unfold Obligations.StatusBitsAreSticky
  intro i s t h hi
  cases effect_of_exec h with
  | statusCleared m => exact absurd rfl (hi m)
  | _ => exact and_raiseBits _ s.status

/-- Settles O10, by the effects a command can have. -/
theorem eachStateHasItsWriters : Obligations.EachStateHasItsWriters := by
  unfold Obligations.EachStateHasItsWriters
  intro i s t h
  cases effect_of_exec h with
  | statusCleared m => simp [setStatus]
  | _ => simp

/-- The latched timbre is a part of what a note writes. -/
theorem timbres_of_noteKeys {vs ws : List Voice} (h : ws.map noteKey = vs.map noteKey) :
    ws.map (·.t) = vs.map (·.t) := by
  simpa [noteKey, Function.comp_def] using congrArg (List.map fun k => k.2.2) h

/-- A retarget writes no latched timbre (R153). -/
theorem retarget_timbres (id : Word) (f : F32) (vs : List Voice) : (retarget id f vs).map (·.t) = vs.map (·.t) := by
  cases vs <;> rfl

/-- Settles O21, by the effects a command can have: all keep the list of latched timbres but the creation of a voice, which
appends one, and `RENDER`, which removes voices. -/
theorem latchedTimbreIsNeverRewritten : Obligations.LatchedTimbreIsNeverRewritten := by
  unfold Obligations.LatchedTimbreIsNeverRewritten
  intro i s t h
  cases effect_of_exec h with
  | answered => simp
  | statusCleared m => simp [setStatus]
  | timbreWritten r v tm clamped => simp
  | created f => simp [create]
  | retargeted f => simp [retarget_timbres]
  | releasedById id value vs hvs => simp [timbres_of_noteKeys (someReleased_noteKeys hvs)]
  | releasedByFreq f value vs hvs => simp [timbres_of_noteKeys (someReleased_noteKeys hvs)]
  | rendered n c sr =>
    exact ⟨fun hi => absurd rfl (hi n c sr), fun hi => absurd rfl (hi n c sr), by simp,
      fun _ _ _ _ => compact_renderRun_noteKeys s (renderOperands s.cfg n c sr)⟩

/-! ### What a step does -/

/-- The registers and the pool of a state stay, and `STATUS` at most gains bits. -/
structure EngineKept (s t : State) : Prop where
  cfg : t.cfg = s.cfg
  timbre : t.timbre = s.timbre
  nextId : t.nextId = s.nextId
  voices : t.voices = s.voices
  status : ∃ raised, t.status = raiseBits raised s.status

/-- Everything a step can do to the registers and the pool. -/
inductive StepEffect (s : State) : State → Prop
  /-- Asserted reset (R195). -/
  | reset : StepEffect s (resetEngine s)
  /-- A transfer on a port (R207, R191), or the answer to an illegal header (R67). -/
  | kept (t : State) (ht : EngineKept s t) : StepEffect s t
  /-- A command (R46). -/
  | command (i : Instr) (rest : List Word) (t : State) (hstart : canStart s = true)
      (hdecode : decode (stream s) = .instr i rest) (ht : CommandEffect (consume rest s) i t) : StepEffect s t

/-- Every step has one of the effects listed. -/
theorem effect_of_step {s t : State} (h : step s = .next t) : StepEffect s t := by
  have next_inj : ∀ u, step s = .next u → u = t := fun u hu => by simpa using hu.symm.trans h
  rcases step_cases s with ⟨-, hu⟩ | ⟨-, -, hu⟩ | ⟨-, -, hu⟩ | ⟨why, header, rest, -, -, hu⟩ |
    ⟨i, rest, hstart, hdecode, hu⟩
  · obtain rfl := next_inj _ hu
    exact .reset
  · obtain rfl := next_inj _ hu
    exact .kept _ ⟨by simp, by simp, by simp, by simp, [], by simp⟩
  · obtain rfl := next_inj _ hu
    exact .kept _ ⟨by simp, by simp, by simp, by simp, [], by simp⟩
  · obtain rfl := next_inj _ hu
    exact .kept _ ⟨rfl, rfl, rfl, rfl, [.badCmd], rfl⟩
  · exact .command i rest t hstart hdecode (effect_of_exec (hu.symm.trans h))

/-- No step changes the parameters (log 8). -/
theorem step_cfg {s t : State} (h : step s = .next t) : t.cfg = s.cfg := by
  cases effect_of_step h with
  | reset => rfl
  | kept _ ht => exact ht.cfg
  | command i rest _ _ _ ht => cases ht <;> rfl

/-- A property of voices that creation gives, and that retarget, release and voice step keep, is kept by every command. -/
theorem command_keeps_voices {P : Voice → Prop} {i : Instr} {s t : State} (h : CommandEffect s i t)
    (hvs : ∀ v ∈ s.voices, P v) (hcreate : ∀ f, P (create s f).1)
    (hretarget : ∀ id f v, P v → P (retargetVoice id f v)) (hrelease : ∀ v, P v → P (releaseVoice v))
    (hstep : ∀ sr, Fp.finite sr = true → ∀ v r, P v → P (voiceStep s.cfg (Fp.atLeast sr s.cfg.srMin) v r).voice) :
    ∀ v ∈ t.voices, P v := by
  cases h with
  | answered | statusCleared | timbreWritten => exact hvs
  | created f => exact List.forall_mem_append.2 ⟨hvs, List.forall_mem_singleton.2 (hcreate f)⟩
  | retargeted f =>
    simp only [answer_voices]
    cases hpool : s.voices with
    | nil => simp [retarget]
    | cons v vs =>
      rw [hpool] at hvs
      obtain ⟨hv, hvs⟩ := List.forall_mem_cons.1 hvs
      exact List.forall_mem_cons.2 ⟨hretarget _ f v hv, hvs⟩
  | releasedById _ _ _ hr | releasedByFreq _ _ _ hr => exact someReleased_keeps hrelease hr hvs
  | rendered n c sr _ _ hsr =>
    intro v hv
    exact renderFrames_keeps (hstep sr hsr) _ _ hvs v (List.mem_of_mem_filter hv)

/-- A property of voices that creation gives, and that retarget, release and voice step keep, is kept by every step. -/
theorem step_keeps_voices {P : Voice → Prop} {s t : State} (h : step s = .next t)
    (hvs : ∀ v ∈ s.voices, P v) (hcreate : ∀ f, P (create s f).1)
    (hretarget : ∀ id f v, P v → P (retargetVoice id f v)) (hrelease : ∀ v, P v → P (releaseVoice v))
    (hstep : ∀ sr, Fp.finite sr = true → ∀ v r, P v → P (voiceStep s.cfg (Fp.atLeast sr s.cfg.srMin) v r).voice) :
    ∀ v ∈ t.voices, P v := by
  cases effect_of_step h with
  | reset => exact List.forall_mem_nil P
  | kept _ ht => rwa [ht.voices]
  | command i rest _ _ _ ht => exact command_keeps_voices ht hvs hcreate hretarget hrelease hstep

/-! ### Reserved bits of `STATUS`, and the bound of the pool -/

/-- No status has a bit outside the nine of R21. -/
theorem statusBit_reserved (st : Status) : statusBit st &&& ~~~statusMask = 0 := by
  cases st <;> decide

/-- Raising statuses sets no reserved bit. -/
theorem raiseBits_reserved (raised : List Status) {w : Word} (hw : w &&& ~~~statusMask = 0) :
    raiseBits raised w &&& ~~~statusMask = 0 := by
  induction raised generalizing w with
  | nil => exact hw
  | cons st raised ih =>
    refine ih (w := w ||| statusBit st) ?_
    have hdistrib : (w ||| statusBit st) &&& ~~~statusMask
        = w &&& ~~~statusMask ||| statusBit st &&& ~~~statusMask := by
      ext i; simp [Bool.and_or_distrib_right]
    rw [hdistrib, hw, statusBit_reserved, BitVec.or_self]

/-- Clearing bits sets none. -/
theorem clearStatus_reserved (m : Word) {w : Word} (hw : w &&& ~~~statusMask = 0) :
    clearStatus m w &&& ~~~statusMask = 0 := by
  calc clearStatus m w &&& ~~~statusMask
      = (w &&& ~~~statusMask) &&& ~~~m := by unfold clearStatus; ac_rfl
    _ = 0 := by simp [hw]

/-- Settles O59: a step clears bits, or raises bits of statuses, none of which is reserved. -/
theorem stepKeepsReservedStatusBitsZero : Obligations.StepKeepsReservedStatusBitsZero := by
  unfold Obligations.StepKeepsReservedStatusBitsZero statusLegal
  intro s t hs h
  cases effect_of_step h with
  | reset => rw [resetEngine_status]; decide
  | kept _ ht =>
    obtain ⟨raised, hstatus⟩ := ht.status
    rw [hstatus]
    exact raiseBits_reserved raised hs
  | command i rest _ _ _ ht =>
    cases ht with
    | statusCleared m => exact clearStatus_reserved m hs
    | _ => exact raiseBits_reserved _ hs

/-- A retarget keeps every voice in its slot. -/
theorem retarget_length (id : Word) (f : F32) (vs : List Voice) : (retarget id f vs).length = vs.length := by
  cases vs <;> rfl

/-- Settles O56: only `NOTE_ON` with a free slot makes the pool longer. -/
theorem stepKeepsThePoolBounded : Obligations.StepKeepsThePoolBounded := by
  unfold Obligations.StepKeepsThePoolBounded poolBounded
  intro s t hs h
  rw [step_cfg h]
  cases effect_of_step h with
  | reset => exact Nat.zero_le _
  | kept _ ht => rwa [ht.voices]
  | command i rest _ _ _ ht =>
    cases ht with
    | answered | statusCleared | timbreWritten => exact hs
    | created f _ hroom => simpa using hroom
    | retargeted f => simpa [retarget_length] using hs
    | releasedById _ _ _ hr | releasedByFreq _ _ _ hr => exact hr.length_eq ▸ hs
    | rendered n c sr =>
      have hlen := (compact_renderRun_noteKeys (consume rest s) (renderOperands s.cfg n c sr)).length_le
      simp only [List.length_map] at hlen
      exact hlen.trans hs

/-! ### The ids of the pool -/

/-- The ids of a pool, among what notes write. -/
theorem ids_eq_noteKeys (vs : List Voice) : vs.map (·.id) = (vs.map noteKey).map Prod.fst := by
  simp [noteKey, Function.comp_def]

/-- `idsFresh` in terms of the list of ids alone. -/
def idListFresh (next : Word) (ids : List Word) : Prop :=
  next ≠ 0 ∧ (∀ id ∈ ids, id ≠ 0 ∧ id.toNat < next.toNat) ∧ ids.Nodup

theorem idsFresh_iff (s : State) : idsFresh s ↔ idListFresh s.nextId (s.voices.map (·.id)) := by
  simp [idsFresh, idListFresh]

/-- Dropping ids keeps the rest fresh. -/
theorem idListFresh.sublist {next : Word} {ids ids' : List Word} (h : idListFresh next ids) (hsub : ids'.Sublist ids) :
    idListFresh next ids' :=
  ⟨h.1, fun id hid => h.2.1 id (hsub.subset hid), h.2.2.sublist hsub⟩

/-- Handing out the next id, at either end of the pool, leaves the ids fresh below the counter's next value. -/
theorem idListFresh.cons {next next' : Word} {ids : List Word} (h : idListFresh next ids)
    (hnext : next'.toNat = next.toNat + 1) : idListFresh next' (next :: ids) := by
  obtain ⟨hne, hids, hnodup⟩ := h
  refine ⟨fun h0 => ?_, List.forall_mem_cons.2 ⟨⟨hne, by omega⟩, fun id hid => ⟨(hids id hid).1, ?_⟩⟩,
    List.nodup_cons.2 ⟨fun hmem => ?_, hnodup⟩⟩
  · rw [h0] at hnext; simp at hnext
  · have := (hids id hid).2; omega
  · exact lt_irrefl _ (hids next hmem).2

theorem idListFresh.perm {next : Word} {ids ids' : List Word} (h : idListFresh next ids) (hperm : ids.Perm ids') :
    idListFresh next ids' :=
  ⟨h.1, fun id hid => h.2.1 id (hperm.mem_iff.2 hid), hperm.nodup_iff.1 h.2.2⟩

/-- Below the last id the counter goes up by one (R23). -/
theorem bumpId_toNat {s : State} (hidw : s.cfg.idw ≤ 32) (hlt : s.nextId.toNat < 2 ^ s.cfg.idw - 1) :
    (bumpId s).toNat = s.nextId.toNat + 1 := by
  have hpow : 2 ^ s.cfg.idw ≤ 2 ^ 32 := Nat.pow_le_pow_right (by decide) hidw
  have hlast : (lastId s).toNat = 2 ^ s.cfg.idw - 1 := by
    rw [lastId, BitVec.toNat_ofNat]; exact Nat.mod_eq_of_lt (by omega)
  have hwraps : idWraps s = false := by
    rw [idWraps, beq_eq_false_iff_ne]
    intro heq; rw [heq] at hlt; omega
  rw [bumpId, hwraps, if_neg Bool.false_ne_true, BitVec.toNat_add]
  exact Nat.mod_eq_of_lt (by simp; omega)

/-- A command leaves the ids, drops some, or hands out the next one, at the end of the pool or in slot 0. -/
theorem command_keeps_ids {i : Instr} {s t : State} (h : CommandEffect s i t)
    (hbump : ∀ f, i = .noteOn f → Fp.finite f = true → (bumpId s).toNat = s.nextId.toNat + 1) (hs : idsFresh s) :
    idsFresh t := by
  rw [idsFresh_iff] at hs ⊢
  cases h with
  | answered | statusCleared | timbreWritten => exact hs
  | created f hf =>
    have hperm : (s.nextId :: s.voices.map (·.id)).Perm (s.voices.map (·.id) ++ [s.nextId]) :=
      (List.perm_append_singleton _ _).symm
    simpa [create] using (hs.cons (hbump f rfl hf)).perm hperm
  | retargeted f hf =>
    have htail : idListFresh s.nextId (s.voices.tail.map (·.id)) := hs.sublist ((List.tail_sublist _).map _)
    cases hpool : s.voices with
    | nil => simpa [hpool, retarget] using (htail.cons (hbump f rfl hf)).sublist (List.nil_sublist _)
    | cons v vs => simpa [hpool, retarget, retargetVoice] using htail.cons (hbump f rfl hf)
  | releasedById _ _ vs hr | releasedByFreq _ _ vs hr =>
    rw [ids_eq_noteKeys] at hs ⊢
    rw [answer_voices, someReleased_noteKeys hr]
    exact hs
  | rendered n c sr =>
    rw [ids_eq_noteKeys] at hs ⊢
    exact hs.sublist ((compact_renderRun_noteKeys s (renderOperands s.cfg n c sr)).map _)

/-- Settles O55: a `NOTE_ON` that creates or retargets hands out an id above those of the pool, as long as the counter does
not wrap; every other step leaves the ids or drops some. -/
theorem stepKeepsIdsDistinct : Obligations.StepKeepsIdsDistinct := by
  unfold Obligations.StepKeepsIdsDistinct
  intro s t hidw hwrap hs h
  cases effect_of_step h with
  | reset => simp [idsFresh, State.reset]
  | kept _ ht => simpa [idsFresh, ht.nextId, ht.voices] using hs
  | command i rest _ hstart hdecode ht =>
    refine command_keeps_ids ht (fun f hi hf => ?_) hs
    subst hi
    rcases hwrap with hlt | hnot | hreject
    · exact bumpId_toNat (s := consume rest s) hidw hlt
    · simp [hstart] at hnot
    · simp [hreject f rest hdecode] at hf

/-! ### The timbres -/

theorem timbresLegal_iff (s : State) :
    timbresLegal s = true ↔ timbreLegal s.cfg s.timbre = true ∧ ∀ v ∈ s.voices, timbreLegal s.cfg v.t = true := by
  simp [timbresLegal]

/-- What a legal parameter set says of the three floors. -/
theorem floors_of_paramsLegal {c : Config.Params} (h : paramsLegal c = true) :
    positive c.tMin = true ∧ positive c.srMin = true ∧ positive c.grainRateMin = true := by
  simp only [paramsLegal, Bool.and_eq_true] at h
  obtain ⟨⟨⟨⟨-, htMin⟩, hsrMin⟩, hrateMin⟩, -⟩ := h
  exact ⟨htMin, hsrMin, hrateMin⟩

theorem positive_finite {x : F32} (h : positive x = true) : Fp.finite x = true :=
  (Bool.and_eq_true_iff.1 h).1

theorem positive_lt {x : F32} (h : positive x = true) : Fp.lt Fp.zero x = true :=
  (Bool.and_eq_true_iff.1 h).2

/-- A finite value brought up to a finite floor is finite and at least the floor. -/
theorem atLeast_atLeastFinite {lo v : F32} (hlo : Fp.finite lo = true) (hv : Fp.finite v = true) :
    atLeastFinite lo (Fp.atLeast v lo) = true := by
  have hlo' := Fp.isNaN_of_finite hlo
  unfold Fp.atLeast atLeastFinite
  split_ifs with hlt
  · simp [hlo, Fp.le_iff, hlo']
  · simp [hv, Fp.le_of_not_lt (Fp.isNaN_of_finite hv) hlo' (by simpa using hlt)]

/-- What a write of an `f32` register that is not rejected writes. -/
theorem writeReal_written {v legal : F32} {put : F32 → Timbre} {t : Timbre} {b : Bool}
    (h : writeReal v legal put = .written t b) : Fp.finite v = true ∧ t = put legal := by
  unfold writeReal at h
  split_ifs at h with hv
  cases h
  exact ⟨hv, rfl⟩

/-- What a write of a code register that is not rejected writes. -/
theorem writeCode_written {α : Type} {code : Option α} {put : α → Timbre} {t : Timbre} {b : Bool}
    (h : writeCode code put = .written t b) : ∃ x, t = put x := by
  cases code with
  | none => cases h
  | some x => cases h; exact ⟨x, rfl⟩

/-- A `SETP` that writes leaves the register file legal: it writes a code, or the legalised value of a finite word. -/
theorem writeReg_legal {c : Config.Params} {t t' : Timbre} {r : Reg} {v : Word} {b : Bool}
    (hc : paramsLegal c = true) (ht : timbreLegal c t = true) (hw : writeReg c t r v = .written t' b) :
    timbreLegal c t' = true := by
  obtain ⟨htMin, -, hrateMin⟩ := floors_of_paramsLegal hc
  have hunit (hv : Fp.finite v = true) : inUnit (legalUnit v) = true := Fp.clamp01_unit (Fp.isNaN_of_finite hv)
  have hfloor {lo : F32} (hlo : Fp.finite lo = true) (hv : Fp.finite v = true) :
      atLeastFinite lo (legalFloor lo v) = true := atLeast_atLeastFinite hlo hv
  cases r with
  | oscA | oscB | fltMode | lfoShape | grainEnable =>
    rw [writeReg] at hw
    obtain ⟨x, rfl⟩ := writeCode_written hw
    exact ht
  | oscMix | envSustain | fltResonance | lfoDepth | grainJitter | fltCutoff | grainDuty =>
    rw [writeReg] at hw
    obtain ⟨hv, rfl⟩ := writeReal_written hw
    simp_all [timbreLegal]
  | envAttack | envDecay | envRelease | grainRate | lfoRate | distDrive =>
    rw [writeReg] at hw
    obtain ⟨hv, rfl⟩ := writeReal_written hw
    have htMin := hfloor (positive_finite htMin) hv
    have hrateMin := hfloor (positive_finite hrateMin) hv
    have hzero := hfloor (by decide : Fp.finite Fp.zero = true) hv
    have hone := hfloor (by decide : Fp.finite Fp.one = true) hv
    simp_all [timbreLegal]
  | status | activeCount | nextId | nvoices => cases hw

/-- A step writes the timbre registers by reset or by `SETP`, and keeps them legal (R14). -/
theorem step_keeps_timbre {s t : State} (hc : paramsLegal s.cfg = true)
    (hreset : timbreLegal s.cfg State.reset.timbre = true) (hs : timbreLegal s.cfg s.timbre = true)
    (h : step s = .next t) : timbreLegal s.cfg t.timbre = true := by
  cases effect_of_step h with
  | reset => exact hreset
  | kept _ ht => rwa [ht.timbre]
  | command i rest _ _ _ ht =>
    cases ht with
    | timbreWritten r v tm clamped _ hw => exact writeReg_legal hc hs hw
    | _ => exact hs

/-- Settles O52: `SETP` legalises what it writes, a new voice latches the legal registers, and nothing else writes a
timbre. -/
theorem stepKeepsTimbresLegal : Obligations.StepKeepsTimbresLegal := by
  unfold Obligations.StepKeepsTimbresLegal
  intro s t hc hreset hs h
  rw [timbresLegal_iff] at hs ⊢
  rw [step_cfg h]
  obtain ⟨hregs, hvoices⟩ := hs
  refine ⟨step_keeps_timbre hc hreset hregs h, ?_⟩
  exact step_keeps_voices (P := fun v => timbreLegal s.cfg v.t = true) h hvoices
    (fun _ => hregs) (fun _ _ _ hv => hv) (fun _ hv => hv) (fun _ _ _ _ hv => hv)

end Sys2Proof.Machine

namespace Sys2Proof.Machine.Fp

/-! ### Signs and magnitudes of numbers -/

theorem key_zero : key zero = 0 := by decide

/-- A number not below 0: without a sign, or a zero. -/
theorem nonneg_iff {a : F32} : le zero a = true ↔ isNaN a = false ∧ (isNeg a = false ∨ mag a = 0) := by
  rw [le_iff, key_zero, key]
  have hzero : isNaN zero = false := by decide
  cases isNeg a <;> simp [hzero]

/-- A number above 0. -/
theorem pos_iff {a : F32} : lt zero a = true ↔ isNaN a = false ∧ isNeg a = false ∧ 0 < mag a := by
  rw [lt_iff, key_zero, key]
  have hzero : isNaN zero = false := by decide
  cases isNeg a <;> simp [hzero]

theorem nonneg_of_pos {a : F32} (h : lt zero a = true) : le zero a = true := by
  obtain ⟨hnum, hsign, -⟩ := pos_iff.1 h
  exact nonneg_iff.2 ⟨hnum, .inl hsign⟩

theorem isZero_of_pos {a : F32} (h : lt zero a = true) : isZero a = false := by
  obtain ⟨-, -, hmag⟩ := pos_iff.1 h
  simp [isZero]; omega

theorem pos_of_le {a b : F32} (ha : lt zero a = true) (hab : le a b = true) : lt zero b = true := by
  obtain ⟨hzero, -, ha⟩ := lt_iff.1 ha
  obtain ⟨-, hb, hab⟩ := le_iff.1 hab
  exact lt_iff.2 ⟨hzero, hb, by omega⟩

/-- Above 0 the order is that of the magnitudes. -/
theorem mag_le_of_le {a b : F32} (ha : lt zero a = true) (h : le a b = true) : mag a ≤ mag b := by
  obtain ⟨-, hsa, -⟩ := pos_iff.1 ha
  obtain ⟨-, hsb, -⟩ := pos_iff.1 (pos_of_le ha h)
  have hkey := (le_iff.1 h).2.2
  simp only [key, hsa, hsb] at hkey
  simpa using hkey

/-- From 0 on the order is that of the magnitudes. -/
theorem mag_lt_of_lt {a b : F32} (ha : le zero a = true) (hb : lt zero b = true) (h : lt a b = true) : mag a < mag b := by
  obtain ⟨-, hsa⟩ := nonneg_iff.1 ha
  obtain ⟨-, hsb, hmb⟩ := pos_iff.1 hb
  obtain ⟨-, -, hkey⟩ := lt_iff.1 h
  rcases hsa with hsa | hma
  · simp only [key, hsa, hsb] at hkey
    simpa using hkey
  · omega

theorem mag_abs (a : F32) : mag (abs a) = mag a := by
  have h : ∀ b : F32, mag b = (b.setWidth 31).toNat := fun b => by simp [mag]
  rw [h, h, abs, BitVec.setWidth_and]
  exact congrArg BitVec.toNat (BitVec.and_allOnes (x := a.setWidth 31))

/-- A bound of the absolute value bounds the magnitude. -/
theorem mag_le_of_abs_le {a b : F32} (hb : isNeg b = false) (h : le (abs a) b = true) : mag a ≤ mag b := by
  have hsign : isNeg (abs a) = false := by simp [isNeg, abs]
  have hkey := (le_iff.1 h).2.2
  simp only [key, hsign, hb, mag_abs] at hkey
  simpa using hkey

theorem mag_le_of_inUnit {a : F32} (h : inUnit a = true) : mag a ≤ mag one := by
  obtain ⟨hlo, hhi⟩ := Bool.and_eq_true_iff.1 h
  by_cases hmag : mag a = 0
  · omega
  · obtain ⟨hnum, hsign⟩ := nonneg_iff.1 hlo
    exact mag_le_of_le (pos_iff.2 ⟨hnum, hsign.resolve_right hmag, by omega⟩) hhi

theorem finite_of_mag_le {a b : F32} (h : mag a ≤ mag b) (hb : finite b = true) : finite a = true :=
  decide_eq_true (lt_of_le_of_lt h (of_decide_eq_true hb))

theorem finite_of_inUnit {a : F32} (h : inUnit a = true) : finite a = true :=
  finite_of_mag_le (mag_le_of_inUnit h) (by decide)

/-! ### Rounding is monotone -/

/-- Of two quotients the greater has no smaller whole part. -/
theorem div_le_div_of_cross {num den num' den' : Nat} (hd : 0 < den) (hd' : 0 < den') (h : num * den' ≤ num' * den) :
    num / den ≤ num' / den' := by
  rw [Nat.le_div_iff_mul_le hd']
  refine Nat.le_of_mul_le_mul_right (le_trans ?_ h) hd
  calc num / den * den' * den = num / den * den * den' := by ring
    _ ≤ num * den' := Nat.mul_le_mul_right _ (Nat.div_mul_le_self num den)

theorem nearestEven_bounds (num den : Nat) : num / den ≤ nearestEven num den ∧ nearestEven num den ≤ num / den + 1 := by
  unfold nearestEven
  dsimp only
  split_ifs <;> omega

theorem nearestEven_mono {num den num' den' : Nat} (hd : 0 < den) (hd' : 0 < den') (h : num * den' ≤ num' * den) :
    nearestEven num den ≤ nearestEven num' den' := by
  rcases Nat.lt_or_ge (num / den) (num' / den') with hlt | hge
  · exact (nearestEven_bounds num den).2.trans (le_trans hlt (nearestEven_bounds num' den').1)
  · have heq : num' / den' = num / den := le_antisymm hge (div_le_div_of_cross hd hd' h)
    have hrest : num % den * den' ≤ num' % den' * den := by
      have hnum := Nat.div_add_mod' num den
      have hnum' := Nat.div_add_mod' num' den'
      rw [heq] at hnum'
      rw [← hnum, ← hnum'] at h
      nlinarith [h]
    have hup : den < 2 * (num % den) → den' < 2 * (num' % den') := fun hlt => by nlinarith
    have hhalf : den = 2 * (num % den) → den' ≤ 2 * (num' % den') := fun heq => by nlinarith
    unfold nearestEven
    dsimp only
    rw [heq]
    split_ifs <;> omega

/-- A greater quotient has no smaller rounded magnitude: in one binade by the rounding of the significand, and from one
binade to the next through the binade's bound. -/
theorem roundMag_mono {num den num' den' : Nat} (hd : 0 < den) (hd' : 0 < den') (h : num * den' ≤ num' * den) :
    roundMag num den ≤ roundMag num' den' := by
  obtain ⟨e, q, hq, hr, -, -, he, hq24⟩ := roundMag_split num den
  obtain ⟨e', q', hq', hr', -, -, he', -⟩ := roundMag_split num' den'
  have hlog : Nat.log2 (num / den) ≤ Nat.log2 (num' / den') := by
    simp only [Nat.log2_eq_log_two]
    exact Nat.log_mono_right (div_le_div_of_cross hd hd' h)
  rw [hr, hr']
  refine min_le_min_right _ ?_
  rcases Nat.lt_or_ge e e' with hlt | hge
  · have hsig : 2 ^ 23 ≤ q' := by
      have hne : num' / den' ≠ 0 := fun h0 => by rw [h0] at he'; simp at he'; omega
      have hpow := Nat.log2_self_le hne
      rw [hq', ← Nat.div_div_eq_div_mul, Nat.le_div_iff_mul_le (by positivity), ← pow_add,
        show 23 + e' = Nat.log2 (num' / den') by omega]
      exact hpow
    have hlo := (nearestEven_bounds num (den * 2 ^ e)).2
    have hhi := (nearestEven_bounds num' (den' * 2 ^ e')).1
    omega
  · obtain rfl : e = e' := by omega
    have hcross : num * (den' * 2 ^ e) ≤ num' * (den * 2 ^ e) := by
      calc num * (den' * 2 ^ e) = num * den' * 2 ^ e := by ring
        _ ≤ num' * den * 2 ^ e := Nat.mul_le_mul_right _ h
        _ = num' * (den * 2 ^ e) := by ring
    exact Nat.add_le_add_left (nearestEven_mono (by positivity) (by positivity) hcross) _

theorem roundMag_le_infMag (num den : Nat) : roundMag num den ≤ infMag := min_le_right _ _

theorem roundMag_zero (den : Nat) : roundMag 0 den = 0 := by
  have hlog : Nat.log2 0 = 0 := by decide
  simp [roundMag, nearestEven, hlog]

/-- What is not above a finite number rounds to a finite one. -/
theorem roundMag_finite {num den m : Nat} (hd : 0 < den) (hm : m < infMag) (h : num ≤ units m * den) :
    roundMag num den < infMag := by
  by_contra hover
  exact absurd (roundMag_overflow hd hover hm).1 (by omega)

/-- What is at least the smallest number above 0 does not round to 0. -/
theorem roundMag_pos {num den : Nat} (hd : 0 < den) (h : den ≤ num) : 0 < roundMag num den := by
  have hone : roundMag den den ≤ roundMag num den := roundMag_mono hd hd (Nat.mul_le_mul_right _ h)
  have hlog : Nat.log2 1 = 0 := by decide
  have hself : roundMag den den = 1 := by
    simp [roundMag, nearestEven, Nat.div_self hd, hlog, hd, infMag]
  omega

/-! ### The four operations on numbers that are not below 0 -/

theorem isNaN_pack (neg : Bool) {m : Nat} (h : m ≤ infMag) : isNaN (pack neg m) = false := by
  rw [isNaN, mag_pack neg (lt_of_le_of_lt h (by decide))]
  exact decide_eq_false (by omega)

/-- A rounded magnitude packed without a sign, or a packed zero, is a number not below 0. -/
theorem pack_nonneg {neg : Bool} {m : Nat} (hm : m ≤ infMag) (h : neg = false ∨ m = 0) : le zero (pack neg m) = true := by
  have hlt : m < 2 ^ 31 := lt_of_le_of_lt hm (by decide)
  rw [nonneg_iff, isNeg_pack neg hlt, mag_pack neg hlt]
  exact ⟨isNaN_pack neg hm, h⟩

theorem isInf_of_finite {a : F32} (h : finite a = true) : isInf a = false := by
  have hlt : mag a < infMag := of_decide_eq_true h
  simp [isInf]; omega

theorem finite_of_isInf {a : F32} (hnum : isNaN a = false) (h : isInf a = false) : finite a = true := by
  by_contra hf
  rcases not_finite_iff.1 (by simpa using hf) with h' | h' <;> simp_all

/-- The sum of finite numbers, as the rounding of the sum of their values. -/
theorem add_finite {a b : F32} (ha : finite a = true) (hb : finite b = true) :
    add a b = if value a + value b = 0 then pack (isNeg a && isNeg b) 0
      else pack (value a + value b < 0) (roundMag (value a + value b).natAbs 1) := by
  simp [add, isNaN_of_finite ha, isNaN_of_finite hb, isInf_of_finite ha, isInf_of_finite hb]

/-- The product of finite numbers, as the rounding of the product of their values. -/
theorem mul_finite {a b : F32} (ha : finite a = true) (hb : finite b = true) :
    mul a b = pack (isNeg a != isNeg b) (roundMag (units (mag a) * units (mag b)) (2 ^ 149)) := by
  simp [mul, isNaN_of_finite ha, isNaN_of_finite hb, isInf_of_finite ha, isInf_of_finite hb]

/-- The quotient of finite numbers, as the rounding of the quotient of their values. -/
theorem div_finite {a b : F32} (ha : finite a = true) (hb : finite b = true) (hb0 : isZero b = false) :
    div a b = pack (isNeg a != isNeg b) (roundMag (units (mag a) * 2 ^ 149) (units (mag b))) := by
  simp [div, isNaN_of_finite ha, isNaN_of_finite hb, isInf_of_finite ha, isInf_of_finite hb, hb0]

theorem mag_add {a b : F32} (ha : finite a = true) (hb : finite b = true) :
    mag (add a b) = roundMag (value a + value b).natAbs 1 := by
  rw [add_finite ha hb]
  split_ifs with h
  · rw [mag_pack _ (by decide), h]; exact (roundMag_zero 1).symm
  · exact mag_pack _ (lt_of_le_of_lt (roundMag_le_infMag _ _) (by decide))

theorem mag_mul {a b : F32} (ha : finite a = true) (hb : finite b = true) :
    mag (mul a b) = roundMag (units (mag a) * units (mag b)) (2 ^ 149) := by
  rw [mul_finite ha hb]
  exact mag_pack _ (lt_of_le_of_lt (roundMag_le_infMag _ _) (by decide))

theorem mag_div {a b : F32} (ha : finite a = true) (hb : finite b = true) (hb0 : isZero b = false) :
    mag (div a b) = roundMag (units (mag a) * 2 ^ 149) (units (mag b)) := by
  rw [div_finite ha hb hb0]
  exact mag_pack _ (lt_of_le_of_lt (roundMag_le_infMag _ _) (by decide))

theorem isNaN_mul {a b : F32} (ha : finite a = true) (hb : finite b = true) : isNaN (mul a b) = false := by
  rw [mul_finite ha hb]
  exact isNaN_pack _ (roundMag_le_infMag _ _)

/-- A finite number added to a number gives a number. -/
theorem isNaN_add {a b : F32} (ha : finite a = true) (hb : isNaN b = false) : isNaN (add a b) = false := by
  cases hinf : isInf b with
  | true => simp [add, isNaN_of_finite ha, isInf_of_finite ha, hb, hinf]
  | false =>
    rw [add_finite ha (finite_of_isInf hb hinf)]
    split_ifs
    · exact isNaN_pack _ (by decide)
    · exact isNaN_pack _ (roundMag_le_infMag _ _)

/-- A finite number not below 0 has a value not below 0. -/
theorem value_nonneg {a : F32} (h : le zero a = true) : 0 ≤ value a := by
  have hz : units 0 = 0 := by decide
  unfold value
  rcases (nonneg_iff.1 h).2 with hs | hm
  · simp [hs]
  · simp [hm, hz]

/-- A sum of numbers not below 0 is one. -/
theorem nonneg_add {a b : F32} (ha : le zero a = true) (hb : le zero b = true) : le zero (add a b) = true := by
  obtain ⟨hna, hsa⟩ := nonneg_iff.1 ha
  obtain ⟨hnb, hsb⟩ := nonneg_iff.1 hb
  have sign_of_inf : ∀ {x : F32}, isInf x = true → (isNeg x = false ∨ mag x = 0) → isNeg x = false := by
    intro x hx hs
    refine hs.resolve_right fun h0 => ?_
    rw [isInf, h0] at hx
    exact absurd hx (by decide)
  cases hia : isInf a with
  | true =>
    have hadd : add a b = a := by
      cases hib : isInf b <;> simp [add, hna, hnb, hia, hib, sign_of_inf hia hsa]
      simp [sign_of_inf hib hsb]
    rwa [hadd]
  | false =>
    cases hib : isInf b with
    | true =>
      have hadd : add a b = b := by simp [add, hna, hnb, hia, hib]
      rwa [hadd]
    | false =>
      rw [add_finite (finite_of_isInf hna hia) (finite_of_isInf hnb hib)]
      have hsum : 0 ≤ value a + value b := Int.add_nonneg (value_nonneg ha) (value_nonneg hb)
      split_ifs
      · exact pack_nonneg (by decide) (.inr rfl)
      · exact pack_nonneg (roundMag_le_infMag _ _) (.inl (decide_eq_false (not_lt.2 hsum)))

/-- A product of finite numbers not below 0 is a number not below 0. -/
theorem nonneg_mul {a b : F32} (ha : le zero a = true) (hfa : finite a = true) (hb : le zero b = true)
    (hfb : finite b = true) : le zero (mul a b) = true := by
  have hz : units 0 = 0 := by decide
  rw [mul_finite hfa hfb]
  refine pack_nonneg (roundMag_le_infMag _ _) ?_
  rcases (nonneg_iff.1 ha).2 with hsa | hma
  · rcases (nonneg_iff.1 hb).2 with hsb | hmb
    · simp [hsa, hsb]
    · simp [hmb, hz, roundMag_zero]
  · simp [hma, hz, roundMag_zero]

/-! ### Quotients, reciprocals and jittered values -/

/-- A finite number not below 0, divided by a number above 0, is a number not below 0. -/
theorem nonneg_div {a b : F32} (ha : le zero a = true) (hfa : finite a = true) (hb : lt zero b = true) :
    le zero (div a b) = true := by
  have hz : units 0 = 0 := by decide
  obtain ⟨hnb, hsb, -⟩ := pos_iff.1 hb
  cases hib : isInf b with
  | true =>
    have hdiv : div a b = pack (isNeg a != isNeg b) 0 := by
      simp [div, isNaN_of_finite hfa, hnb, isInf_of_finite hfa, hib]
    rw [hdiv]
    exact pack_nonneg (by decide) (.inr rfl)
  | false =>
    rw [div_finite hfa (finite_of_isInf hnb hib) (isZero_of_pos hb)]
    refine pack_nonneg (roundMag_le_infMag _ _) ?_
    rcases (nonneg_iff.1 ha).2 with hsa | hma
    · simp [hsa, hsb]
    · simp [hma, hz, roundMag_zero]

/-- A quotient below 1 is finite. -/
theorem finite_div_of_mag_le {a b : F32} (hb : lt zero b = true) (hfb : finite b = true) (h : mag a ≤ mag b) :
    finite (div a b) = true := by
  have hone : units (mag one) = 2 ^ 149 := by decide +kernel
  have hunits : units (mag a) ≤ units (mag b) := units_strictMono.monotone h
  rw [finite, mag_div (finite_of_mag_le h hfb) hfb (isZero_of_pos hb), decide_eq_true_eq]
  refine roundMag_finite (m := mag one) (units_pos (isZero_of_pos hb)) (by decide) ?_
  rw [hone, mul_comm]
  exact Nat.mul_le_mul_left _ hunits

/-- The difference of two numbers in [0, 1] is finite. -/
theorem finite_sub_of_inUnit {a b : F32} (ha : inUnit a = true) (hb : inUnit b = true) : finite (sub a b) = true := by
  have hone : units (mag one) = 2 ^ 149 := by decide +kernel
  have htwo : units (mag two) = 2 ^ 150 := by decide +kernel
  have bound : ∀ {x : F32}, inUnit x = true → (value x).natAbs ≤ 2 ^ 149 := fun hx => by
    rw [natAbs_value, ← hone]
    exact units_strictMono.monotone (mag_le_of_inUnit hx)
  have hfb : finite (negate b) = true := by rw [finite, mag_negate]; exact finite_of_inUnit hb
  rw [sub, finite, mag_add (finite_of_inUnit ha) hfb, value_negate, decide_eq_true_eq]
  refine roundMag_finite (m := mag two) (by decide) (by decide) ?_
  have hva := bound ha
  have hvb := bound hb
  rw [htwo]
  omega

/-- 1 divided by a finite number above 0 is above 0: the greatest number of the format has a reciprocal in it. -/
theorem reciprocal_pos {x : F32} (hx : lt zero x = true) (hfx : finite x = true) : lt zero (div one x) = true := by
  have hnonneg := nonneg_div (by decide : le zero one = true) (by decide) hx
  obtain ⟨hnum, hsign⟩ := nonneg_iff.1 hnonneg
  have hmag : 0 < mag (div one x) := by
    have hmax : units (mag x) ≤ units (infMag - 1) :=
      units_strictMono.monotone (Nat.le_sub_one_of_lt (of_decide_eq_true hfx))
    have hbound : units (infMag - 1) ≤ units (mag one) * 2 ^ 149 := by decide +kernel
    rw [mag_div (by decide) hfx (isZero_of_pos hx)]
    exact roundMag_pos (units_pos (isZero_of_pos hx)) (hmax.trans hbound)
  exact pos_iff.2 ⟨hnum, hsign.resolve_right (by omega), hmag⟩

/-- The reciprocal of a greater number is no greater. -/
theorem reciprocal_finite {lo x : F32} (hlo : lt zero lo = true) (hflo : finite lo = true) (hx : le lo x = true)
    (hfx : finite x = true) (h : finite (div one lo) = true) : finite (div one x) = true := by
  have hx0 := pos_of_le hlo hx
  refine finite_of_mag_le (b := div one lo) ?_ h
  rw [mag_div (by decide) hfx (isZero_of_pos hx0), mag_div (by decide) hflo (isZero_of_pos hlo)]
  exact roundMag_mono (units_pos (isZero_of_pos hx0)) (units_pos (isZero_of_pos hlo))
    (Nat.mul_le_mul_left _ (units_strictMono.monotone (mag_le_of_le hlo hx)))

/-- The factor `1 + jitter·u` of R131 is in [0, 2]. -/
theorem jitterFactor_bounds {j u : F32} (hj : inUnit j = true) (hu : le (abs u) one = true) :
    le zero (add one (mul j u)) = true ∧ mag (add one (mul j u)) ≤ mag two := by
  have hone : value one = 2 ^ 149 := by decide +kernel
  have hunitsOne : units (mag one) = 2 ^ 149 := by decide +kernel
  have hmu : mag u ≤ mag one := mag_le_of_abs_le (by decide) hu
  have hmj : mag j ≤ mag one := mag_le_of_inUnit hj
  have hmp : mag (mul j u) ≤ mag one := by
    rw [mag_mul (finite_of_inUnit hj) (finite_of_mag_le hmu (by decide))]
    calc roundMag (units (mag j) * units (mag u)) (2 ^ 149)
        ≤ roundMag (units (mag one) * units (mag one)) (2 ^ 149) :=
          roundMag_mono (by decide) (by decide) (Nat.mul_le_mul_right _
            (Nat.mul_le_mul (units_strictMono.monotone hmj) (units_strictMono.monotone hmu)))
      _ = mag one := by decide +kernel
  have hfp : finite (mul j u) = true := finite_of_mag_le hmp (by decide)
  have hvp : (value (mul j u)).natAbs ≤ 2 ^ 149 := by
    rw [natAbs_value, ← hunitsOne]
    exact units_strictMono.monotone hmp
  have hsum : 0 ≤ value one + value (mul j u) ∧ (value one + value (mul j u)).natAbs ≤ 2 ^ 150 := by
    rw [hone]; omega
  obtain ⟨hnonneg, hbound⟩ := hsum
  have hfone : finite one = true := by decide
  constructor
  · rw [add_finite hfone hfp]
    split_ifs
    · exact pack_nonneg (by decide) (.inr rfl)
    · exact pack_nonneg (roundMag_le_infMag _ _) (.inl (decide_eq_false (not_lt.2 hnonneg)))
  · have htwo : roundMag (2 ^ 150) 1 = mag two := by decide +kernel
    rw [mag_add hfone hfp, ← htwo]
    exact roundMag_mono Nat.one_pos Nat.one_pos (Nat.mul_le_mul_right 1 hbound)

/-- A finite value times the factor is a number. -/
theorem jittered_isNum {v j u : F32} (hv : finite v = true) (hj : inUnit j = true) (hu : le (abs u) one = true) :
    isNaN (mul v (add one (mul j u))) = false :=
  isNaN_mul hv (finite_of_mag_le (jitterFactor_bounds hj hu).2 (by decide))

/-- A value whose double is finite is finite after the jitter. -/
theorem jittered_finite {v j u : F32} (hv : finite v = true) (hv2 : finite (mul two v) = true) (hj : inUnit j = true)
    (hu : le (abs u) one = true) : finite (mul v (add one (mul j u))) = true := by
  have htwo : finite two = true := by decide
  obtain ⟨-, hfactor⟩ := jitterFactor_bounds hj hu
  refine finite_of_mag_le (b := mul two v) ?_ hv2
  rw [mag_mul hv (finite_of_mag_le hfactor htwo), mag_mul htwo hv, mul_comm (units (mag two))]
  have hunits : units (mag v) * units (mag (add one (mul j u))) ≤ units (mag v) * units (mag two) :=
    Nat.mul_le_mul_left _ (units_strictMono.monotone hfactor)
  exact roundMag_mono (by decide) (by decide) (Nat.mul_le_mul_right _ hunits)

/-- A number brought up to a floor is at least the floor. -/
theorem le_atLeast {x lo : F32} (hx : isNaN x = false) (hlo : isNaN lo = false) : le lo (atLeast x lo) = true := by
  unfold atLeast
  split_ifs with h
  · exact le_iff.2 ⟨hlo, hlo, le_refl _⟩
  · exact le_of_not_lt hx hlo (by simpa using h)

theorem atLeast_finite {x lo : F32} (hx : finite x = true) (hlo : finite lo = true) : finite (atLeast x lo) = true := by
  unfold atLeast
  split_ifs
  · exact hlo
  · exact hx

end Sys2Proof.Machine.Fp

namespace Sys2Proof.Machine

/-! ### The envelope -/

/-- In the reference format a stage that goes on has a finite elapsed time, and a finite share of its length: either the
comparison was open, which says so, or the time is below the length. -/
theorem finite_of_not_reaches {site : Config.TieSite} {a b : Tracked} {x y : F32} (ha : a.val = .f32 x)
    (hb : b.val = .f32 y) (hx : Fp.le Fp.zero x = true) (hy : positive y = true)
    (h : reaches .binary32 site a b = false) : Fp.finite x = true ∧ Fp.finite (Fp.div x y) = true := by
  cases htie : tieOpen .binary32 a b with
  | true =>
    obtain ⟨hfa, -, hquot, -, -⟩ := tieOpen_finite htie
    rw [ha] at hfa
    rw [ha, hb] at hquot
    exact ⟨hfa, hquot⟩
  | false =>
    rw [reaches_closed htie, ha, hb, Val.le_f32] at h
    have hlt : Fp.lt x y = true := by
      by_contra hn
      have hle := Fp.le_of_not_lt (Fp.nonneg_iff.1 hx).1 (Fp.isNaN_of_finite (positive_finite hy)) (by simpa using hn)
      simp [h] at hle
    have hmag := (Fp.mag_lt_of_lt hx (positive_lt hy) hlt).le
    exact ⟨Fp.finite_of_mag_le hmag (positive_finite hy),
      Fp.finite_div_of_mag_le (positive_lt hy) (positive_finite hy) hmag⟩

/-- An envelope in the reference format before the clamp of R93: as in R30, but of the amplitude only that it is a number. -/
def envUnclamped (e : Env) : Bool :=
  e.amp.wordIs (fun w => !Fp.isNaN w) && e.start.wordIs inUnit && e.elapsed.val.wordIs (atLeastFinite Fp.zero)

theorem envLegal_iff {e : Env} : envLegal e = true ↔ (∃ a, e.amp = .f32 a ∧ inUnit a = true) ∧
    (∃ b, e.start = .f32 b ∧ inUnit b = true) ∧ ∃ x, e.elapsed.val = .f32 x ∧ atLeastFinite Fp.zero x = true := by
  simp [envLegal, Val.wordIs_iff, and_assoc]

theorem envUnclamped_iff {e : Env} : envUnclamped e = true ↔ (∃ a, e.amp = .f32 a ∧ Fp.isNaN a = false) ∧
    (∃ b, e.start = .f32 b ∧ inUnit b = true) ∧ ∃ x, e.elapsed.val = .f32 x ∧ atLeastFinite Fp.zero x = true := by
  simp [envUnclamped, Val.wordIs_iff, and_assoc]

theorem isNaN_of_inUnit {x : F32} (h : inUnit x = true) : Fp.isNaN x = false :=
  Fp.isNaN_of_finite (Fp.finite_of_inUnit h)

/-- The clamp of R93 makes the envelope legal. -/
theorem envLegal_clamp {e : Env} (h : envUnclamped e = true) : envLegal { e with amp := e.amp.clamp01 } = true := by
  obtain ⟨⟨a, hamp, ha⟩, hstart, helapsed⟩ := envUnclamped_iff.1 h
  exact envLegal_iff.2 ⟨⟨Fp.clamp01 a, by simp [hamp], Fp.clamp01_unit ha⟩, hstart, helapsed⟩

/-- A timed stage ends at its target, or goes on from its start by a finite share of a finite way. -/
theorem envRamp_unclamped {b len d : F32} {dt : Tracked} {next : Stage} {e : Env} (he : envLegal e = true)
    (htarget : inUnit b = true) (hlen : positive len = true) (hdt : dt.val = .f32 d) (hd : Fp.le Fp.zero d = true) :
    envUnclamped (envRamp .binary32 (.f32 b) len dt next e) = true := by
  obtain ⟨-, ⟨s, hstart, hs⟩, x, helapsed, hx⟩ := envLegal_iff.1 he
  have hsum : (Tracked.add .binary32 e.elapsed dt).val = .f32 (Fp.add x d) := by simp [helapsed, hdt]
  have hnonneg : Fp.le Fp.zero (Fp.add x d) = true := Fp.nonneg_add (Bool.and_eq_true_iff.1 hx).2 hd
  rcases envRamp_cases .binary32 (.f32 b) len dt next e with ⟨-, hend⟩ | ⟨hgoes, hend⟩
  · rw [hend]
    exact envUnclamped_iff.2 ⟨⟨b, rfl, isNaN_of_inUnit htarget⟩, ⟨b, rfl, htarget⟩, Fp.zero, rfl, by decide⟩
  · obtain ⟨hfinite, hquot⟩ := finite_of_not_reaches hsum rfl hnonneg hlen hgoes
    rw [hend]
    refine envUnclamped_iff.2 ⟨⟨Fp.add s (Fp.mul (Fp.sub b s) (Fp.div (Fp.add x d) len)), ?_, ?_⟩, ⟨s, hstart, hs⟩,
      Fp.add x d, hsum, ?_⟩
    · simp [hstart, helapsed, hdt]
    · exact Fp.isNaN_add (Fp.finite_of_inUnit hs) (Fp.isNaN_mul (Fp.finite_sub_of_inUnit htarget hs) hquot)
    · simp [atLeastFinite, hfinite, hnonneg]

/-- What the envelope reads of a legal timbre: a level in [0, 1] and three lengths above 0 (R14). -/
theorem envelope_of_timbreLegal {c : Config.Params} {t : Timbre} (hc : paramsLegal c = true)
    (ht : timbreLegal c t = true) : inUnit t.envSustain = true ∧ positive t.envAttack = true ∧
      positive t.envDecay = true ∧ positive t.envRelease = true := by
  obtain ⟨htMin, -, -⟩ := floors_of_paramsLegal hc
  have hfloor : ∀ {x}, atLeastFinite c.tMin x = true → positive x = true := fun hx => by
    obtain ⟨hfx, hle⟩ := Bool.and_eq_true_iff.1 hx
    simp [positive, hfx, Fp.pos_of_le (positive_lt htMin) hle]
  simp only [timbreLegal, Bool.and_eq_true] at ht
  exact ⟨by tauto, hfloor (by tauto), hfloor (by tauto), hfloor (by tauto)⟩

/-- A tick keeps an envelope legal (R30, R93 to R98). -/
theorem envTick_legal {c : Config.Params} {t : Timbre} {dt : Tracked} {d : F32} {e : Env} (hc : paramsLegal c = true)
    (ht : timbreLegal c t = true) (hdt : dt.val = .f32 d) (hd : Fp.le Fp.zero d = true) (he : envLegal e = true) :
    envLegal (envTick .binary32 t dt e) = true := by
  obtain ⟨hsustain, hattack, hdecay, hrelease⟩ := envelope_of_timbreLegal hc ht
  obtain ⟨-, hstart, helapsed⟩ := envLegal_iff.1 he
  have level : ∀ {w}, inUnit w = true → envUnclamped { e with amp := .f32 w } = true := fun hw =>
    envUnclamped_iff.2 ⟨⟨_, rfl, isNaN_of_inUnit hw⟩, hstart, helapsed⟩
  refine envLegal_clamp ?_
  unfold envBody
  cases hstage : e.stage with
  | idle => exact level (w := Fp.zero) (by decide)
  | attack => exact envRamp_unclamped (b := Fp.one) he (by decide) hattack hdt hd
  | decay => exact envRamp_unclamped he hsustain hdecay hdt hd
  | sustain => exact level hsustain
  | release => exact envRamp_unclamped (b := Fp.zero) he (by decide) hrelease hdt hd

/-- The frame time of a rate above 0 is a number not below 0. -/
theorem stepOf_nonneg {c : Config.Params} {sr : F32} (hn : c.num = .binary32) (hc : paramsLegal c = true)
    (hsr : Fp.finite sr = true) :
    ∃ d, (stepOf c.num (Fp.atLeast sr c.srMin)).val = .f32 d ∧ Fp.le Fp.zero d = true := by
  obtain ⟨-, hsrMin, -⟩ := floors_of_paramsLegal hc
  have hle := Fp.le_atLeast (Fp.isNaN_of_finite hsr) (Fp.isNaN_of_finite (positive_finite hsrMin))
  rw [hn]
  exact ⟨_, rfl, Fp.nonneg_div (by decide) (by decide) (Fp.pos_of_le (positive_lt hsrMin) hle)⟩

/-- `ENV_ON` and `ENV_OFF` restart from the amplitude, which is in [0, 1]. -/
theorem envRestart_legal {e : Env} (stage : Stage) (he : envLegal e = true) :
    envLegal { e with start := e.amp, elapsed := .zero, stage := stage } = true := by
  obtain ⟨hamp, -, -⟩ := envLegal_iff.1 he
  exact envLegal_iff.2 ⟨hamp, hamp, Fp.zero, rfl, by decide⟩

/-- A new voice's envelope is legal. -/
theorem created_env_legal (s : State) (f : F32) : envLegal (create s f).1.env = true :=
  envRestart_legal .attack (e := envInit) (by decide)

/-- Settles O53: of every voice, that its timbre and its envelope are legal is kept by each event of a voice's life. -/
theorem stepKeepsAmplitudesInRange : Obligations.StepKeepsAmplitudesInRange := by
  unfold Obligations.StepKeepsAmplitudesInRange
  intro s t hn hc htimbres henvs h
  obtain ⟨hregs, hlatched⟩ := (timbresLegal_iff s).1 htimbres
  have hkept := step_keeps_voices (P := fun v => timbreLegal s.cfg v.t = true ∧ envLegal v.env = true) h
    (fun v hv => ⟨hlatched v hv, List.all_eq_true.1 henvs v hv⟩)
    (fun f => ⟨hregs, created_env_legal s f⟩)
    (fun id f v ⟨ht, he⟩ => ⟨ht, envRestart_legal .attack he⟩)
    (fun v ⟨ht, he⟩ => ⟨ht, envRestart_legal .release he⟩)
    (fun sr hsr v r ⟨ht, he⟩ => by
      obtain ⟨d, hd, hnonneg⟩ := stepOf_nonneg hn hc hsr
      rw [voiceStep_env, voiceStep_t]
      rw [hn] at hd ⊢
      exact ⟨ht, envTick_legal hc ht hd hnonneg he⟩)
  exact List.all_eq_true.2 fun v hv => (hkept v hv).2

/-! ### The grain gate -/

/-- A legal timbre's grain registers: rate at least the floor, duty finite, jitter in [0, 1] (R14). -/
theorem grain_of_timbreLegal {c : Config.Params} {t : Timbre} (ht : timbreLegal c t = true) :
    Fp.finite t.grainRate = true ∧ Fp.finite t.grainDuty = true ∧ inUnit t.grainJitter = true := by
  simp only [timbreLegal, atLeastFinite, Bool.and_eq_true] at ht
  tauto

/-- The jittered rate of a roll, brought up to the floor (R133), in the reference format. -/
def rolledRate (c : Config.Params) (t : Timbre) (r : Rnd) : F32 :=
  Fp.atLeast (Fp.mul t.grainRate (Fp.add Fp.one (Fp.mul t.grainJitter (draw r).1))) c.grainRateMin

/-- The jittered share of a roll that is open (R133), in the reference format. -/
def rolledShare (t : Timbre) (r : Rnd) : F32 :=
  Fp.clamp01 (Fp.mul t.grainDuty (Fp.add Fp.one (Fp.mul t.grainJitter (draw (draw r).2).1)))

theorem grainRoll_len {c : Config.Params} (hn : c.num = .binary32) (t : Timbre) (g : Grain) (r : Rnd) :
    (grainRoll c t g r).1.len.val = .f32 (Fp.div Fp.one (rolledRate c t r)) := by
  simp [grainRoll, grainOf, jittered, rolledRate, hn, Val.one]

theorem grainRoll_duty {c : Config.Params} (hn : c.num = .binary32) (t : Timbre) (g : Grain) (r : Rnd) :
    (grainRoll c t g r).1.duty.val
      = .f32 (Fp.mul (rolledShare t r) (Fp.div Fp.one (rolledRate c t r))) := by
  simp [grainRoll, grainOf, jittered, rolledRate, rolledShare, hn, Val.one]

/-- The rate of a roll is at least the floor. -/
theorem rolledRate_ge {c : Config.Params} {t : Timbre} (hc : paramsLegal c = true) (ht : timbreLegal c t = true)
    (r : Rnd) : Fp.le c.grainRateMin (rolledRate c t r) = true := by
  obtain ⟨-, -, hrateMin⟩ := floors_of_paramsLegal hc
  obtain ⟨hrate, -, hjitter⟩ := grain_of_timbreLegal ht
  exact Fp.le_atLeast (Fp.jittered_isNum hrate hjitter (draw_unit r)) (Fp.isNaN_of_finite (positive_finite hrateMin))

theorem rolledRate_pos {c : Config.Params} {t : Timbre} (hc : paramsLegal c = true) (ht : timbreLegal c t = true)
    (r : Rnd) : Fp.lt Fp.zero (rolledRate c t r) = true :=
  Fp.pos_of_le (positive_lt (floors_of_paramsLegal hc).2.2) (rolledRate_ge hc ht r)

/-- Where twice the rate is in the format, the rate of a roll is finite. -/
theorem rolledRate_finite {c : Config.Params} {t : Timbre} (hc : paramsLegal c = true) (ht : timbreLegal c t = true)
    (hformat : Fp.finite (Fp.mul Fp.two t.grainRate) = true) (r : Rnd) : Fp.finite (rolledRate c t r) = true := by
  obtain ⟨-, -, hrateMin⟩ := floors_of_paramsLegal hc
  obtain ⟨hrate, -, hjitter⟩ := grain_of_timbreLegal ht
  exact Fp.atLeast_finite (Fp.jittered_finite hrate hformat hjitter (draw_unit r)) (positive_finite hrateMin)

theorem rolledShare_unit {c : Config.Params} {t : Timbre} (ht : timbreLegal c t = true) (r : Rnd) :
    inUnit (rolledShare t r) = true := by
  obtain ⟨-, hduty, hjitter⟩ := grain_of_timbreLegal ht
  exact Fp.clamp01_unit (Fp.jittered_isNum hduty hjitter (draw_unit _))

/-- A grain's length is a number not below 0 (R32). -/
def grainLenLegal (g : Grain) : Bool := g.len.val.wordIs (Fp.le Fp.zero)

/-- A grain's length is above 0 and its open time is a number not below 0 (R32). -/
def grainSpanProper (g : Grain) : Bool := g.len.val.wordIs (Fp.lt Fp.zero) && g.duty.val.wordIs (Fp.le Fp.zero)

/-- A rolled length is the reciprocal of a number above 0. -/
theorem grainRoll_lenLegal {c : Config.Params} {t : Timbre} (hn : c.num = .binary32) (hc : paramsLegal c = true)
    (ht : timbreLegal c t = true) (g : Grain) (r : Rnd) : grainLenLegal (grainRoll c t g r).1 = true := by
  rw [grainLenLegal, grainRoll_len hn, Val.wordIs_f32]
  exact Fp.nonneg_div (by decide) (by decide) (rolledRate_pos hc ht r)

/-- Within the format the reciprocal is above 0 and finite, so its product with a share in [0, 1] is a number. -/
theorem grainRoll_spanProper {c : Config.Params} {t : Timbre} (hn : c.num = .binary32) (hc : paramsLegal c = true)
    (ht : timbreLegal c t = true) (hfloor : Fp.finite (Fp.div Fp.one c.grainRateMin) = true)
    (hformat : Fp.finite (Fp.mul Fp.two t.grainRate) = true) (g : Grain) (r : Rnd) :
    grainSpanProper (grainRoll c t g r).1 = true := by
  obtain ⟨-, -, hrateMin⟩ := floors_of_paramsLegal hc
  have hfinite := rolledRate_finite hc ht hformat r
  have hlen := Fp.reciprocal_pos (rolledRate_pos hc ht r) hfinite
  have hlenFinite := Fp.reciprocal_finite (positive_lt hrateMin) (positive_finite hrateMin) (rolledRate_ge hc ht r)
    hfinite hfloor
  have hshare := rolledShare_unit ht r
  rw [grainSpanProper, grainRoll_len hn, grainRoll_duty hn, Val.wordIs_f32, Val.wordIs_f32, hlen, Bool.true_and]
  exact Fp.nonneg_mul (Bool.and_eq_true_iff.1 hshare).1 (Fp.finite_of_inUnit hshare) (Fp.nonneg_of_pos hlen) hlenFinite

/-- A grain's timer is a number not below 0 (R32). -/
def grainTimerLegal (g : Grain) : Bool := g.timer.val.wordIs (Fp.le Fp.zero)

theorem grainLegal_eq (g : Grain) : grainLegal g = (grainTimerLegal g && grainLenLegal g) := rfl

theorem grainProper_eq (g : Grain) : grainProper g = (grainTimerLegal g && grainSpanProper g) :=
  Bool.and_assoc ..

/-- A property of a grain that does not read its timer, so that a roll alone decides it. -/
def readsNoTimer (Q : Grain → Bool) : Prop := ∀ g timer, Q { g with timer := timer } = Q g

/-- The gate keeps the timer legal, which it resets or advances, and of the rest what every roll gives. -/
theorem grainAdvance_keeps {c : Config.Params} {t : Timbre} {step : Tracked} {d : F32} {Q : Grain → Bool}
    (hQ : readsNoTimer Q) (hn : c.num = .binary32) (hstep : step.val = .f32 d) (hd : Fp.le Fp.zero d = true)
    {g : Grain} (r : Rnd) (hroll : Q (grainRoll c t g r).1 = true) (hg : (grainTimerLegal g && Q g) = true) :
    (grainTimerLegal (grainAdvance c t step g r).1 && Q (grainAdvance c t step g r).1) = true := by
  obtain ⟨htimer, hrest⟩ := Bool.and_eq_true_iff.1 hg
  obtain ⟨x, hx, hnonneg⟩ := Val.wordIs_iff.1 htimer
  rcases grainAdvance_cases c t step g r with ⟨-, hend⟩ | ⟨-, hend⟩
  · rw [hend, hQ, hroll, Bool.and_true]
    exact Val.wordIs_iff.2 ⟨Fp.zero, rfl, by decide⟩
  · rw [hend, hQ, hrest, Bool.and_true]
    refine Val.wordIs_iff.2 ⟨Fp.add x d, ?_, Fp.nonneg_add hnonneg hd⟩
    simp [hn, hx, hstep]

/-- A step keeps every grain's timer legal, and of the rest what every roll of the registers and of the latched timbres
gives. -/
theorem step_keeps_grains {s t : State} {Q : Grain → Bool} {R : Timbre → Prop} (hQ : readsNoTimer Q)
    (hn : s.cfg.num = .binary32) (hc : paramsLegal s.cfg = true)
    (hroll : ∀ tm, R tm → ∀ g r, Q (grainRoll s.cfg tm g r).1 = true) (hregs : R s.timbre)
    (hlatched : ∀ v ∈ s.voices, R v.t) (hs : ∀ v ∈ s.voices, (grainTimerLegal v.gr && Q v.gr) = true)
    (h : step s = .next t) : ∀ v ∈ t.voices, (grainTimerLegal v.gr && Q v.gr) = true := by
  have hkept := step_keeps_voices (P := fun v => R v.t ∧ (grainTimerLegal v.gr && Q v.gr) = true) h
    (fun v hv => ⟨hlatched v hv, hs v hv⟩)
    (fun f => ⟨hregs, Bool.and_eq_true_iff.2 ⟨by rfl, hroll _ hregs _ _⟩⟩)
    (fun _ _ _ hv => hv) (fun _ hv => hv)
    (fun sr hsr v r ⟨ht, hgr⟩ => by
      obtain ⟨d, hd, hnonneg⟩ := stepOf_nonneg hn hc hsr
      rw [voiceStep_gr, voiceStep_t]
      refine ⟨ht, ?_⟩
      split_ifs
      · exact grainAdvance_keeps hQ hn hd hnonneg r (hroll v.t ht v.gr r) hgr
      · exact hgr)
  exact fun v hv => (hkept v hv).2

theorem grainRatesInFormat_iff (s : State) : grainRatesInFormat s = true ↔
    Fp.finite (Fp.div Fp.one s.cfg.grainRateMin) = true ∧ Fp.finite (Fp.mul Fp.two s.timbre.grainRate) = true ∧
      ∀ v ∈ s.voices, Fp.finite (Fp.mul Fp.two v.t.grainRate) = true := by
  simp [grainRatesInFormat, and_assoc]

/-- Settles O54: what every roll of a legal timbre gives, and every frame keeps, once in every legal state and once where
the rates stay within the format. -/
theorem stepKeepsGrainTimesNonNegative : Obligations.StepKeepsGrainTimesNonNegative := by
  unfold Obligations.StepKeepsGrainTimesNonNegative
  intro s t hn hc htimbres h
  obtain ⟨hregs, hlatched⟩ := (timbresLegal_iff s).1 htimbres
  constructor
  · intro hgrains
    have hs := List.all_eq_true.1 hgrains
    refine List.all_eq_true.2 ?_
    simp only [grainLegal_eq] at hs ⊢
    exact step_keeps_grains (R := fun tm => timbreLegal s.cfg tm = true) (fun _ _ => rfl) hn hc
      (fun tm htm g r => grainRoll_lenLegal hn hc htm g r) hregs hlatched hs h
  · intro hformat hgrains
    obtain ⟨hfloor, hregsFormat, hlatchedFormat⟩ := (grainRatesInFormat_iff s).1 hformat
    have hs := List.all_eq_true.1 hgrains
    refine List.all_eq_true.2 ?_
    simp only [grainProper_eq] at hs ⊢
    exact step_keeps_grains
      (R := fun tm => timbreLegal s.cfg tm = true ∧ Fp.finite (Fp.mul Fp.two tm.grainRate) = true)
      (fun _ _ => rfl) hn hc (fun tm ⟨htm, hrate⟩ g r => grainRoll_spanProper hn hc htm hfloor hrate g r)
      ⟨hregs, hregsFormat⟩ (fun v hv => ⟨hlatched v hv, hlatchedFormat v hv⟩) hs h

end Sys2Proof.Machine

/-! PROOFS. The statements of 20_memory.md: what is written to `OUT`, what the host reads there, and the step that executes
a command. -/

namespace Sys2Proof.Machine

/-! ### The words a `RENDER` writes -/

/-- A finite stored number of any format is a number. -/
theorem isNum_of_finite {x : Val} (h : x.finite = true) : x.isNum = true := by
  cases x with
  | num q => rfl
  | f32 w => simp [Fp.isNaN_of_finite h]

/-- The word of a frame is a sample in every format (R43, R161). -/
theorem mixSample_inSample (n : Config.NumFormat) (acc : Val) : inSample (mixSample n acc) = true := by
  refine Config.NumFormat.store_sample (Val.clamp_sample ?_)
  split_ifs with hacc
  · exact isNum_of_finite hacc
  · decide

/-- The word that the frame after a run writes on every channel (R160, R161). -/
def frameWord (c : Config.Params) (sr : F32) (x : RenderRun) : Word :=
  mixSample c.num (mixVoices c sr x.voices .zero x.rnd).acc

theorem renderFrame_out (c : Config.Params) (sr : F32) (ch n : Nat) (x : RenderRun) :
    (renderFrame c sr ch n x).out = writeChannels x.out (n * ch) (frameWord c sr x) ch := rfl

/-- The frames of a `RENDER` fit in `OUT` (R159). -/
theorem renderOperands_fit (c : Config.Params) (n ch : Word) (sr : F32) :
    (renderOperands c n ch sr).frames * (renderOperands c n ch sr).channels ≤ c.outCap :=
  (Nat.mul_le_mul_right _ (min_le_right _ _)).trans (Nat.div_mul_le_self _ _)

/-- A word after the frames of a `RENDER`: on every channel of a frame the frame's word, above them as before (R42). -/
theorem readWord_renderFrames (c : Config.Params) (sr : F32) (ch k : Nat) (x : RenderRun) (a : Nat) :
    readWord (renderFrames c sr ch k x).out a
      = if a < k * ch then some (frameWord c sr (renderFrames c sr ch (a / ch) x)) else readWord x.out a := by
  induction k with
  | zero => simp [renderFrames]
  | succ k ih =>
    have hsucc : (k + 1) * ch = k * ch + ch := Nat.succ_mul k ch
    rw [renderFrames, renderFrame_out, readWord_writeChannels, ih]
    by_cases hframe : k * ch ≤ a ∧ a < k * ch + ch
    · have hdiv : a / ch = k := Nat.div_eq_of_lt_le hframe.1 (hsucc ▸ hframe.2)
      rw [if_pos hframe, if_pos (by omega), hdiv]
    · rw [if_neg hframe]
      by_cases hbefore : a < k * ch
      · rw [if_pos hbefore, if_pos (by omega)]
      · rw [if_neg hbefore, if_neg (by omega)]

/-- A byte above the words of the frames reads as before them (R42). -/
theorem readByte_renderFrames_above (c : Config.Params) (sr : F32) (ch k : Nat) (x : RenderRun) {a : Nat}
    (h : 4 * (k * ch) ≤ a) : readByte (renderFrames c sr ch k x).out a = readByte x.out a := by
  induction k with
  | zero => rfl
  | succ k ih =>
    have hsucc : (k + 1) * ch = k * ch + ch := Nat.succ_mul k ch
    rw [renderFrames, renderFrame_out, readByte_writeChannels_other _ _ _ _ (by omega), ih (by omega)]

/-! ### What every write of a sample inside `OUT` keeps, every step keeps -/

/-- A property of `OUT` that a write of any sample to any word inside its capacity keeps. -/
def keptByWrites (cap : Nat) (P : Memory → Prop) : Prop :=
  ∀ m a w, a < cap → inSample w = true → P m → P (writeWord m a w)

theorem writeChannels_keeps {cap : Nat} {P : Memory → Prop} (hP : keptByWrites cap P) {m : Memory} (hm : P m)
    {a : Nat} {w : Word} (hw : inSample w = true) {n : Nat} (hfit : a + n ≤ cap) : P (writeChannels m a w n) := by
  induction n with
  | zero => exact hm
  | succ n ih => exact hP _ _ _ (by omega) hw (ih (by omega))

theorem renderFrames_keeps_out {cap : Nat} {P : Memory → Prop} (hP : keptByWrites cap P) {c : Config.Params} {sr : F32}
    {ch k : Nat} {x : RenderRun} (hx : P x.out) (hfit : k * ch ≤ cap) : P (renderFrames c sr ch k x).out := by
  induction k with
  | zero => exact hx
  | succ k ih =>
    have hsucc : (k + 1) * ch = k * ch + ch := Nat.succ_mul k ch
    exact writeChannels_keeps hP (ih (by omega)) (mixSample_inSample _ _) (by omega)

/-- Everything a step can do to `OUT`: reset leaves it without a value, a `RENDER` writes its frames, and any other step
leaves it (R40, R198). -/
theorem step_out_cases {s t : State} (h : step s = .next t) : t.out = [] ∨ t.out = s.out ∨
    ∃ n c sr, t.out = (renderRun s (renderOperands s.cfg n c sr)).out := by
  have out_of_next : ∀ u, step s = .next u → t.out = u.out := fun u hu => by
    obtain rfl : u = t := by simpa using hu.symm.trans h
    rfl
  rcases step_cases s with ⟨-, hu⟩ | ⟨-, -, hu⟩ | ⟨-, -, hu⟩ | ⟨-, header, rest, -, -, hu⟩ | ⟨i, rest, -, -, hu⟩
  · exact .inl ((out_of_next _ hu).trans (resetEngine_out s))
  · exact .inr (.inl ((out_of_next _ hu).trans (deliver_out s)))
  · exact .inr (.inl ((out_of_next _ hu).trans (accept_out s)))
  · exact .inr (.inl ((out_of_next _ hu).trans (answer_out ..)))
  · cases effect_of_exec (hu.symm.trans h) with
    | rendered n c sr => exact .inr (.inr ⟨n, c, sr, rfl⟩)
    | _ => exact .inr (.inl rfl)

/-- What holds of an `OUT` without a value and is kept by every write of a sample inside it, every step keeps. -/
theorem step_keeps_out {P : Memory → Prop} {s t : State} (h : step s = .next t) (hempty : P []) (hs : P s.out)
    (hP : keptByWrites s.cfg.outCap P) : P t.out := by
  rcases step_out_cases h with hout | hout | ⟨n, c, sr, hout⟩
  · rwa [hout]
  · rwa [hout]
  · rw [hout]
    exact renderFrames_keeps_out hP hs (renderOperands_fit s.cfg n c sr)

/-- The canonical form, and no byte at or above the capacity: `outInside` of the memory alone (R40, log 14). -/
def memoryInside (cap : Nat) (m : Memory) : Prop := memoryWf m = true ∧ ∀ a, 4 * cap ≤ a → readByte m a = none

theorem outInside_iff (s : State) : outInside s ↔ memoryInside s.cfg.outCap s.out := Iff.rfl

theorem memoryInside_keptByWrites (cap : Nat) : keptByWrites cap (memoryInside cap) := by
  intro m a w ha _ ⟨hwf, habove⟩
  refine ⟨writeWord_wf hwf a w, fun x hx => ?_⟩
  rw [readByte_writeWord_other m a w (by omega)]
  exact habove x hx

/-- Settles O57: a `RENDER` writes words below `OUTCAP` only, and every such write keeps the canonical form. -/
theorem stepKeepsOutInside : Obligations.StepKeepsOutInside := by
  unfold Obligations.StepKeepsOutInside
  intro s t hs h
  rw [outInside_iff] at hs ⊢
  rw [step_cfg h]
  exact step_keeps_out h ⟨rfl, fun _ _ => rfl⟩ hs (memoryInside_keptByWrites s.cfg.outCap)

theorem outSamples_keptByWrites (cap : Nat) : keptByWrites cap outSamples := by
  intro m a w _ hw hm x b hb
  by_cases hx : x / 4 = a
  · exact ⟨w, by rw [hx, readWord_writeWord_same], hw⟩
  · rw [readByte_writeWord_other m a w hx] at hb
    rw [readWord_writeWord_other m w hx]
    exact hm x b hb

/-- Settles O58: what a step writes to `OUT` are whole words, each the clamped mix of a frame. -/
theorem stepKeepsOutSamples : Obligations.StepKeepsOutSamples := by
  unfold Obligations.StepKeepsOutSamples
  intro s t hs h
  exact step_keeps_out h (fun _ _ hb => by cases hb) hs (outSamples_keptByWrites s.cfg.outCap)

/-! ### The statement about a `RENDER` -/

/-- What a `RENDER` at a finite rate leaves in `OUT` (R160). -/
theorem execRender_out {n c : Word} {sr : F32} {s t : State} (hsr : Fp.finite sr = true)
    (h : exec (.render n c sr) s = .next t) : t.out = (renderRun s (renderOperands s.cfg n c sr)).out := by
  rcases execRender_cases n c sr s with ⟨hnot, -⟩ | ⟨-, hrender⟩
  · simp [hsr] at hnot
  · obtain rfl := Host.Outcome.next.inj (hrender.symm.trans h)
    rfl

/-- Settles O30: the sample of frame `k` is the frame's word, read back on each of its channels. -/
theorem renderWritesInterleavedFrames : Obligations.RenderWritesInterleavedFrames := by
  unfold Obligations.RenderWritesInterleavedFrames
  intro n c sr s o hsr ho
  obtain ⟨t, ht, -⟩ := exec_effect (.render n c sr) s
  have hout : t.out = (renderRun s o).out := ho ▸ execRender_out hsr ht
  refine ⟨t, ht, ⟨fun k => frameWord s.cfg o.rate (renderRun s { o with frames := k }), fun k hk =>
    ⟨mixSample_inSample _ _, fun j hj => ?_⟩⟩, fun a ha => ?_⟩
  · have hdiv : (k * o.channels + j) / o.channels = k :=
      Nat.div_eq_of_lt_le (by omega) (by rw [Nat.succ_mul]; omega)
    have hwritten : k * o.channels + j < o.frames * o.channels :=
      calc k * o.channels + j < (k + 1) * o.channels := by rw [Nat.succ_mul]; omega
        _ ≤ o.frames * o.channels := Nat.mul_le_mul_right _ hk
    rw [hout, renderRun, readWord_renderFrames, if_pos hwritten, hdiv]
    rfl
  · rw [hout, renderRun, readByte_renderFrames_above _ _ _ _ _ ha]

/-! ### The step that executes a command -/

/-- Where a command can start and the stream holds one, a step executes it (R46). -/
theorem step_eq_exec {s : State} {i : Instr} {rest : List Word} (hstart : canStart s = true)
    (hfetch : decode (stream s) = .instr i rest) : step s = exec i (consume rest s) := by
  obtain ⟨hrst, hrsp⟩ := (canStart_iff s).mp hstart
  have hstalled : stalled s = false := by simp [stalled, rspValid, hrsp]
  simp [step, fetch, hrst, hstalled, hfetch]

/-- Settles O3: the state a command starts from is the one with its words taken from the stream. -/
theorem stepExecutesTheDecodedInstruction : Obligations.StepExecutesTheDecodedInstruction := by
  unfold Obligations.StepExecutesTheDecodedInstruction
  intro s i rest hstart hdecode
  rw [← consume_eq]
  exact step_eq_exec hstart hdecode

/-! ### The host's read of `OUT` -/

theorem encodingLength (i : Instr) : Laws.EncodingLength.Statement i := by
  cases i with
  | noteOn f => exact Laws.EncodingLength.noteOn f
  | noteOff id => exact Laws.EncodingLength.noteOff id
  | noteOffFreq f => exact Laws.EncodingLength.noteOffFreq f
  | setp sel v => exact Laws.EncodingLength.setp sel v
  | getp sel => exact Laws.EncodingLength.getp sel
  | render n c sr => exact Laws.EncodingLength.render n c sr

/-- The search for a `RENDER` passes over the operands of a header. -/
theorem streamRenders_operands (ops ws : List Word) : streamRenders ops.length (ops ++ ws) = streamRenders 0 ws := by
  induction ops with
  | nil => rfl
  | cons op ops ih => exact ih

/-- A `RENDER` behind a whole command is found. -/
theorem streamRenders_encode (i : Instr) {ws : List Word} (h : streamRenders 0 ws = true) :
    streamRenders 0 (encode i ++ ws) = true := by
  obtain ⟨header, ops, hwords, hlen⟩ := encodingLength i
  rw [hwords, List.cons_append, streamRenders, ← hlen, streamRenders_operands, h, Bool.or_true]

/-- The header of a `RENDER` behind whole commands is found. -/
theorem streamRenders_commands (is : List Instr) (ws : List Word) :
    streamRenders 0 (is.flatMap encode ++ 0x06000000 :: ws) = true := by
  induction is with
  | nil => simp [streamRenders]
  | cons i is ih =>
    rw [List.flatMap_cons, List.append_assoc]
    exact streamRenders_encode i ih

/-- The host reads a word inside `OUT` that has a value, out of reset and with no `RENDER` under way (R45). -/
theorem hostReadOut_word {s : State} {a : Nat} {w : Word} (ha : a < s.cfg.outCap) (hunder : renderUnderWay s = false)
    (hrst : s.rst = false) (hw : readWord s.out a = some w) : hostReadOut s a = .next w := by
  simp [hostReadOut, Nat.not_le.2 ha, hunder, hrst, hw]

theorem hostReadOut_outRange {s : State} {a : Nat} (ha : s.cfg.outCap ≤ a) : hostReadOut s a = .refused .outRange := by
  simp [hostReadOut, ha]

theorem hostReadOut_outDuringRender {s : State} {a : Nat} (ha : a < s.cfg.outCap) (hunder : renderUnderWay s = true) :
    hostReadOut s a = .refused .outDuringRender := by
  simp [hostReadOut, Nat.not_le.2 ha, hunder]

theorem hostReadOut_outUnwritten {s : State} {a : Nat} (ha : a < s.cfg.outCap) (hunder : renderUnderWay s = false)
    (h : s.rst = true ∨ readWord s.out a = none) : hostReadOut s a = .refused .outUnwritten := by
  cases hrst : s.rst with
  | true => simp [hostReadOut, Nat.not_le.2 ha, hunder, hrst]
  | false =>
    have hw : readWord s.out a = none := by simpa [hrst] using h
    simp [hostReadOut, Nat.not_le.2 ha, hunder, hrst, hw]

/-- Settles O36: each address of a frame holds the frame's word, and the refusals are those of `hostReadOut`. -/
theorem hostReadsWhatRenderWrote : Obligations.HostReadsWhatRenderWrote := by
  unfold Obligations.HostReadsWhatRenderWrote
  refine ⟨?written, fun _ _ ha => hostReadOut_outRange ha, fun _ _ ha hunder h => hostReadOut_outUnwritten ha hunder h,
    ?underWay, fun a ha => hostReadOut_outUnwritten ha rfl (.inr rfl)⟩
  case written =>
    intro n c sr s t o x a hsr ho h ha hrst hstream hx
    obtain ⟨-, -, -, -, -, hcfg, hcmd, hheld, -, -, hrst', -⟩ := eachStateHasItsWriters _ s t h
    have hinside : a < t.cfg.outCap := by
      rw [hcfg]
      exact ha.trans_le (ho ▸ renderOperands_fit s.cfg n c sr)
    have hword : readWord t.out a = some (frameWord s.cfg o.rate x) := by
      rw [execRender_out hsr h, ← ho, renderRun, readWord_renderFrames, if_pos ha, ← hx]
    exact ⟨frameWord s.cfg o.rate x,
      hostReadOut_word hinside (by simp [renderUnderWay, hcmd, hheld, hstream]) (hrst'.trans hrst) hword,
      hword, mixSample_inSample _ _, rfl⟩
  case underWay =>
    intro s a ha h
    refine hostReadOut_outDuringRender ha ?_
    rcases h with ⟨hrendering, hrsp⟩ | ⟨is, ws, -, hwords⟩
    · simp [renderUnderWay, hrendering, hrsp]
    · rw [renderUnderWay, hwords, streamRenders_commands, Bool.or_true]

end Sys2Proof.Machine

/-! PROOFS. The statements of 30_encoding.md: the words of each command and what they decode to, the answer to an illegal
header, and the one response of every command. -/

namespace Sys2Proof

open Laws.EncodingLength (headerOp_mkHeader)

/-! ### The fields of a header (R56) -/

theorem getLsbD_mkHeader (op idx : BitVec 8) (zero : BitVec 16) (i : Nat) : (mkHeader op idx zero).getLsbD i =
    if i < 16 then zero.getLsbD i else if i < 24 then idx.getLsbD (i - 16) else op.getLsbD (i - 24) := by
  have hsub : i - 16 - 8 = i - 24 := by omega
  have hidx : i - 16 < 8 ↔ i < 24 := by omega
  simp only [mkHeader, BitVec.getLsbD_append]
  split_ifs <;> simp_all

/-- A header is its three fields. -/
theorem mkHeader_fields (h : Word) : mkHeader (headerOp h) (headerIdx h) (headerZero h) = h := by
  refine BitVec.eq_of_getLsbD_eq fun i hi => ?_
  simp only [getLsbD_mkHeader, headerOp, headerIdx, headerZero, BitVec.getLsbD_extractLsb']
  split_ifs with hzero hidx
  · simp [hzero]
  · rw [show 16 + (i - 16) = i by omega, decide_eq_true (by omega : i - 16 < 8), Bool.true_and]
  · rw [show 24 + (i - 24) = i by omega, decide_eq_true (by omega : i - 24 < 8), Bool.true_and]

@[simp] theorem headerIdx_mkHeader (op idx : BitVec 8) (zero : BitVec 16) : headerIdx (mkHeader op idx zero) = idx := by
  refine BitVec.eq_of_getLsbD_eq fun i hi => ?_
  simp [headerIdx, getLsbD_mkHeader, hi, show ¬ 24 ≤ 16 + i by omega]

@[simp] theorem headerZero_mkHeader (op idx : BitVec 8) (zero : BitVec 16) : headerZero (mkHeader op idx zero) = zero := by
  refine BitVec.eq_of_getLsbD_eq fun i hi => ?_
  simp [headerZero, getLsbD_mkHeader, hi]

@[simp] theorem mkHeader_inj {op op' idx idx' : BitVec 8} {zero zero' : BitVec 16} :
    mkHeader op idx zero = mkHeader op' idx' zero' ↔ op = op' ∧ idx = idx' ∧ zero = zero' := by
  refine ⟨fun h => ⟨?_, ?_, ?_⟩, fun ⟨hop, hidx, hzero⟩ => by rw [hop, hidx, hzero]⟩
  · simpa [headerOp_mkHeader] using congrArg headerOp h
  · simpa using congrArg headerIdx h
  · simpa using congrArg headerZero h

theorem mkHeader_and (op op' idx idx' : BitVec 8) (zero zero' : BitVec 16) :
    mkHeader op idx zero &&& mkHeader op' idx' zero' = mkHeader (op &&& op') (idx &&& idx') (zero &&& zero') := by
  refine BitVec.eq_of_getLsbD_eq fun i _ => ?_
  simp only [BitVec.getLsbD_and, getLsbD_mkHeader]
  split_ifs <;> rfl

/-- A header whose `zero` is 0, as the rules write it: the fields shifted into their places. -/
theorem mkHeader_eq_or (op idx : BitVec 8) :
    mkHeader op idx 0 = op.setWidth 32 <<< 24 ||| idx.setWidth 32 <<< 16 := by
  refine BitVec.eq_of_getLsbD_eq fun i hi => ?_
  have hidx : 24 ≤ i → idx.getLsbD (i - 16) = false := fun h => BitVec.getLsbD_of_ge _ _ (by omega)
  simp only [getLsbD_mkHeader, BitVec.getLsbD_or, BitVec.getLsbD_shiftLeft, BitVec.getLsbD_setWidth]
  split_ifs with h1 h2
  · simp [h1, show i < 24 by omega]
  · simp [h1, h2, hi, show i - 16 < 32 by omega]
  · simp [h2, hi, hidx (by omega), show i - 24 < 32 by omega]

/-! ### The opcode map (R58, R66) -/

/-- The `op` values that have a command. -/
theorem definedOp_iff {op : BitVec 8} : definedOp op = true ↔ op ∈ ([1, 2, 3, 4, 5, 6] : List (BitVec 8)) := by
  simp only [definedOp, Bool.and_eq_true, decide_eq_true_eq, List.mem_cons, List.not_mem_nil, or_false, BitVec.toNat_eq,
    BitVec.reduceToNat]
  omega

/-- The row of a command that takes a register leaves `idx` free, every other row fixes the whole header (R58). -/
theorem opRow_eq {op : BitVec 8} (h : definedOp op = true) :
    opRow op = (mkHeader 0xFF (if op = 4 ∨ op = 5 then 0 else 0xFF) 0xFFFF, mkHeader op 0 0) := by
  have hop := definedOp_iff.1 h
  simp only [List.mem_cons, List.not_mem_nil, or_false] at hop
  rcases hop with rfl | rfl | rfl | rfl | rfl | rfl <;> rfl

/-- A header with a defined `op` fits its row when `zero` is 0, and `idx` is 0 where there is no register (R67). -/
theorem headerFits_iff {h : Word} (hop : definedOp (headerOp h) = true) :
    headerFits h = true ↔ headerZero h = 0 ∧ (headerIdx h = 0 ∨ headerOp h = 4 ∨ headerOp h = 5) := by
  have hones : ∀ z : BitVec 16, z &&& 0xFFFF = z := fun z => BitVec.and_allOnes
  have hones8 : ∀ z : BitVec 8, z &&& 0xFF = z := fun z => BitVec.and_allOnes
  have hand : h &&& (opRow (headerOp h)).1
      = mkHeader (headerOp h) (headerIdx h &&& if headerOp h = 4 ∨ headerOp h = 5 then 0 else 0xFF) (headerZero h) := by
    conv_lhs => rw [opRow_eq hop, ← mkHeader_fields h]
    rw [headerOp_mkHeader, mkHeader_and, hones, hones8]
  rw [headerFits, beq_iff_eq, hand, opRow_eq hop, mkHeader_inj]
  split_ifs with hreg
  · exact ⟨fun ⟨_, _, hzero⟩ => ⟨hzero, .inr hreg⟩, fun ⟨hzero, _⟩ => ⟨rfl, BitVec.and_zero, hzero⟩⟩
  · simp only [hones8, true_and, hreg, or_false, and_comm]

/-- A header that fits its row, from its fields. -/
theorem eq_mkHeader_of_fits {h : Word} (hop : definedOp (headerOp h) = true) (hfits : headerFits h = true) :
    h = mkHeader (headerOp h) (headerIdx h) 0 ∧ (headerIdx h = 0 ∨ headerOp h = 4 ∨ headerOp h = 5) := by
  obtain ⟨hzero, hidx⟩ := (headerFits_iff hop).1 hfits
  exact ⟨hzero ▸ (mkHeader_fields h).symm, hidx⟩

/-- `op` gives the number of operand words (R66). -/
theorem operandWords_eq (op : BitVec 8) :
    operandWords op = if 1 ≤ op.toNat ∧ op.toNat ≤ 4 then 1 else if op.toNat = 6 then 3 else 0 := by
  unfold operandWords
  split
  case h_6 =>
    simp only [imp_false] at *
    split_ifs <;> omega
  all_goals split_ifs <;> omega

/-! ### Register numbers (10_state.md R14, R21 to R24) -/

/-- Every number selects a register or is reserved, and is the number of what it selects. -/
theorem selOfIdx_spec (b : BitVec 8) : (selOfIdx b).wf = true ∧ idxOfSel (selOfIdx b) = b := by
  unfold selOfIdx
  split
  case h_23 =>
    refine ⟨?_, rfl⟩
    simp only [RegSel.wf, reservedIdx, Bool.or_eq_true, Bool.and_eq_true, decide_eq_true_eq]
    simp only [imp_false] at *
    omega
  all_goals
    rename_i hb
    exact ⟨rfl, BitVec.eq_of_toNat_eq hb.symm⟩

theorem selOfIdx_idxOfReg (r : Reg) : selOfIdx (idxOfReg r) = .reg r := by cases r <;> rfl

/-- A well-formed selection is what its number selects. -/
theorem selOfIdx_idxOfSel {sel : RegSel} (h : sel.wf = true) : selOfIdx (idxOfSel sel) = sel := by
  cases sel with
  | reg r => exact selOfIdx_idxOfReg r
  | reserved b =>
    simp only [RegSel.wf, reservedIdx, Bool.or_eq_true, Bool.and_eq_true, decide_eq_true_eq] at h
    unfold idxOfSel selOfIdx
    dsimp only
    split
    case h_23 => rfl
    all_goals omega

/-! ### The decoder (R66, R67) and the encoder (R59 to R63) -/

/-- A command of which words are missing. -/
theorem decode_incomplete {h : Word} {ws : List Word} (hlen : ws.length < operandWords (headerOp h)) :
    decode (h :: ws) = .incomplete := if_pos hlen

/-- A whole command is its header and as many operands as `op` says. -/
theorem decode_cons_append {h : Word} {ops : List Word} (hlen : ops.length = operandWords (headerOp h))
    (rest : List Word) : decode (h :: (ops ++ rest)) = decodeHeader h ops rest := by
  simp [decode, ← hlen]

/-- Words that hold a whole command, cut behind it. -/
theorem eq_operands_append {h : Word} {ws : List Word} (hlen : operandWords (headerOp h) ≤ ws.length) :
    ∃ ops rest, ws = ops ++ rest ∧ ops.length = operandWords (headerOp h) :=
  ⟨_, _, (List.take_append_drop _ ws).symm, List.length_take_of_le hlen⟩

/-- A header and its operands are those of a legal command. -/
def isCommand (h : Word) (ops : List Word) (i : Instr) : Prop :=
  definedOp (headerOp h) = true ∧ headerFits h = true ∧ instrOf h ops = some i

theorem decodeHeader_reservedOp {h : Word} (hop : definedOp (headerOp h) = false) (ops rest : List Word) :
    decodeHeader h ops rest = .rejected .reservedOp h rest := by simp [decodeHeader, hop]

theorem decodeHeader_nonZeroField {h : Word} (hop : definedOp (headerOp h) = true) (hfits : headerFits h = false)
    (ops rest : List Word) : decodeHeader h ops rest = .rejected .nonZeroField h rest := by
  simp [decodeHeader, hop, hfits]

/-- Everything a header can decode to: its command, or a rejection of the header. -/
theorem decodeHeader_cases (h : Word) (ops rest : List Word) :
    (∃ i, isCommand h ops i ∧ decodeHeader h ops rest = .instr i rest) ∨
    ∃ why, decodeHeader h ops rest = .rejected why h rest := by
  cases hop : definedOp (headerOp h) with
  | false => exact .inr ⟨_, decodeHeader_reservedOp hop ops rest⟩
  | true =>
    cases hfits : headerFits h with
    | false => exact .inr ⟨_, decodeHeader_nonZeroField hop hfits ops rest⟩
    | true =>
      cases hi : instrOf h ops with
      | none => exact .inr ⟨.nonZeroField, by simp [decodeHeader, hop, hfits, hi]⟩
      | some i => exact .inl ⟨i, ⟨hop, hfits, hi⟩, by simp [decodeHeader, hop, hfits, hi]⟩

/-- What decodes to an instruction: a legal command's header and operands, and the words after them. -/
theorem decode_eq_instr_iff {ws rest : List Word} {i : Instr} : decode ws = .instr i rest ↔
    ∃ h ops, ws = h :: (ops ++ rest) ∧ ops.length = operandWords (headerOp h) ∧ isCommand h ops i := by
  constructor
  · intro hdecode
    cases ws with
    | nil => cases hdecode
    | cons h ws =>
      rcases Nat.lt_or_ge ws.length (operandWords (headerOp h)) with hlt | hge
      · rw [decode_incomplete hlt] at hdecode
        cases hdecode
      · obtain ⟨ops, rest', rfl, hlen⟩ := eq_operands_append hge
        rw [decode_cons_append hlen] at hdecode
        rcases decodeHeader_cases h ops rest' with ⟨j, hj, hheader⟩ | ⟨why, hheader⟩ <;> rw [hheader] at hdecode
        · obtain ⟨rfl, rfl⟩ := Decoded.instr.inj hdecode
          exact ⟨h, ops, rfl, hlen, hj⟩
        · cases hdecode
  · rintro ⟨h, ops, rfl, hlen, hop, hfits, hi⟩
    rw [decode_cons_append hlen]
    simp [decodeHeader, hop, hfits, hi]

/-- A header with a register number, `zero` being 0, is legal whatever the number (R62). -/
theorem isCommand_of_register {op idx : BitVec 8} {ops : List Word} {i : Instr} (hreg : op = 4 ∨ op = 5)
    (hi : instrOf (mkHeader op idx 0) ops = some i) : isCommand (mkHeader op idx 0) ops i := by
  have hop : definedOp (headerOp (mkHeader op idx 0)) = true := by
    rw [headerOp_mkHeader]
    rcases hreg with rfl | rfl <;> rfl
  refine ⟨hop, (headerFits_iff hop).2 ⟨headerZero_mkHeader .., .inr ?_⟩, hi⟩
  rwa [headerOp_mkHeader]

/-- The encoding of a well-formed instruction is a legal command. -/
theorem isCommand_of_encode {i : Instr} {h : Word} {ops : List Word} (hwf : i.wf = true) (hi : encode i = h :: ops) :
    isCommand h ops i := by
  cases i with
  | setp sel v =>
    obtain ⟨rfl, rfl⟩ := List.cons.inj hi
    exact isCommand_of_register (.inl rfl) (by simp [instrOf, headerOp_mkHeader, selOfIdx_idxOfSel hwf])
  | getp sel =>
    obtain ⟨rfl, rfl⟩ := List.cons.inj hi
    exact isCommand_of_register (.inr rfl) (by simp [instrOf, headerOp_mkHeader, selOfIdx_idxOfSel hwf])
  | _ =>
    obtain ⟨rfl, rfl⟩ := List.cons.inj hi
    exact ⟨rfl, rfl, rfl⟩

/-- A legal header of a command with a register (R62). -/
theorem mkHeader_of_register {h : Word} {ops : List Word} {i : Instr} (hi : isCommand h ops i) {op : BitVec 8}
    (hop : headerOp h = op) : mkHeader op (idxOfSel (selOfIdx (headerIdx h))) 0 = h := by
  rw [(selOfIdx_spec _).2, ← hop]
  exact (eq_mkHeader_of_fits hi.1 hi.2.1).1.symm

/-- A legal header of a command without a register (R59 to R61, R63). -/
theorem mkHeader_of_no_register {h : Word} {ops : List Word} {i : Instr} (hi : isCommand h ops i) {op : BitVec 8}
    (hop : headerOp h = op) (h4 : op ≠ 4) (h5 : op ≠ 5) : mkHeader op 0 0 = h := by
  obtain ⟨hheader, hidx⟩ := eq_mkHeader_of_fits hi.1 hi.2.1
  have hzero : headerIdx h = 0 := by simpa only [hop, h4, h5, or_false] using hidx
  rw [hzero, hop] at hheader
  exact hheader.symm

/-- A legal command is the encoding of its instruction, which is well-formed. -/
theorem encode_of_isCommand {i : Instr} {h : Word} {ops : List Word} (hi : isCommand h ops i) :
    i.wf = true ∧ encode i = h :: ops := by
  have hinstr := hi.2.2
  unfold instrOf at hinstr
  split at hinstr
  case h_1 =>
    split_ifs at hinstr with hop
    obtain rfl := Option.some.inj hinstr
    exact ⟨(selOfIdx_spec _).1, by rw [encode, mkHeader_of_register hi hop]⟩
  case h_2 a =>
    split at hinstr <;> cases hinstr
    case h_4 hop =>
      exact ⟨(selOfIdx_spec _).1, List.cons_eq_cons.2 ⟨mkHeader_of_register hi (BitVec.eq_of_toNat_eq hop), rfl⟩⟩
    all_goals
      rename_i hop
      exact ⟨rfl, List.cons_eq_cons.2
        ⟨mkHeader_of_no_register hi (BitVec.eq_of_toNat_eq hop) (by decide) (by decide), rfl⟩⟩
  case h_3 a b c =>
    split_ifs at hinstr with hop
    obtain rfl := Option.some.inj hinstr
    exact ⟨rfl, by rw [encode, mkHeader_of_no_register hi hop (by decide) (by decide)]⟩
  case h_4 => cases hinstr

/-! ### The statements about the encoding -/

/-- Settles O12: the encoding of a well-formed instruction is a legal command with as many operands as its `op` says. -/
theorem decodeOfEncodeIsTheInstruction : Obligations.DecodeOfEncodeIsTheInstruction := by
  unfold Obligations.DecodeOfEncodeIsTheInstruction
  intro i rest hwf
  obtain ⟨h, ops, hi, hlen⟩ := Machine.encodingLength i
  exact decode_eq_instr_iff.2 ⟨h, ops, by rw [hi, List.cons_append], hlen, isCommand_of_encode hwf hi⟩

/-- Settles O13: what decodes to an instruction is a legal command, and that is its encoding. -/
theorem onlyEncodingsDecode : Obligations.OnlyEncodingsDecode := by
  unfold Obligations.OnlyEncodingsDecode
  intro i ws rest hdecode
  obtain ⟨h, ops, rfl, -, hi⟩ := decode_eq_instr_iff.1 hdecode
  obtain ⟨hwf, hencode⟩ := encode_of_isCommand hi
  exact ⟨hwf, by rw [hencode, List.cons_append]⟩

/-- Settles O14: the operands are cut off by `op` alone, before the header is judged. -/
theorem decoderFindsTheLength : Obligations.DecoderFindsTheLength := by
  unfold Obligations.DecoderFindsTheLength
  intro h ws k hk
  rw [← operandWords_eq] at hk
  subst hk
  refine ⟨decode_incomplete, fun hlen => ?_⟩
  obtain ⟨ops, rest, rfl, hops⟩ := eq_operands_append hlen
  rw [decode_cons_append hops, ← hops, List.drop_left]
  rcases decodeHeader_cases h ops rest with ⟨i, -, hi⟩ | hrejected
  · exact .inl ⟨i, hi⟩
  · exact .inr hrejected

/-- Settles O11: the header of each command from its fields, the register numbers by the table, and the examples decoded. -/
theorem encodingsOfTheSixCommands : Obligations.EncodingsOfTheSixCommands := by
  unfold Obligations.EncodingsOfTheSixCommands
  refine ⟨fun _ => rfl, fun _ => rfl, fun _ => rfl, fun r v => ?setp, fun r => ?getp, fun _ _ _ => rfl, by decide, ?_⟩
  case setp => rw [encode, idxOfSel, mkHeader_eq_or]; rfl
  case getp => rw [encode, idxOfSel, mkHeader_eq_or]; rfl
  decide

end Sys2Proof

namespace Sys2Proof.Machine

/-! ### An illegal header (R67) -/

/-- Where a command can start and the stream begins with an illegal header, a step answers it. -/
theorem step_eq_answerBadCmd {s : State} {why : Rejection} {h : Word} {rest : List Word} (hstart : canStart s = true)
    (hfetch : decode (stream s) = .rejected why h rest) : step s = .next (answerBadCmd h (consume rest s)) := by
  obtain ⟨hrst, hrsp⟩ := (canStart_iff s).mp hstart
  have hstalled : stalled s = false := by simp [stalled, rspValid, hrsp]
  simp [step, fetch, hrst, hstalled, hfetch]

/-- The whole state after the answer to an illegal header, where no response word was pending (R65, R67). -/
theorem answerBadCmd_consume {s : State} (hrsp : s.rsp = []) (h : Word) (rest : List Word) :
    answerBadCmd h (consume rest s) = { started s rest with status := s.status ||| 0x20, rsp := [0x80, h] } := by
  have hrsp' : (answerBadCmd h (consume rest s)).rsp = [0x80, h] := by
    rw [answerBadCmd_eq, answer_rsp, consume_rsp, hrsp]; rfl
  rw [← hrsp']; rfl

/-- Settles O4: the decoder rejects the header, for its `op` or for its row, and what is left is the answer. -/
theorem stepAnswersAnIllegalHeader : Obligations.StepAnswersAnIllegalHeader := by
  unfold Obligations.StepAnswersAnIllegalHeader
  intro s h ws hstart hstream
  have hrsp := ((canStart_iff s).mp hstart).2
  have answered : ∀ {why : Rejection} {rest : List Word}, decode (h :: ws) = .rejected why h rest →
      step s = .next { started s rest with status := s.status ||| 0x20, rsp := [0x80, h] } := fun hdecode => by
    rw [step_eq_answerBadCmd hstart (by rw [stream, hstream]; exact hdecode), answerBadCmd_consume hrsp]
  refine ⟨fun hop => ?reservedOp, fun hlo hhi hfields ops rest hws hlen => ?nonZeroField⟩
  case reservedOp =>
    have hdefined : definedOp (headerOp h) = false := by
      rw [definedOp, ← Bool.decide_and, decide_eq_false_iff_not]
      omega
    have hlen : ([] : List Word).length = operandWords (headerOp h) := by
      rw [operandWords_eq, if_neg (by omega), if_neg (by omega)]; rfl
    exact answered ((decode_cons_append hlen ws).trans (decodeHeader_reservedOp hdefined [] ws))
  case nonZeroField =>
    have hdefined : definedOp (headerOp h) = true := by simp [definedOp, hlo, hhi]
    have hfits : headerFits h = false := by
      rw [← Bool.not_eq_true, headerFits_iff hdefined]
      tauto
    have hlen' : ops.length = operandWords (headerOp h) := by
      rw [hlen, operandWords_eq]
      simp only [BitVec.toNat_eq, BitVec.reduceToNat]
      split_ifs <;> omega
    subst hws
    exact answered ((decode_cons_append hlen' rest).trans (decodeHeader_nonZeroField hdefined hfits ops rest))

/-! ### The response of a command (R64, R65) -/

/-- A status that does not reject: its code is below 0x80 (R65). -/
def accepts (st : Status) : Bool := decide (statusCode st < 0x80)

/-- The greatest of some codes is one of them. -/
theorem foldl_statusCode_mem (raised : List Status) (c : Nat) :
    raised.foldl (fun c st => max c (statusCode st)) c = c ∨
      ∃ st ∈ raised, raised.foldl (fun c st => max c (statusCode st)) c = statusCode st := by
  induction raised generalizing c with
  | nil => exact .inl rfl
  | cons st raised ih =>
    rw [List.foldl_cons]
    rcases ih (max c (statusCode st)) with h | ⟨st', hst', h⟩
    · rw [h]
      rcases max_choice c (statusCode st) with hmax | hmax
      · exact .inl hmax
      · exact .inr ⟨st, List.mem_cons_self, hmax⟩
    · exact .inr ⟨st', List.mem_cons_of_mem st hst', h⟩

/-- What is answered when nothing raised rejects is one of the codes below 0x80. -/
theorem statusWord_accepts {raised : List Status} (h : raised.all accepts = true) :
    statusWord raised ∈ ([0, 1, 2, 3, 4, 5] : List Word) := by
  have hcode : ∃ st, accepts st = true ∧ greatestCode raised = statusCode st := by
    rcases foldl_statusCode_mem raised (statusCode .ok) with hok | ⟨st, hst, hmax⟩
    · exact ⟨.ok, rfl, hok⟩
    · exact ⟨st, List.all_eq_true.1 h st hst, hmax⟩
  obtain ⟨st, haccepts, hst⟩ := hcode
  rw [statusWord, hst]
  cases st <;> revert haccepts <;> decide

theorem statusWord_lt {raised : List Status} (h : raised.all accepts = true) : (statusWord raised).toNat < 0x80 := by
  have hlt : ∀ st ∈ ([0, 1, 2, 3, 4, 5] : List Word), st.toNat < 0x80 := by simp
  exact hlt _ (statusWord_accepts h)

theorem raisedIf_accepts (b : Bool) {st : Status} (h : accepts st = true) : (raisedIf b st).all accepts = true := by
  cases b <;> simp [h]

/-- The rejections of a command (R65; `BAD_CMD` answers headers only). -/
def isRejection (st : Status) : Prop := st = .badReg ∨ st = .badKind ∨ st = .badValue

theorem writeReal_rejected {v legal : F32} {put : F32 → Timbre} {st : Status}
    (h : writeReal v legal put = .rejected st) : st = .badValue := by
  unfold writeReal at h
  split_ifs at h
  exact (TimbreWrite.rejected.inj h).symm

theorem writeCode_rejected {α : Type} {code : Option α} {put : α → Timbre} {st : Status}
    (h : writeCode code put = .rejected st) : st = .badKind := by
  cases code with
  | none => exact (TimbreWrite.rejected.inj h).symm
  | some c => cases h

theorem writeReg_rejected {c : Config.Params} {t : Timbre} {r : Reg} {v : Word} {st : Status}
    (h : writeReg c t r v = .rejected st) : isRejection st := by
  cases r with
  | status | activeCount | nextId | nvoices => exact .inl (TimbreWrite.rejected.inj h).symm
  | oscA | oscB | fltMode | lfoShape | grainEnable => exact .inr (.inl (writeCode_rejected h))
  | _ =>
    rw [writeReg] at h
    exact .inr (.inr (writeReal_rejected h))

/-- Every command is rejected and answers from the state it found, or it raises nothing that rejects and answers behind the
words pending. -/
theorem exec_answers (i : Instr) (s : State) :
    (∃ st, isRejection st ∧ exec i s = .next (reject st s)) ∨
    ∃ raised value u, exec i s = .next (answer raised value u) ∧ u.rsp = s.rsp ∧ raised.all accepts = true := by
  cases i with
  | noteOn f =>
    rcases execNoteOn_cases f s with ⟨-, h⟩ | ⟨-, -, h⟩ | ⟨-, -, h⟩
    · exact .inl ⟨_, .inr (.inr rfl), h⟩
    · exact .inr ⟨_, _, _, h, rfl, raisedIf_accepts _ rfl⟩
    · exact .inr ⟨_, _, _, h, rfl, by rw [List.all_append, raisedIf_accepts _ rfl]; rfl⟩
  | noteOff id =>
    rcases execNoteOff_cases id s with ⟨-, h⟩ | ⟨-, h⟩ <;> exact .inr ⟨_, _, _, h, rfl, rfl⟩
  | noteOffFreq f =>
    rcases execNoteOffFreq_cases f s with ⟨-, h⟩ | ⟨-, -, h⟩ | ⟨-, -, h⟩
    · exact .inl ⟨_, .inr (.inr rfl), h⟩
    · exact .inr ⟨_, _, _, h, rfl, rfl⟩
    · exact .inr ⟨_, _, _, h, rfl, rfl⟩
  | setp sel v =>
    rcases execSetp_cases sel v s with ⟨b, -, h⟩ | ⟨-, h⟩ | ⟨r, -, -, h⟩
    · exact .inl ⟨_, .inl rfl, h⟩
    · exact .inr ⟨[], _, _, h, rfl, rfl⟩
    · rcases setReg_cases r v s with ⟨st, hw, hset⟩ | ⟨t, clamped, -, hset⟩
      · exact .inl ⟨st, writeReg_rejected hw, h.trans (congrArg _ hset)⟩
      · exact .inr ⟨_, _, _, h.trans (congrArg _ hset), rfl, raisedIf_accepts _ rfl⟩
  | getp sel =>
    rcases execGetp_cases sel s with ⟨b, -, h⟩ | ⟨r, -, h⟩
    · exact .inl ⟨_, .inl rfl, h⟩
    · exact .inr ⟨_, _, _, h, rfl, rfl⟩
  | render n c sr =>
    rcases execRender_cases n c sr s with ⟨-, h⟩ | ⟨-, h⟩
    · exact .inl ⟨_, .inr (.inr rfl), h⟩
    · exact .inr ⟨_, _, _, h, rfl, by rw [List.all_append, raisedIf_accepts _ rfl, raisedIf_accepts _ rfl]; rfl⟩

/-- Settles O7: a rejection answers its own code and 0, everything else a code below 0x80. -/
theorem everyCommandAnswersOnce : Obligations.EveryCommandAnswersOnce := by
  unfold Obligations.EveryCommandAnswersOnce
  intro i s
  rcases exec_answers i s with ⟨st, hst, h⟩ | ⟨raised, value, u, h, hrsp, hraised⟩
  · refine ⟨_, statusWord [st], 0, h, rfl, ?_, fun _ => rfl⟩
    rcases hst with rfl | rfl | rfl <;> decide
  · refine ⟨_, statusWord raised, value, h, by rw [answer_rsp, hrsp],
      List.mem_append_left [0x81, 0x82, 0x83] (statusWord_accepts hraised), fun hreject => ?_⟩
    exact absurd hreject (Nat.not_le.2 (statusWord_lt hraised))

/-- Settles O8: a code of 0x80 or above is a rejection's, and that answers from the state it found. -/
theorem rejectedCommandChangesOnlyStatus : Obligations.RejectedCommandChangesOnlyStatus := by
  unfold Obligations.RejectedCommandChangesOnlyStatus
  intro i s t st v h hrsp hreject
  rcases exec_answers i s with ⟨st', -, h'⟩ | ⟨raised, value, u, h', hu, hraised⟩ <;>
    obtain rfl := Host.Outcome.next.inj (h'.symm.trans h)
  · rfl
  · exfalso
    obtain ⟨rfl, -⟩ : statusWord raised = st ∧ value = v := by simpa [hu] using hrsp
    exact absurd hreject (Nat.not_le.2 (statusWord_lt hraised))

/-- Settles O22: each of the registers named is refused before anything is written. -/
theorem setpRejectsBadRegister : Obligations.SetpRejectsBadRegister := by
  unfold Obligations.SetpRejectsBadRegister
  intro sel v s hsel
  have hexec : exec (.setp sel v) s = .next (reject .badReg s) := by
    rcases hsel with ⟨b, rfl⟩ | rfl | rfl | rfl <;> rfl
  rw [hexec]
  rfl

end Sys2Proof.Machine

namespace Sys2Proof.Machine.Fp

/-! ### The four operations and `floor` of finite words (00_scope.md R10, R11) -/

theorem finite_of_isZero {a : F32} (h : isZero a = true) : finite a = true := by
  have hmag : mag a = 0 := by simpa [isZero] using h
  simp [finite, hmag, infMag]

theorem value_of_isZero {a : F32} (h : isZero a = true) : value a = 0 := by
  have hmag : mag a = 0 := by simpa [isZero] using h
  simp [value, hmag, units]

theorem finite_negate {b : F32} (h : finite b = true) : finite (negate b) = true := by rwa [finite, mag_negate]

theorem add_roundsTo {a b : F32} (ha : finite a = true) (hb : finite b = true) :
    roundsTo (add a b) (value a + value b) 1 := by
  rw [add_finite ha hb]
  generalize value a + value b = sum
  split_ifs with hzero
  · subst hzero
    simpa [roundMag_zero] using roundsTo_pack (isNeg a && isNeg b) (num := 0) Nat.one_pos
  · have hsum : (if decide (sum < 0) = true then -(sum.natAbs : Int) else sum.natAbs) = sum := by
      split_ifs with hneg <;> rw [decide_eq_true_eq] at hneg <;> omega
    simpa only [hsum] using roundsTo_pack (decide (sum < 0)) (num := sum.natAbs) Nat.one_pos

theorem sub_roundsTo {a b : F32} (ha : finite a = true) (hb : finite b = true) :
    roundsTo (sub a b) (value a - value b) 1 := by
  rw [sub, sub_eq_add_neg, ← value_negate]
  exact add_roundsTo ha (finite_negate hb)

theorem mul_roundsTo {a b : F32} (ha : finite a = true) (hb : finite b = true) :
    roundsTo (mul a b) (value a * value b) (2 ^ 149) := by
  have hvalue : value a * value b = if (isNeg a != isNeg b) = true then -((units (mag a) * units (mag b) : Nat) : Int)
      else (units (mag a) * units (mag b) : Nat) := by
    unfold value
    cases isNeg a <;> cases isNeg b <;> simp
  rw [mul_finite ha hb, hvalue]
  exact roundsTo_pack _ (by positivity)

theorem div_roundsTo {a b : F32} (ha : finite a = true) (hb : finite b = true) (hb0 : isZero b = false) :
    roundsTo (div a b) (if isNeg b = true then -(value a * 2 ^ 149) else value a * 2 ^ 149) (value b).natAbs := by
  have hvalue : (if isNeg b = true then -(value a * 2 ^ 149) else value a * 2 ^ 149)
      = if (isNeg a != isNeg b) = true then -((units (mag a) * 2 ^ 149 : Nat) : Int)
        else (units (mag a) * 2 ^ 149 : Nat) := by
    unfold value
    cases isNeg a <;> cases isNeg b <;> simp
  rw [div_finite ha hb hb0, hvalue, natAbs_value]
  exact roundsTo_pack _ (units_pos hb0)

/-- A magnitude of 2^23 or more is an integer: its last place is a whole number of units. -/
theorem dvd_units_of_le {m : Nat} (h : 2 ^ 23 * 2 ^ 149 ≤ units m) : 2 ^ 149 ∣ units m := by
  unfold units at h ⊢
  split_ifs at h ⊢ with hm
  · exact absurd h (by omega)
  · have hexp : 149 ≤ m / 2 ^ 23 - 1 := by
      by_contra hlt
      have hpow : 2 ^ (m / 2 ^ 23 - 1) * 2 ≤ 2 ^ 149 := by
        rw [← pow_succ]
        exact Nat.pow_le_pow_right (by decide) (by omega)
      have hsig : (2 ^ 23 + m % 2 ^ 23) * 2 ^ (m / 2 ^ 23 - 1) < 2 ^ 24 * 2 ^ (m / 2 ^ 23 - 1) :=
        (Nat.mul_lt_mul_right (by positivity)).2 (by omega)
      omega
    exact (Nat.pow_dvd_pow 2 hexp).mul_left _

/-- The whole part of a finite word is a number of the format. -/
theorem roundMag_floor {a : F32} (h : finite a = true) :
    units (roundMag ((value a / 2 ^ 149).natAbs * 2 ^ 149) 1) = (value a / 2 ^ 149).natAbs * 2 ^ 149 ∧
      roundMag ((value a / 2 ^ 149).natAbs * 2 ^ 149) 1 < infMag := by
  rcases Nat.lt_or_ge (units (mag a)) (2 ^ 23 * 2 ^ 149) with hlt | hge
  · refine roundMag_integer ?_
    have hvalue := natAbs_value a
    omega
  · have hexact : (value a / 2 ^ 149).natAbs * 2 ^ 149 = units (mag a) := by
      have hdvd := dvd_units_of_le hge
      have hvalue := natAbs_value a
      omega
    rw [hexact]
    exact roundMag_units (of_decide_eq_true h)

/-- `floor` is the greatest integer not above its operand. -/
theorem value_floor {a : F32} (h : finite a = true) : value (floor a) = value a / 2 ^ 149 * 2 ^ 149 := by
  cases hzero : isZero a with
  | true => simp [floor, hzero, value_of_isZero hzero]
  | false =>
    obtain ⟨hunits, hfinite⟩ := roundMag_floor h
    have hfloor : floor a = pack (value a / 2 ^ 149 < 0) (roundMag ((value a / 2 ^ 149).natAbs * 2 ^ 149) 1) := by
      simp [floor, h, hzero]
    rw [hfloor, value_pack _ (hfinite.trans (by decide)), hunits]
    split_ifs with hneg <;> rw [decide_eq_true_eq] at hneg <;> omega

/-! ### `sin` and `tanh` in the reference format (R11) -/

theorem sin_isZero {x : F32} (h : isZero x = true) : isZero (sin x) = true := by
  have hallowed := sin_allowed x
  rw [sinAllowed, finite_of_isZero h, h] at hallowed
  exact (Bool.and_eq_true_iff.1 hallowed).2

theorem abs_sin_le {x : F32} (h : finite x = true) : le (abs (sin x)) one = true := by
  have hallowed := sin_allowed x
  rw [sinAllowed, h] at hallowed
  exact (Bool.and_eq_true_iff.1 hallowed).1

theorem tanh_isZero {x : F32} (h : isZero x = true) : isZero (tanh x) = true := by
  have hallowed := tanh_allowed x
  rw [tanhAllowed, finite_of_isZero h, h] at hallowed
  exact (Bool.and_eq_true_iff.1 hallowed).2

theorem abs_tanh_le {x : F32} (h : finite x = true) : le (abs (tanh x)) one = true := by
  have hallowed := tanh_allowed x
  rw [tanhAllowed, h] at hallowed
  exact (Bool.and_eq_true_iff.1 hallowed).1

/-! The three points where R11 bounds the error of the sine (log 2). -/

theorem sin_halfPi : le sinNearOne (sin halfPi) = true := (Bool.and_eq_true_iff.1 (sin_allowed halfPi)).2

theorem abs_sin_pi : le (abs (sin pi)) sinNearZero = true := (Bool.and_eq_true_iff.1 (sin_allowed pi)).2

theorem sin_threeHalfPi : le (sin threeHalfPi) (negate sinNearOne) = true :=
  (Bool.and_eq_true_iff.1 (sin_allowed threeHalfPi)).2

end Sys2Proof.Machine.Fp

namespace Sys2Proof

open Sys2Proof.Machine

/-! ### Rational numbers and the formats other than the reference (log 1, log 2, log 5) -/

/-- Both zeros denote 0 (30_encoding.md R57). -/
theorem Exact.ofWord_of_isZero {w : F32} (h : Fp.isZero w = true) : Exact.ofWord w = { num := 0, den := 1 } := by
  simp [Exact.ofWord, Fp.finite_of_isZero h, Fp.value_of_isZero h, Exact.reduce]

/-- `floor` of a rational is the greatest integer not above it. -/
theorem Exact.floor_bounds {q : Exact} (h : q.den ≠ 0) :
    q.num / (q.den : Int) * q.den ≤ q.num ∧ q.num < (q.num / (q.den : Int) + 1) * q.den := by
  have hden : (0 : Int) < q.den := by omega
  exact ⟨Int.ediv_mul_le _ hden.ne', Int.lt_ediv_add_one_mul_self _ hden⟩

/-- A zero is finite in every format. -/
theorem Val.finite_of_isZero {x : Val} (h : x.isZero = true) : x.finite = true := by
  cases x with
  | f32 w => exact Fp.finite_of_isZero h
  | num q => rfl

end Sys2Proof

namespace Sys2Proof.Config

open Sys2Proof.Machine

/-- The reference format holds words only. -/
theorem NumFormat.holds_binary32 {x : Val} : NumFormat.binary32.holds x = true ↔ ∃ w, x = .f32 w := by
  cases x <;> simp [NumFormat.holds]

/-- What stands for the sine where the free value is not allowed is 0, 1 or −1. -/
theorem NumFormat.sinFallback_mem (n : NumFormat) (x : Val) : n.sinFallback x ∈ ([.zero, .one, .negOne] : List Val) := by
  unfold NumFormat.sinFallback
  split_ifs <;> simp

/-- In another format the sine is what R11 allows, or the value that stands for it. -/
theorem NumFormat.sin_other_cases (k : Nat) (x : Val) :
    (NumFormat.other k).sinAllowed x ((NumFormat.other k).sin x) = true ∨
      (NumFormat.other k).sin x = (NumFormat.other k).sinFallback x := by
  unfold NumFormat.sin
  dsimp only
  split_ifs with hallowed
  · exact .inl hallowed
  · exact .inr rfl

/-- `tanh` answers what R11 allows in another format too. -/
theorem NumFormat.tanh_other_allowed (k : Nat) (x : Val) : tanhAllowed x ((NumFormat.other k).tanh x) = true := by
  have hzero : Val.zero.abs.le .one = true ∧ Val.zero.isZero = true := by decide
  unfold NumFormat.tanh
  dsimp only
  split_ifs with hallowed
  · exact hallowed
  · simp [tanhAllowed, hzero]

theorem NumFormat.sin_isZero {n : NumFormat} {x : Val} (hholds : n.holds x = true) (h : x.isZero = true) :
    (n.sin x).isZero = true := by
  cases n with
  | binary32 =>
    obtain ⟨w, rfl⟩ := NumFormat.holds_binary32.1 hholds
    exact Fp.sin_isZero h
  | other k =>
    rcases NumFormat.sin_other_cases k x with hallowed | hfallback
    · rw [NumFormat.sinAllowed, Val.finite_of_isZero h, h] at hallowed
      exact (Bool.and_eq_true_iff.1 hallowed).2
    · rw [hfallback, NumFormat.sinFallback, if_pos h]
      rfl

theorem NumFormat.abs_sin_le {n : NumFormat} {x : Val} (hholds : n.holds x = true) (h : x.finite = true) :
    (n.sin x).abs.le .one = true := by
  cases n with
  | binary32 =>
    obtain ⟨w, rfl⟩ := NumFormat.holds_binary32.1 hholds
    exact (Val.le_f32 _ _).trans (Fp.abs_sin_le h)
  | other k =>
    rcases NumFormat.sin_other_cases k x with hallowed | hfallback
    · rw [NumFormat.sinAllowed, h] at hallowed
      exact (Bool.and_eq_true_iff.1 hallowed).1
    · have hunit : ∀ y ∈ ([.zero, .one, .negOne] : List Val), y.abs.le .one = true := by decide
      rw [hfallback]
      exact hunit _ (NumFormat.sinFallback_mem _ x)

theorem NumFormat.tanh_isZero {n : NumFormat} {x : Val} (hholds : n.holds x = true) (h : x.isZero = true) :
    (n.tanh x).isZero = true := by
  cases n with
  | binary32 =>
    obtain ⟨w, rfl⟩ := NumFormat.holds_binary32.1 hholds
    exact Fp.tanh_isZero h
  | other k =>
    have hallowed := NumFormat.tanh_other_allowed k x
    rw [tanhAllowed, Val.finite_of_isZero h, h] at hallowed
    exact (Bool.and_eq_true_iff.1 hallowed).2

theorem NumFormat.abs_tanh_le {n : NumFormat} {x : Val} (hholds : n.holds x = true) (h : x.finite = true) :
    (n.tanh x).abs.le .one = true := by
  cases n with
  | binary32 =>
    obtain ⟨w, rfl⟩ := NumFormat.holds_binary32.1 hholds
    exact (Val.le_f32 _ _).trans (Fp.abs_tanh_le h)
  | other k =>
    have hallowed := NumFormat.tanh_other_allowed k x
    rw [tanhAllowed, h] at hallowed
    exact (Bool.and_eq_true_iff.1 hallowed).1

theorem NumFormat.exp2_zero {n : NumFormat} {x : Val} (hholds : n.holds x = true) (h : x.isZero = true) :
    n.exp2 x = .one := by
  cases n with
  | binary32 =>
    obtain ⟨w, rfl⟩ := NumFormat.holds_binary32.1 hholds
    exact congrArg Val.f32 (Fp.exp2_zero h)
  | other k => exact if_pos h

end Sys2Proof.Config

namespace Sys2Proof.Machine

open Config (NumFormat)

/-- Settles O41, clause by clause: the operations and `floor` of words, the loads and `floor` of every other format, and the
functions by what R11 allows them. -/
theorem functionsOfNumHaveTheirProperties : Obligations.FunctionsOfNumHaveTheirProperties := by
  unfold Obligations.FunctionsOfNumHaveTheirProperties
  refine ⟨fun a b ha hb => ⟨Fp.add_roundsTo ha hb, Fp.sub_roundsTo ha hb, Fp.mul_roundsTo ha hb, Fp.div_roundsTo ha hb⟩,
    fun w hw => ⟨Fp.value w / 2 ^ 149, Fp.value_floor hw, Int.ediv_mul_le _ (by decide),
      Int.lt_ediv_add_one_mul_self _ (by decide)⟩,
    fun _ _ => ⟨rfl, rfl, rfl, rfl, rfl⟩, fun _ _ hw => NumFormat.load_finite hw, fun k w hw => ?load,
    fun k q hq => ⟨q.num / q.den, rfl, Exact.floor_bounds hq⟩,
    fun _ _ hn hx => ⟨NumFormat.sin_isZero hn hx, NumFormat.tanh_isZero hn hx, NumFormat.exp2_zero hn hx⟩,
    fun _ _ hn hx => ⟨NumFormat.abs_sin_le hn hx, NumFormat.abs_tanh_le hn hx⟩,
    Fp.sin_halfPi, Fp.abs_sin_pi, Fp.sin_threeHalfPi, fun _ => rfl⟩
  case load =>
    rw [NumFormat.load_other, Val.number_f32 (Fp.finite_of_isZero hw), Exact.ofWord_of_isZero hw]

end Sys2Proof.Machine

/-! PROOFS. The statements of 40_oscillator.md: the exact ends of the blend and the laws of the four waveforms. -/

namespace Sys2Proof.Machine.Fp

/-! ### Results that are numbers of the format are not rounded (00_scope.md R11) -/

/-- What rounds to the value of a finite word is finite and has that value. -/
theorem value_of_roundsTo {r w : F32} {den : Nat} (hden : 0 < den) (hw : finite w = true)
    (h : roundsTo r (value w * den) den) : finite r = true ∧ value r = value w := by
  obtain ⟨hnearest, hbeyond⟩ := h
  have hfinite : finite r = true := by
    by_contra hr
    have hlt := (hbeyond (by simpa using hr)).2.2 w hw
    rw [Int.natAbs_mul, Int.natAbs_natCast] at hlt
    exact lt_irrefl _ hlt
  have hdist := (hnearest hfinite w hw).1
  rw [sub_self, Int.natAbs_zero, Nat.le_zero, Int.natAbs_eq_zero, sub_eq_zero] at hdist
  exact ⟨hfinite, mul_right_cancel₀ (by exact_mod_cast hden.ne') hdist⟩

/-- The product of 1 and a finite number is that number. -/
theorem value_one_mul {a : F32} (ha : finite a = true) : finite (mul one a) = true ∧ value (mul one a) = value a := by
  have hone : value one = (2 ^ 149 : Nat) := by decide +kernel
  have h := mul_roundsTo (a := one) (by decide) ha
  rw [hone, mul_comm] at h
  exact value_of_roundsTo (by positivity) ha h

/-- The product of 0 and a finite number is 0. -/
theorem value_zero_mul {a : F32} (ha : finite a = true) : finite (mul zero a) = true ∧ value (mul zero a) = 0 := by
  have hzero : value zero = 0 := by decide
  have h := mul_roundsTo (a := zero) (by decide) ha
  rw [hzero, zero_mul, ← zero_mul ((2 ^ 149 : Nat) : Int), ← hzero] at h
  exact value_of_roundsTo (by positivity) (by decide) h

/-- A sum that is the value of a finite word is not rounded. -/
theorem value_add_of_exact {a b w : F32} (ha : finite a = true) (hb : finite b = true) (hw : finite w = true)
    (h : value a + value b = value w) : finite (add a b) = true ∧ value (add a b) = value w := by
  have hrounds := add_roundsTo ha hb
  rw [h] at hrounds
  exact value_of_roundsTo Nat.one_pos hw (by simpa using hrounds)

/-- Finite words of one value are equal as numbers. -/
theorem eq_of_value_eq {a b : F32} (ha : finite a = true) (hb : finite b = true) (h : value a = value b) :
    eq a b = true := by
  have hmag : mag a = mag b := units_strictMono.injective (by rw [← natAbs_value, ← natAbs_value, h])
  have hkey : key a = key b := by
    by_cases hzero : mag b = 0
    · simp [key, hmag, hzero]
    · have hpos := units_strictMono (Nat.pos_of_ne_zero hzero)
      unfold value at h
      unfold key
      rw [hmag] at h ⊢
      split_ifs at h ⊢ <;> omega
  simp [eq, isNaN_of_finite ha, isNaN_of_finite hb, hkey]

/-- With weights 1 and 0 a sum of finite numbers is the first one. -/
theorem eq_add_one_zero {a b : F32} (ha : finite a = true) (hb : finite b = true) :
    eq (add (mul one a) (mul zero b)) a = true := by
  obtain ⟨hfirst, hvalue⟩ := value_one_mul ha
  obtain ⟨hsecond, hnone⟩ := value_zero_mul hb
  obtain ⟨hsum, hexact⟩ := value_add_of_exact hfirst hsecond ha (by rw [hvalue, hnone, add_zero])
  exact eq_of_value_eq hsum ha hexact

/-- With weights 0 and 1 a sum of finite numbers is the second one. -/
theorem eq_add_zero_one {a b : F32} (ha : finite a = true) (hb : finite b = true) :
    eq (add (mul zero a) (mul one b)) b = true := by
  obtain ⟨hfirst, hnone⟩ := value_zero_mul ha
  obtain ⟨hsecond, hvalue⟩ := value_one_mul hb
  obtain ⟨hsum, hexact⟩ := value_add_of_exact hfirst hsecond hb (by rw [hvalue, hnone, zero_add])
  exact eq_of_value_eq hsum hb hexact

end Sys2Proof.Machine.Fp

namespace Sys2Proof.Machine

open Config (Params NumFormat)

/-! ### The waveforms (40_oscillator.md R75 to R79) -/

/-- The square wave by the sign of its sine (R77). -/
theorem wave_square_of_pos {c : Params} {theta : Val} (h : Val.zero.lt (c.num.sin theta) = true) :
    wave c .square theta = .one := if_pos h

theorem wave_square_of_neg {c : Params} {theta : Val} (h : (c.num.sin theta).lt .zero = true) :
    wave c .square theta = .negOne := by
  simp [wave, squareOf, h, Val.not_pos_of_neg h]

theorem wave_square_of_zero {c : Params} {theta : Val} (h : (c.num.sin theta).isZero = true) :
    wave c .square theta = signValue c.sign0 := by
  obtain ⟨hneg, hpos⟩ := Val.zero_neither h
  simp [wave, squareOf, h, hneg, hpos]

/-- In the reference format every sample of a wave is a word. -/
theorem wave_binary32 {c : Params} (h : c.num = .binary32) (kind : Wave) (theta : Val) :
    ∃ w, wave c kind theta = .f32 w := by
  cases kind with
  | sine | saw | triangle => exact ⟨_, by rw [wave, h]; rfl⟩
  | square =>
    simp only [wave, squareOf, h]
    split_ifs
    · exact ⟨_, rfl⟩
    · exact ⟨_, rfl⟩
    · cases c.sign0 <;> exact ⟨_, rfl⟩
    · exact ⟨_, rfl⟩

/-- Of the parameters all waves but the square read the number format alone. -/
theorem wave_eq_reference {c : Params} (h : c.num = .binary32) {kind : Wave} (hkind : kind ≠ .square) (theta : Val) :
    wave c kind theta = wave Config.reference kind theta := by
  cases kind with
  | square => exact absurd rfl hkind
  | sine | saw | triangle => simp only [wave, h]; rfl

/-- SAW and TRIANGLE of the reference configuration at the phases R78 and R79 name (log 4). -/
theorem reference_wave_points :
    wave Config.reference .saw .zero = .negOne ∧ wave Config.reference .saw (.f32 Fp.halfPi) = .f32 0xBF000000
    ∧ wave Config.reference .saw (.f32 Fp.pi) = .zero
    ∧ wave Config.reference .triangle .zero = .negOne ∧ wave Config.reference .triangle (.f32 0x3F490FDB) = .f32 0xBF000000
    ∧ wave Config.reference .triangle (.f32 Fp.halfPi) = .zero ∧ wave Config.reference .triangle (.f32 Fp.pi) = .one
    ∧ wave Config.reference .triangle (.f32 Fp.threeHalfPi) = .zero := by
  decide +kernel

/-- Settles O42: SINE, SAW and TRIANGLE are their formulas as the model writes them, SQUARE goes by the sign of the sine, and
the named points are computed in the reference configuration, on which they do not depend beyond its format. -/
theorem wavesFollowTheirLaws : Obligations.WavesFollowTheirLaws := by
  unfold Obligations.WavesFollowTheirLaws
  refine ⟨fun _ _ => rfl, fun _ _ => wave_square_of_pos, fun _ _ => wave_square_of_neg, fun c theta h => ?zero,
    fun c n theta t hn ht => ?formulas, fun c h => ?points⟩
  case zero =>
    rw [wave_square_of_zero h]
    cases c.sign0 <;> rfl
  case formulas =>
    subst hn ht
    exact ⟨rfl, rfl⟩
  case points =>
    simp only [wave_eq_reference h (by decide : Wave.saw ≠ .square),
      wave_eq_reference h (by decide : Wave.triangle ≠ .square)]
    exact reference_wave_points

/-! ### The blend (40_oscillator.md R81) -/

/-- The blend of the reference format, as the word its four operations answer. -/
theorem blend_word {c : Params} (h : c.num = .binary32) (ka kb : Wave) (mix : F32) (theta : Val) :
    (blend c ka kb (.f32 mix) theta).word =
      Fp.add (Fp.mul (Fp.sub Fp.one mix) (wave c ka theta).word) (Fp.mul mix (wave c kb theta).word) := by
  rw [blend, h]
  rfl

/-- Settles O40: at either end the weights are exactly 1 and 0, so that no operation of the blend rounds. -/
theorem blendIsExactAtBothEnds : Obligations.BlendIsExactAtBothEnds := by
  unfold Obligations.BlendIsExactAtBothEnds
  intro c ka kb theta hnum hfa hfb
  obtain ⟨a, ha⟩ := wave_binary32 hnum ka theta
  obtain ⟨b, hb⟩ := wave_binary32 hnum kb theta
  have hatZero : Fp.sub Fp.one Fp.zero = Fp.one := by decide +kernel
  have hatOne : Fp.sub Fp.one Fp.one = Fp.zero := by decide +kernel
  rw [Val.zero, Val.one, blend_word hnum, blend_word hnum, hatZero, hatOne, ha, hb]
  rw [ha] at hfa
  rw [hb] at hfb
  exact ⟨Fp.eq_add_one_zero hfa hfb, Fp.eq_add_zero_one hfa hfb⟩

end Sys2Proof.Machine

/-! PROOFS. The statements of 41_envelope.md: the restarts, one tick in each stage, and the amplitude that settles. -/

namespace Sys2Proof

/-- `≤` excludes `<` the other way round. -/
theorem Val.not_lt_of_le {a b : Val} (h : a.le b = true) : b.lt a = false := by
  simp only [Val.le, Bool.and_eq_true, Bool.not_eq_true'] at h
  exact h.2

theorem Val.inUnit_zero : Val.zero.inUnit = true := by decide

theorem Val.inUnit_one : Val.one.inUnit = true := by decide

/-- What is already in [0, 1] passes the clamp unchanged, in every format. -/
theorem Val.clamp01_of_inUnit {x : Val} (h : x.inUnit = true) : x.clamp01 = x := by
  obtain ⟨hlo, hhi⟩ := Bool.and_eq_true_iff.1 h
  simp [Val.clamp01, Val.clamp, Val.not_lt_of_le hlo, Val.not_lt_of_le hhi]

end Sys2Proof

namespace Sys2Proof.Machine

open Config (NumFormat)

section Ticks

variable {n : NumFormat} {t : Timbre} {dt : Tracked} {e : Env}

/-! ### The body of each stage -/

theorem envBody_idle (h : e.stage = .idle) : envBody n t dt e = { e with amp := .zero } := by
  simp only [envBody, h]

theorem envBody_attack (h : e.stage = .attack) : envBody n t dt e = envRamp n .one t.envAttack dt .decay e := by
  simp only [envBody, h]

theorem envBody_decay (h : e.stage = .decay) :
    envBody n t dt e = envRamp n (n.load t.envSustain) t.envDecay dt .sustain e := by
  simp only [envBody, h]

theorem envBody_sustain (h : e.stage = .sustain) : envBody n t dt e = { e with amp := n.load t.envSustain } := by
  simp only [envBody, h]

theorem envBody_release (h : e.stage = .release) : envBody n t dt e = envRamp n .zero t.envRelease dt .idle e := by
  simp only [envBody, h]

/-! ### A tick of each kind of stage -/

/-- Where the body leaves an amplitude in [0, 1], the clamp of R93 has no effect. -/
theorem envTick_of_inUnit {e' : Env} (hbody : envBody n t dt e = e') (hamp : e'.amp.inUnit = true) :
    envTick n t dt e = e' := by
  rw [envTick, hbody, Val.clamp01_of_inUnit hamp]

/-- R94: a tick in Idle. -/
theorem envTick_idle (h : e.stage = .idle) : envTick n t dt e = { e with amp := .zero } :=
  envTick_of_inUnit (envBody_idle h) Val.inUnit_zero

/-- R97: a tick in Sustain. -/
theorem envTick_sustain (h : e.stage = .sustain) (hsus : (n.load t.envSustain).inUnit = true) :
    envTick n t dt e = { e with amp := n.load t.envSustain } :=
  envTick_of_inUnit (envBody_sustain h) hsus

variable {target : Val} {len : F32} {next : Stage}

/-- The tick that ends a timed stage. -/
theorem envTick_of_reaches (hbody : envBody n t dt e = envRamp n target len dt next e) (htarget : target.inUnit = true)
    (h : reaches n .elapsed (.add n e.elapsed dt) (.load n len) = true) :
    envTick n t dt e = { stage := next, amp := target, start := target, elapsed := .zero } :=
  envTick_of_inUnit (hbody.trans (if_pos h)) htarget

/-- A tick after which a timed stage goes on. -/
theorem envTick_of_not_reaches (hbody : envBody n t dt e = envRamp n target len dt next e)
    (h : reaches n .elapsed (.add n e.elapsed dt) (.load n len) = false) :
    envTick n t dt e = { e with
      elapsed := .add n e.elapsed dt
      amp := Val.clamp01 (n.add e.start (n.mul (n.sub target e.start)
        (n.div (Tracked.add n e.elapsed dt).val (n.load len)))) } := by
  rw [envTick, hbody, envRamp, if_neg (by simp [h])]

/-- A tick that leaves a timed stage for the next one answers the target, since no other tick leaves it. -/
theorem envTick_amp_of_enters (hbody : envBody n t dt e = envRamp n target len dt next e) (htarget : target.inUnit = true)
    (hstage : e.stage ≠ next) (h : (envTick n t dt e).stage = next) : (envTick n t dt e).amp = target := by
  cases hr : reaches n .elapsed (.add n e.elapsed dt) (.load n len) with
  | true => rw [envTick_of_reaches hbody htarget hr]
  | false =>
    rw [envTick_of_not_reaches hbody hr] at h
    exact absurd h hstage

/-! ### Many ticks -/

/-- What the first tick brings about and every tick keeps holds from the first tick on. -/
theorem envTicks_keep {P : Env → Prop} (hfirst : P (envTick n t dt e)) (hkeep : ∀ e, P e → P (envTick n t dt e)) (k : Nat) :
    P (envTicks n t dt (k + 1) e) := by
  induction k with
  | zero => exact hfirst
  | succ k ih => exact hkeep _ ih

end Ticks

/-- Settles O37: both operations set the stage, the start and the elapsed time, and read the amplitude alone. -/
theorem envOnAndOffStartFromTheAmplitude : Obligations.EnvOnAndOffStartFromTheAmplitude := by
  unfold Obligations.EnvOnAndOffStartFromTheAmplitude
  exact fun _ => ⟨rfl, rfl⟩

/-- Settles O38: Attack, Decay and Release are one timed stage with three targets, and every target is in [0, 1], so that the
clamp shows in the interpolation only. -/
theorem envTickFollowsTheStages : Obligations.EnvTickFollowsTheStages := by
  unfold Obligations.EnvTickFollowsTheStages
  intro n t dt el e sus hel hsus
  subst hel hsus
  refine ⟨rfl, fun _ => reaches_closed, envTick_idle, ?attackEnds, ?attackGoesOn, ?decayEnds, ?decayGoesOn, envTick_sustain,
    ?releaseEnds, ?releaseGoesOn⟩
  case attackEnds => exact fun h => envTick_of_reaches (envBody_attack h) Val.inUnit_one
  case attackGoesOn => exact fun h => envTick_of_not_reaches (envBody_attack h)
  case decayEnds => exact fun h => envTick_of_reaches (envBody_decay h)
  case decayGoesOn => exact fun h => envTick_of_not_reaches (envBody_decay h)
  case releaseEnds => exact fun h => envTick_of_reaches (envBody_release h) Val.inUnit_zero
  case releaseGoesOn => exact fun h => envTick_of_not_reaches (envBody_release h)

/-- Settles O39, by induction on the ticks: the tick that enters Sustain or Idle answers the target, and a tick in either
stage answers that target again and stays. -/
theorem settledEnvelopesStaySettled : Obligations.SettledEnvelopesStaySettled := by
  unfold Obligations.SettledEnvelopesStaySettled
  intro num t dt e k
  constructor
  · intro hsus hdecay henters
    have hamp := envTick_amp_of_enters (envBody_decay hdecay) hsus (by simp [hdecay]) henters
    refine envTicks_keep (P := fun e => e.stage = .sustain ∧ e.amp = num.load t.envSustain) ⟨henters, hamp⟩ ?_ k
    rintro e ⟨hstage, -⟩
    rw [envTick_sustain hstage hsus]
    exact ⟨hstage, rfl⟩
  · intro hrelease henters
    have hamp := envTick_amp_of_enters (envBody_release hrelease) Val.inUnit_zero (by simp [hrelease]) henters
    refine envTicks_keep (P := fun e => e.stage = .idle ∧ e.amp = .zero) ⟨henters, hamp⟩ ?_ k
    rintro e ⟨hstage, -⟩
    rw [envTick_idle hstage]
    exact ⟨hstage, rfl⟩

end Sys2Proof.Machine

/-! PROOFS. The statements of 42_filter.md: the bound of the returned sample, the cutoff without modulation, and one step of
the ladder. -/

namespace Sys2Proof

open Sys2Proof.Machine

/-! ### The clamp of what is no number (log 20) -/

/-- No comparison holds of what is no number. -/
theorem Val.lt_of_not_isNum {x : Val} (h : x.isNum = false) (y : Val) : x.lt y = false ∧ y.lt x = false := by
  cases x with
  | num q => cases h
  | f32 w =>
    have hnan : Fp.isNaN w = true := by simpa using h
    cases y <;> simp [Val.lt, Fp.lt, hnan]

/-- The clamp answers what is no number unchanged. -/
theorem Val.clamp_of_not_isNum {x : Val} (h : x.isNum = false) (lo hi : Val) : x.clamp lo hi = x := by
  simp [Val.clamp, Val.lt_of_not_isNum h]

/-- A clamped value that is a number is a sample: the clamp makes no number of what was none. -/
theorem Val.inSample_clamp_of_isNum {x : Val} (h : (x.clamp .negOne .one).isNum = true) :
    (x.clamp .negOne .one).inSample = true := by
  refine Val.clamp_sample ?_
  by_contra hx
  rw [Bool.not_eq_true] at hx
  rw [Val.clamp_of_not_isNum hx, hx] at h
  cases h

end Sys2Proof

namespace Sys2Proof.Machine.Fp

/-! ### Products with 0 and with 1, and the LFO's argument, in the reference format (00_scope.md R11) -/

/-- A word is its sign and its magnitude pattern. -/
theorem eq_of_isNeg_of_mag {a b : F32} (hsign : isNeg a = isNeg b) (hmag : mag a = mag b) : a = b := by
  have hbit : ∀ x : F32, isNeg x = decide (2 ^ 31 ≤ x.toNat) := fun x => BitVec.msb_eq_decide x
  rw [hbit, hbit, decide_eq_decide] at hsign
  unfold mag at hmag
  exact BitVec.eq_of_toNat_eq (by omega)

/-- The product of a finite number and 1 is that word, whose sign and magnitude both stay. -/
theorem mul_one_eq {a : F32} (h : finite a = true) : mul a one = a := by
  have hone : value one = (2 ^ 149 : Nat) := by decide +kernel
  have hpos : isNeg one = false := by decide
  have hrounds := mul_roundsTo h (b := one) (by decide)
  rw [hone] at hrounds
  have hvalue := (value_of_roundsTo (by positivity) h hrounds).2
  refine eq_of_isNeg_of_mag ?_ (units_strictMono.injective (by rw [← natAbs_value, ← natAbs_value, hvalue]))
  rw [mul_finite h (by decide), isNeg_pack _ (lt_of_le_of_lt (roundMag_le_infMag _ _) (by decide)), hpos, Bool.bne_false]

/-- A product of finite numbers is a zero when a factor is. -/
theorem isZero_mul {a b : F32} (ha : finite a = true) (hb : finite b = true) (h : isZero a = true ∨ isZero b = true) :
    isZero (mul a b) = true := by
  have hunits : units (mag a) * units (mag b) = 0 := by
    have hzero : units 0 = 0 := by decide
    simp only [isZero, beq_iff_eq] at h
    rcases h with h | h <;> simp [h, hzero]
  rw [isZero, mag_mul ha hb, hunits, roundMag_zero]
  rfl

/-- Factors of no smaller magnitude have a product of no smaller magnitude. -/
theorem mag_mul_le {a b a' b' : F32} (ha' : finite a' = true) (hb' : finite b' = true) (ha : mag a ≤ mag a')
    (hb : mag b ≤ mag b') : mag (mul a b) ≤ mag (mul a' b') := by
  rw [mag_mul (finite_of_mag_le ha ha') (finite_of_mag_le hb hb'), mag_mul ha' hb']
  exact roundMag_mono (by positivity) (by positivity) (Nat.mul_le_mul_right _
    (Nat.mul_le_mul (units_strictMono.monotone ha) (units_strictMono.monotone hb)))

/-- The LFO's value brought to [−1, 1], `2·l − 1`, is finite. -/
theorem finite_two_mul_sub_one {l : F32} (h : inUnit l = true) : finite (sub (mul two l) one) = true := by
  have htwo : units (mag (mul two one)) = 2 ^ 150 := by decide +kernel
  have hone : value one = 2 ^ 149 := by decide +kernel
  have hfour : units (mag four) = 2 ^ 151 := by decide +kernel
  have hmag : mag (mul two l) ≤ mag (mul two one) := mag_mul_le (by decide) (by decide) le_rfl (mag_le_of_inUnit h)
  have hbound : (value (mul two l)).natAbs ≤ 2 ^ 150 := by
    rw [natAbs_value, ← htwo]
    exact units_strictMono.monotone hmag
  have hfinite : finite (mul two l) = true := finite_of_mag_le hmag (by decide +kernel)
  rw [sub, finite, mag_add hfinite (by decide), value_negate, hone, decide_eq_true_eq]
  refine roundMag_finite (m := mag four) Nat.one_pos (by decide) ?_
  rw [hfour]
  omega

end Sys2Proof.Machine.Fp

namespace Sys2Proof.Machine

/-! ### The ladder filter (42_filter.md R106 to R115) -/

/-- With depth 0 the modulation's exponent is a zero, whatever the LFO's value (R107). -/
theorem lfoExponent_isZero {depth l : F32} (hdepth : Fp.isZero depth = true) (hl : inUnit l = true) :
    Fp.isZero (Fp.mul (Fp.mul (Fp.sub (Fp.mul Fp.two l) Fp.one) depth) Fp.four) = true := by
  have hproduct := Fp.isZero_mul (Fp.finite_two_mul_sub_one hl) (Fp.finite_of_isZero hdepth) (.inr hdepth)
  exact Fp.isZero_mul (Fp.finite_of_isZero hproduct) (by decide) (.inl hproduct)

/-- The cutoff of the reference format as the words its operations answer (R107). -/
theorem cutoff_binary32 (t : Timbre) (sr l : F32) :
    cutoff .binary32 t (.f32 sr) (.f32 l) = .f32 (Fp.clamp
      (Fp.mul t.fltCutoff (Fp.exp2 (Fp.mul (Fp.mul (Fp.sub (Fp.mul Fp.two l) Fp.one) t.lfoDepth) Fp.four)))
      Config.cutMin (Fp.mul Config.cutFrac sr)) :=
  Val.clamp_f32 _ _ _

/-- Settles O44: the returned sample is a clamped value, and the clamp makes no number of a NaN. -/
theorem filterOutputIsClamped : Obligations.FilterOutputIsClamped := by
  unfold Obligations.FilterOutputIsClamped
  exact fun _ _ _ _ _ => Val.inSample_clamp_of_isNum

/-- Settles O45: the exponent is a zero, its `exp2` is 1, and a product with 1 is not rounded. -/
theorem depthZeroCutoffIsTheClampedRegister : Obligations.DepthZeroCutoffIsTheClampedRegister := by
  unfold Obligations.DepthZeroCutoffIsTheClampedRegister
  intro t sr l hdepth hcutoff hl
  rw [cutoff_binary32, Fp.exp2_zero (lfoExponent_isZero hdepth hl), Fp.mul_one_eq hcutoff]
  rfl

/-- Settles O43: the intermediate results of the pseudocode are those the model's units name, and the literals go by the
number format. -/
theorem ladderStepFollowsThePseudocode : Obligations.LadderStepFollowsThePseudocode := by
  unfold Obligations.LadderStepFollowsThePseudocode
  refine ⟨?step, fun n => ⟨?reference, ?other⟩⟩
  case step =>
    intro c n t sr input l ph lfo lv cut f p k r y0 y1 y2 y3 hn hph hlfo hlv hcut hf hp hk hr hy0 hy1 hy2 hy3
    subst hn hph hlfo hlv hcut hf hp hk hr hy0 hy1 hy2 hy3
    rfl
  case reference =>
    rintro rfl
    exact ⟨rfl, rfl, rfl, rfl, rfl, rfl⟩
  case other =>
    intro hn
    cases n with
    | binary32 => exact absurd rfl hn
    | other k => exact ⟨rfl, rfl, rfl, rfl⟩

end Sys2Proof.Machine

/-! PROOFS. The statement of 43_distortion.md: the zero and the bound of the distortion. -/

namespace Sys2Proof.Config

/-- A product of the format is a number the format can hold. -/
theorem NumFormat.holds_mul (n : NumFormat) (a b : Val) : n.holds (n.mul a b) = true := by
  cases n with
  | binary32 => rfl
  | other k => rfl

end Sys2Proof.Config

namespace Sys2Proof.Machine

open Config (NumFormat)

/-- The distortion is a zero where the product with the drive is one. -/
theorem distort_isZero {n : NumFormat} {t : Timbre} {x : Val} (hproduct : (n.mul x (n.load t.distDrive)).isZero = true) :
    (distort n t x).isZero = true :=
  NumFormat.tanh_isZero (NumFormat.holds_mul n _ _) hproduct

/-- Where the product with the drive is finite, the distortion is at most 1 in magnitude. -/
theorem abs_distort_le {n : NumFormat} {t : Timbre} {x : Val} (hproduct : (n.mul x (n.load t.distDrive)).finite = true) :
    (distort n t x).abs.le .one = true :=
  NumFormat.abs_tanh_le (NumFormat.holds_mul n _ _) hproduct

/-- Settles O46: in the reference format a zero times a finite drive is a zero, whose `tanh` is one; and `tanh` of a finite
product is bounded in every format. -/
theorem distortionIsBoundedAndKeepsZero : Obligations.DistortionIsBoundedAndKeepsZero := by
  unfold Obligations.DistortionIsBoundedAndKeepsZero
  refine fun n t x => ⟨?zero, abs_distort_le⟩
  case zero =>
    rintro rfl hholds hx hdrive
    obtain ⟨w, rfl⟩ := NumFormat.holds_binary32.1 hholds
    exact distort_isZero (Fp.isZero_mul (Fp.finite_of_isZero hx) hdrive (.inl hx))

end Sys2Proof.Machine

/-! PROOFS. The statements of 44_grain_gate.md: the gate's law, the grains that no draw affects, and the `RENDER` of such
grains. -/

namespace Sys2Proof.Machine.Fp

/-! ### Order, and the products and bounds of R131 to R133, in the reference format (00_scope.md R10, R11) -/

/-- Of finite numbers the comparison is that of the values. -/
theorem lt_iff_value {a b : F32} (ha : finite a = true) (hb : finite b = true) : lt a b = true ↔ value a < value b := by
  have hmono : ∀ m m' : Nat, units m < units m' ↔ m < m' := fun _ _ => units_strictMono.lt_iff_lt
  have hzero : units 0 = 0 := by decide
  have hab := hmono (mag a) (mag b)
  have hba := hmono (mag b) (mag a)
  have hposA := hmono 0 (mag a)
  have hposB := hmono 0 (mag b)
  rw [hzero] at hposA hposB
  simp only [lt_iff, isNaN_of_finite ha, isNaN_of_finite hb, true_and, key, value]
  split_ifs <;> omega

/-- A product with the number 1 on the left is the other factor, be it finite or an infinity. -/
theorem one_mul_eq {a : F32} (h : isNaN a = false) : mul one a = a := by
  have hone : isNaN one = false ∧ isInf one = false ∧ isZero one = false ∧ isNeg one = false := by decide
  obtain ⟨hnum, hfinite, hnonzero, hsign⟩ := hone
  cases hinf : isInf a with
  | false =>
    have ha := finite_of_isInf h hinf
    have hcomm : mul one a = mul a one := by
      rw [mul_finite (by decide) ha, mul_finite ha (by decide), Nat.mul_comm, bne_comm]
    rw [hcomm, mul_one_eq ha]
  | true =>
    have hmag : mag a = infMag := by simpa [isInf] using hinf
    have hzero : isZero a = false := by rw [isZero, hmag]; rfl
    have hmul : mul one a = pack (isNeg a) infMag := by simp [mul, hnum, hfinite, hnonzero, hsign, h, hinf, hzero]
    rw [hmul]
    exact eq_of_isNeg_of_mag (isNeg_pack _ (by decide)) (by rw [mag_pack _ (by decide), hmag])

/-- A zero added to 1 leaves 1, whatever the sign of the zero. -/
theorem one_add_of_isZero {a : F32} (h : isZero a = true) : add one a = one := by
  rw [add_finite (by decide) (finite_of_isZero h), value_of_isZero h, add_zero]
  cases isNeg a <;> decide +kernel

/-- A number of 1 or more is clamped to 1. -/
theorem clamp01_of_one_le {a : F32} (h : le one a = true) : clamp01 a = one := by
  have hpos : lt zero one = true := by decide
  have hnumOne : isNaN one = false := by decide
  obtain ⟨hnum, hsign, -⟩ := pos_iff.1 (pos_of_le hpos h)
  have hkey : key a = mag a := by simp [key, hsign]
  unfold clamp01 clamp
  split_ifs with hlow hhigh
  · have hlt := (lt_iff.1 hlow).2.2
    rw [key_zero] at hlt
    omega
  · rfl
  · have hle := (le_iff.1 (le_of_not_lt hnumOne hnum (by simpa using hhigh))).2.2
    have hone : key one = mag one := by decide
    have hge := mag_le_of_le hpos h
    exact eq_of_isNeg_of_mag hsign (by omega)

/-- A number not above 0: with a sign, or a zero. -/
theorem nonpos_iff {a : F32} : le a zero = true ↔ isNaN a = false ∧ (isNeg a = true ∨ mag a = 0) := by
  rw [le_iff, key_zero, key]
  have hzero : isNaN zero = false := by decide
  cases isNeg a <;> simp [hzero]

/-- A finite number not above 0 times one not below 0 is a number not above 0. -/
theorem nonpos_mul {a b : F32} (ha : le a zero = true) (hfa : finite a = true) (hb : le zero b = true)
    (hfb : finite b = true) : le (mul a b) zero = true := by
  have zero_le : isZero (mul a b) = true → le (mul a b) zero = true := fun h =>
    nonpos_iff.2 ⟨isNaN_mul hfa hfb, .inr (by simpa [isZero] using h)⟩
  rcases (nonpos_iff.1 ha).2 with hsa | hma
  · rcases (nonneg_iff.1 hb).2 with hsb | hmb
    · refine nonpos_iff.2 ⟨isNaN_mul hfa hfb, .inl ?_⟩
      rw [mul_finite hfa hfb, isNeg_pack _ (lt_of_le_of_lt (roundMag_le_infMag _ _) (by decide)), hsa, hsb]
      rfl
    · exact zero_le (isZero_mul hfa hfb (.inr (by simp [isZero, hmb])))
  · exact zero_le (isZero_mul hfa hfb (.inl (by simp [isZero, hma])))

/-- A number not above 0 is clamped to a zero. -/
theorem isZero_clamp01_of_nonpos {a : F32} (h : le a zero = true) : isZero (clamp01 a) = true := by
  obtain ⟨hnum, -, hkey⟩ := le_iff.1 h
  have hone : key zero < key one := by decide
  unfold clamp01 clamp
  split_ifs with hlow hhigh
  · rfl
  · have hlt := (lt_iff.1 hhigh).2.2
    omega
  · have hnonneg := (nonneg_iff.1 (le_of_not_lt hnum (by decide) (by simpa using hlow))).2
    have hnonpos := (nonpos_iff.1 h).2
    have hmag : mag a = 0 := by
      rcases hnonneg with hplus | hmag
      · exact hnonpos.resolve_left (by simp [hplus])
      · exact hmag
    simp [isZero, hmag]

end Sys2Proof.Machine.Fp

namespace Sys2Proof

open Sys2Proof.Machine

/-! ### The record over the reals of an exact word (log 7) -/

/-- Lowest terms are a number with a denominator that is not 0, and the same number. -/
theorem Exact.reduce_cross (num : Int) {den : Nat} (h : den ≠ 0) :
    0 < (Exact.reduce num den).den ∧ (Exact.reduce num den).num * den = num * (Exact.reduce num den).den := by
  have hg : 0 < Nat.gcd num.natAbs den := Nat.gcd_pos_of_pos_right _ (Nat.pos_of_ne_zero h)
  have hreduce : Exact.reduce num den
      = { num := num / (Nat.gcd num.natAbs den : Int), den := den / Nat.gcd num.natAbs den } := by
    simp [Exact.reduce, hg.ne']
  have hdenDvd : Nat.gcd num.natAbs den ∣ den := Nat.gcd_dvd_right _ _
  have hnumDvd : (Nat.gcd num.natAbs den : Int) ∣ num := Int.natCast_dvd.2 (Nat.gcd_dvd_left _ _)
  rw [hreduce]
  refine ⟨Nat.div_pos (Nat.le_of_dvd (Nat.pos_of_ne_zero h) hdenDvd) hg, ?_⟩
  generalize Nat.gcd num.natAbs den = g at *
  obtain ⟨d, rfl⟩ := hdenDvd
  obtain ⟨k, rfl⟩ := hnumDvd
  have hgInt : (g : Int) ≠ 0 := by exact_mod_cast hg.ne'
  simp only [Int.mul_ediv_cancel_left _ hgInt, Nat.mul_div_cancel_left _ hg, Nat.cast_mul]
  ring

/-- What a finite word denotes, in lowest terms. -/
theorem Exact.ofWord_of_finite {a : F32} (h : Fp.finite a = true) : Exact.ofWord a = .reduce (Fp.value a) (2 ^ 149) :=
  if_pos h

/-- Of finite words the exact comparison is that of the stored ones. -/
theorem Exact.lt_ofWord {a b : F32} (ha : Fp.finite a = true) (hb : Fp.finite b = true) :
    (Exact.ofWord a).lt (.ofWord b) = Fp.lt a b := by
  obtain ⟨hposA, hcrossA⟩ := Exact.reduce_cross (Fp.value a) (den := 2 ^ 149) (by decide)
  obtain ⟨hposB, hcrossB⟩ := Exact.reduce_cross (Fp.value b) (den := 2 ^ 149) (by decide)
  rw [Exact.ofWord_of_finite ha, Exact.ofWord_of_finite hb, Exact.lt, Bool.eq_iff_iff, decide_eq_true_eq,
    Fp.lt_iff_value ha hb]
  generalize Exact.reduce (Fp.value a) (2 ^ 149) = p at *
  generalize Exact.reduce (Fp.value b) (2 ^ 149) = q at *
  have hunit : (0 : Int) < (2 ^ 149 : Nat) := by positivity
  have hden : (0 : Int) < (p.den : Int) * q.den := by positivity
  calc p.num * q.den < q.num * p.den
      ↔ p.num * q.den * (2 ^ 149 : Nat) < q.num * p.den * (2 ^ 149 : Nat) := (mul_lt_mul_iff_left₀ hunit).symm
    _ ↔ Fp.value a * (p.den * q.den) < Fp.value b * (p.den * q.den) := by
      rw [mul_right_comm, hcrossA, mul_right_comm q.num, hcrossB]
      constructor <;> intro h <;> linarith
    _ ↔ Fp.value a < Fp.value b := mul_lt_mul_iff_left₀ hden

/-- 1 as a rational. -/
theorem Exact.ofWord_one : Exact.ofWord Fp.one = { num := 1, den := 1 } := by decide +kernel

/-- Lowest terms times 1 are themselves. -/
theorem Exact.reduce_mul_one (num : Int) {den : Nat} (h : den ≠ 0) :
    (Exact.reduce num den).mul (.ofWord Fp.one) = .reduce num den := by
  rw [Exact.ofWord_one, Exact.mul, mul_one, Nat.mul_one, Exact.reduce_reduce h]

/-- 1 times lowest terms is them. -/
theorem Exact.one_mul_reduce (num : Int) {den : Nat} (h : den ≠ 0) :
    Exact.mul (.ofWord Fp.one) (.reduce num den) = .reduce num den := by
  rw [Exact.ofWord_one, Exact.mul, one_mul, Nat.one_mul, Exact.reduce_reduce h]

/-- 0 times a rational is 0. -/
theorem Exact.zero_mul (q : Exact) : Exact.mul { num := 0, den := 1 } q = { num := 0, den := 1 } := by
  rw [Exact.mul, MulZeroClass.zero_mul, Nat.one_mul, Exact.reduce]
  simp only [Int.natAbs_zero, Nat.gcd_zero_left, Int.zero_ediv]
  split_ifs with h
  · rfl
  · rw [Nat.div_self (Nat.pos_of_ne_zero h)]

/-- The reciprocal of a rational has a denominator that is not 0. -/
theorem Exact.inv_den_ne_zero (q : Exact) : q.inv.den ≠ 0 := by
  by_cases h : q.num = 0 <;> simp [Exact.inv, h]

end Sys2Proof

namespace Sys2Proof.Machine

open Config (Params NumFormat)

/-! ### Grains without jitter (44_grain_gate.md R131 to R133) -/

/-- A draw is a finite word. -/
theorem draw_finite (r : Rnd) : Fp.finite (draw r).1 = true :=
  Fp.finite_of_mag_le (Fp.mag_le_of_abs_le (by decide) (draw_unit r)) (by decide)

/-- With jitter 0 the factor `1 + jitter·u` of R131 is 1 in both readings, whatever the draw. -/
theorem jittered_of_isZero {j u : F32} (hj : Fp.isZero j = true) (hu : Fp.finite u = true) (v : F32) :
    jittered .binary32 v j u = .mul .binary32 (.ofWord v) .one := by
  have hval : Fp.add Fp.one (Fp.mul j u) = Fp.one :=
    Fp.one_add_of_isZero (Fp.isZero_mul (Fp.finite_of_isZero hj) hu (.inl hj))
  have hreal : (Exact.ofWord Fp.one).add { num := 0, den := 1 } = .ofWord Fp.one := by decide +kernel
  have hfactor : Tracked.add .binary32 .one (.mul .binary32 (.ofWord j) (.ofWord u)) = .one := by
    simp [Tracked.add, Tracked.mul, Tracked.one, Tracked.ofWord, Exact.ofWord_of_isZero hj, Exact.zero_mul, hval, hreal]
  rw [jittered, Tracked.load_binary32, Tracked.load_binary32, Tracked.load_binary32, hfactor]

/-- A finite register word times 1 is that word in both readings. -/
theorem Tracked.mul_one_ofWord {v : F32} (h : Fp.finite v = true) :
    Tracked.mul .binary32 (.ofWord v) .one = .ofWord v := by
  have hreal : (Exact.ofWord v).mul (.ofWord Fp.one) = .ofWord v := by
    rw [Exact.ofWord_of_finite h, Exact.reduce_mul_one _ (by decide)]
  simp [Tracked.mul, Tracked.one, Tracked.ofWord, Fp.mul_one_eq h, hreal]

/-- The clamp of an exact word is that of the word in both readings. -/
theorem Tracked.clamp01_ofWord {v : F32} (h : Fp.finite v = true) :
    (Tracked.ofWord v).clamp01 = .ofWord (Fp.clamp01 v) := by
  have hzero := Exact.lt_ofWord h (by decide : Fp.finite Fp.zero = true)
  have hone := Exact.lt_ofWord (by decide : Fp.finite Fp.one = true) h
  simp only [Tracked.clamp01, Tracked.ofWord, Val.clamp01_f32, hzero, hone, Fp.clamp01, Fp.clamp]
  split_ifs <;> rfl

/-- 1 times a quotient that is a number is that quotient in both readings. -/
theorem Tracked.one_mul_div {a : Tracked} {w : F32} (hw : (Tracked.div .binary32 .one a).val = .f32 w)
    (hnum : Fp.isNaN w = false) :
    Tracked.mul .binary32 (.ofWord Fp.one) (.div .binary32 .one a) = .div .binary32 .one a := by
  have hreal : (Exact.ofWord Fp.one).mul (Tracked.div .binary32 .one a).real = (Tracked.div .binary32 .one a).real := by
    have hden : (Exact.ofWord Fp.one).den * a.real.inv.den ≠ 0 := by
      simpa [Exact.ofWord_one] using a.real.inv_den_ne_zero
    exact Exact.one_mul_reduce _ hden
  have hval : NumFormat.binary32.mul (.f32 Fp.one) (Tracked.div .binary32 .one a).val
      = (Tracked.div .binary32 .one a).val := by
    rw [hw, NumFormat.mul_binary32, Val.word_f32, Val.word_f32, Fp.one_mul_eq hnum]
  rw [Tracked.mul, Tracked.ofWord_val, hval, Tracked.ofWord, hreal]

/-- With jitter 0 every roll gives the grain of two draws of 0 (R132). -/
theorem grainRoll_of_jitter_zero {c : Params} {t : Timbre} (hn : c.num = .binary32)
    (hj : Fp.isZero t.grainJitter = true) (g : Grain) (r : Rnd) :
    (grainRoll c t g r).1 = grainOf c t Fp.zero Fp.zero g := by
  have hzero : Fp.finite Fp.zero = true := by decide
  simp only [grainRoll, grainOf, hn, jittered_of_isZero hj (draw_finite _), jittered_of_isZero hj hzero]

/-- A roll takes two draws. -/
theorem grainRoll_count (c : Params) (t : Timbre) (g : Grain) (r : Rnd) :
    (grainRoll c t g r).2.count = r.count + 2 := by
  simp [grainRoll]

/-- Without jitter, a share of 1 or more is clamped to 1 in both readings, and the open time is the length (R133). -/
theorem grainRoll_duty_eq_len {c : Params} {t : Timbre} (hn : c.num = .binary32)
    (hj : Fp.isZero t.grainJitter = true) (hc : paramsLegal c = true) (ht : timbreLegal c t = true)
    (hduty : Fp.le Fp.one t.grainDuty = true) (g : Grain) (r : Rnd) :
    (grainRoll c t g r).1.duty = (grainRoll c t g r).1.len := by
  obtain ⟨-, hfinite, -⟩ := grain_of_timbreLegal ht
  have hlen := grainRoll_len hn t g r
  have hnum := (Fp.nonneg_iff.1 (Fp.nonneg_div (by decide : Fp.le Fp.zero Fp.one = true) (by decide)
    (rolledRate_pos hc ht r))).1
  have hshare : (jittered .binary32 t.grainDuty t.grainJitter Fp.zero).clamp01 = .ofWord Fp.one := by
    rw [jittered_of_isZero hj (by decide), Tracked.mul_one_ofWord hfinite, Tracked.clamp01_ofWord hfinite,
      Fp.clamp01_of_one_le hduty]
  rw [grainRoll_of_jitter_zero hn hj] at hlen ⊢
  simp only [grainOf, hn, hshare] at hlen ⊢
  exact Tracked.one_mul_div hlen hnum

/-- Whatever the draw, a share of 0 or less is clamped to a zero (R133). -/
theorem rolledShare_isZero {t : Timbre} (hj : inUnit t.grainJitter = true) (hfinite : Fp.finite t.grainDuty = true)
    (hduty : Fp.le t.grainDuty Fp.zero = true) (r : Rnd) : Fp.isZero (rolledShare t r) = true := by
  obtain ⟨hfactor, hbound⟩ := Fp.jitterFactor_bounds hj (draw_unit (draw r).2)
  exact Fp.isZero_clamp01_of_nonpos (Fp.nonpos_mul hduty hfinite hfactor (Fp.finite_of_mag_le hbound (by decide)))

/-- Settles O48: the factor of R131 is exactly 1 without jitter, so that the next grain is a function of the registers, and a
share of 1 or more is exactly 1; with jitter the factor is not below 0, and a share of 0 or less stays so. -/
theorem jitterZeroGrainIgnoresDraws : Obligations.JitterZeroGrainIgnoresDraws := by
  unfold Obligations.JitterZeroGrainIgnoresDraws
  intro c t g r r' hn
  refine ⟨fun hj => ⟨?sameGrain, grainRoll_count c t g r, fun hc ht hduty => grainRoll_duty_eq_len hn hj hc ht hduty g r⟩,
    fun hj hlen hfinite hduty => ?closed⟩
  case sameGrain => rw [grainRoll_of_jitter_zero hn hj, grainRoll_of_jitter_zero hn hj]
  case closed =>
    rw [grainRoll_len hn] at hlen
    rw [grainRoll_duty hn]
    have hshare := rolledShare_isZero hj hfinite hduty r
    exact Fp.isZero_mul (Fp.finite_of_isZero hshare) hlen (.inl hshare)

/-! ### The law of the gate (R133, R134) -/

/-- The first frame of a grain, with the timer at 0, is decided by the stored open time alone (log 7). -/
theorem below_zero_timer (n : NumFormat) (duty : Tracked) : below n .grain .zero duty = Val.zero.lt duty.val :=
  below_closed (tieOpen_zero (by decide +kernel))

theorem gated_of_below {n : NumFormat} {g : Grain} (h : below n .grain g.timer g.duty = true) (x : Val) : gated n g x = x :=
  if_pos h

theorem gated_of_not_below {n : NumFormat} {g : Grain} (h : below n .grain g.timer g.duty = false) (x : Val) :
    gated n g x = .zero :=
  if_neg (by simp [h])

section Advance

variable {c : Params} {t : Timbre} {step : Tracked} {g : Grain}

/-- A frame that does not end its grain advances the timer and draws nothing. -/
theorem grainAdvance_of_not_reaches (h : reaches c.num .grain (.add c.num g.timer step) g.len = false) (r : Rnd) :
    grainAdvance c t step g r = ({ g with timer := .add c.num g.timer step }, r) := if_neg (by simp [h])

/-- A frame that ends its grain rolls the next and resets the timer. -/
theorem grainAdvance_of_reaches (h : reaches c.num .grain (.add c.num g.timer step) g.len = true) (r : Rnd) :
    grainAdvance c t step g r = ({ (grainRoll c t g r).1 with timer := .zero }, (grainRoll c t g r).2) := if_pos h

/-- The frame that ends a grain passes while the new open time is above 0. -/
theorem gated_at_end (h : reaches c.num .grain (.add c.num g.timer step) g.len = true) (r : Rnd) (x : Val) :
    gated c.num (grainAdvance c t step g r).1 x
      = if Val.zero.lt (grainAdvance c t step g r).1.duty.val then x else .zero := by
  rw [grainAdvance_of_reaches h, gated, below_zero_timer]

end Advance

/-- Settles O47: the two outcomes of the advance, the two of the gate, and the two together: not to have reached the length is
to be below an open time that is the length, and a timer of 0 leaves nothing open. -/
theorem grainGateFollowsItsLaw : Obligations.GrainGateFollowsItsLaw := by
  unfold Obligations.GrainGateFollowsItsLaw
  intro c n t step timer g r hn htimer
  subst hn htimer
  refine ⟨rfl, reaches_closed, below_closed, fun h => grainAdvance_of_not_reaches h r, fun h => ?rolled,
    fun x h => gated_of_below h x, fun x h => gated_of_not_below h x, fun x hopen hlen htimer h => ?neverCloses,
    fun x g' h hg' => ?atEnd⟩
  case rolled => exact ⟨_, _, _, _, _, _, rfl, rfl, rfl, rfl, grainAdvance_of_reaches h r⟩
  case neverCloses =>
    rw [grainAdvance_of_not_reaches h]
    refine gated_of_below ?_ x
    simpa only [hopen] using below_of_not_reaches htimer hlen h
  case atEnd =>
    subst hg'
    rw [gated_at_end h]
    exact ⟨fun hopen => if_pos hopen, fun hzero => if_neg (by simp [(Val.zero_neither hzero).2])⟩

/-! ### The `RENDER` of voices without jitter (R132) -/

section NoJitter

variable {c : Params} (hn : c.num = .binary32)
include hn

/-- Without jitter the gate advances the same whatever the port supplies: the end of a grain does not read the draws, and the
next grain is the same. -/
theorem grainAdvance_ignores_draws {t : Timbre} (hj : Fp.isZero t.grainJitter = true) (step : Tracked) (g : Grain)
    (r r' : Rnd) : (grainAdvance c t step g r').1 = (grainAdvance c t step g r).1 := by
  cases h : reaches c.num .grain (.add c.num g.timer step) g.len with
  | true =>
    rw [grainAdvance_of_reaches h, grainAdvance_of_reaches h, grainRoll_of_jitter_zero hn hj, grainRoll_of_jitter_zero hn hj]
  | false => rw [grainAdvance_of_not_reaches h, grainAdvance_of_not_reaches h]

/-- A frame of a voice without jitter differs in the port alone. -/
theorem voiceStep_ignores_draws {v : Voice} (hj : Fp.isZero v.t.grainJitter = true) (sr : F32) (r r' : Rnd) :
    voiceStep c sr v r' = { voiceStep c sr v r with rnd := (voiceStep c sr v r').rnd } := by
  have hgrain := grainAdvance_ignores_draws hn hj (stepOf c.num sr) v.gr r r'
  cases henable : v.t.grainEnable <;> simp [voiceStep, henable, hgrain]

/-- A mix of voices without jitter differs in the port alone. -/
theorem mixVoices_ignores_draws {vs : List Voice} (hj : ∀ v ∈ vs, Fp.isZero v.t.grainJitter = true) (sr : F32) (acc : Val)
    (r r' : Rnd) : mixVoices c sr vs acc r' = { mixVoices c sr vs acc r with rnd := (mixVoices c sr vs acc r').rnd } := by
  induction vs generalizing acc r r' with
  | nil => rfl
  | cons v vs ih =>
    obtain ⟨hv, hvs⟩ := List.forall_mem_cons.1 hj
    have hstep := voiceStep_ignores_draws hn hv sr r r'
    simp only [mixVoices]
    rw [hstep, ih hvs _ (voiceStep c sr v r).rnd]

/-- Frames of voices without jitter differ in the port alone. -/
theorem renderFrames_ignores_draws {x : RenderRun} (hj : ∀ v ∈ x.voices, Fp.isZero v.t.grainJitter = true) (sr : F32)
    (ch k : Nat) (r' : Rnd) : renderFrames c sr ch k { x with rnd := r' } =
      { renderFrames c sr ch k x with rnd := (renderFrames c sr ch k { x with rnd := r' }).rnd } := by
  induction k with
  | zero => rfl
  | succ k ih =>
    have hkept := renderFrames_keeps (c := c) (sr := sr) (P := fun v => Fp.isZero v.t.grainJitter = true)
      (fun _ _ hv => hv) ch k hj
    simp only [renderFrames, renderFrame]
    rw [ih, mixVoices_ignores_draws hn hkept sr _ (renderFrames c sr ch k x).rnd]

end NoJitter

/-- The frames of a `RENDER` of voices without jitter differ in the port alone. -/
theorem renderRun_ignores_draws {s : State} (hn : s.cfg.num = .binary32)
    (hj : ∀ v ∈ s.voices, Fp.isZero v.t.grainJitter = true) (o : RenderOperands) (r' : Rnd) :
    renderRun { s with rnd := r' } o = { renderRun s o with rnd := (renderRun { s with rnd := r' } o).rnd } :=
  renderFrames_ignores_draws hn (x := { voices := s.voices, out := s.out, rnd := s.rnd, silenced := false }) hj ..

/-- States that differ at most in the port: the second is the first with another port. -/
theorem sameButDraws.exists_rnd {s s' : State} (h : sameButDraws s s') : ∃ r', s' = { s with rnd := r' } := ⟨_, h.symm⟩

/-- Settles O60, by induction on the frames and on the slots: no draw affects a voice step without jitter, so that voices, samples
and `SILENCED` are the same and only what the port has supplied differs. -/
theorem renderWithoutJitterIgnoresDraws : Obligations.RenderWithoutJitterIgnoresDraws := by
  unfold Obligations.RenderWithoutJitterIgnoresDraws
  intro n c sr s s' hn hsame hj
  obtain ⟨r', rfl⟩ := hsame.exists_rnd
  cases hsr : Fp.finite sr with
  | false =>
    have hreject : (!Fp.finite sr) = true := by rw [hsr]; rfl
    exact ⟨_, _, if_pos hreject, if_pos hreject, rfl⟩
  | true =>
    have hrender : ¬ (!Fp.finite sr) = true := by simp [hsr]
    refine ⟨_, _, if_neg hrender, if_neg hrender, ?_⟩
    rw [renderRun_ignores_draws hn hj _ r']
    rfl

end Sys2Proof.Machine

/-! PROOFS. The statements of 45_voice.md: the chain of one voice step, its guard, and the envelopes of a `RENDER`. -/

namespace Sys2Proof.Machine

open Config (Params NumFormat)

/-! ### The guard (R147) -/

/-- What a voice step leaves once the unguarded sample, the next voice and the port are known: the guard of R147. -/
def guarded (final : Val) (v : Voice) (r : Rnd) : VoiceFrame where
  sample := if silent final v.flt then .zero else final
  voice := v
  rnd := r
  silenced := silent final v.flt

/-- The filter step of one frame of a voice, on the distorted blend at the frame's phase (R142, R143). -/
def voiceFilter (c : Params) (sr : F32) (v : Voice) : Val × Ladder :=
  ladderStep c v.t (c.num.load sr) (distort c.num v.t
    (blend c v.t.oscA v.t.oscB (c.num.load v.t.oscMix) (phaseAdvance c.num (c.num.load sr) v))) v.flt

/-- The sample of one frame of a voice before gate and guard (R144, R145). -/
def voiceLevel (c : Params) (sr : F32) (v : Voice) : Val :=
  level c.num (voiceFilter c sr v).1 (envTick c.num v.t (stepOf c.num sr) v.env).amp

/-- A voice after one frame, but for its gate (R142 to R144). -/
def voiceAfter (c : Params) (sr : F32) (v : Voice) : Voice :=
  { v with
    phase := phaseAdvance c.num (c.num.load sr) v
    flt := (voiceFilter c sr v).2
    env := envTick c.num v.t (stepOf c.num sr) v.env }

section Step

variable {c : Params} {sr : F32} {v : Voice} {r : Rnd}

/-- One frame of a voice without a gate. -/
theorem voiceStep_of_gate_off (h : v.t.grainEnable = false) :
    voiceStep c sr v r = guarded (voiceLevel c sr v) (voiceAfter c sr v) r := by
  simp only [voiceStep, h]
  rfl

/-- One frame of a voice with a gate (R146). -/
theorem voiceStep_of_gate_on (h : v.t.grainEnable = true) {g : Grain} {r' : Rnd}
    (hadvance : grainAdvance c v.t (stepOf c.num sr) v.gr r = (g, r')) :
    voiceStep c sr v r = guarded (gated c.num g (voiceLevel c sr v)) { voiceAfter c sr v with gr := g } r' := by
  simp only [voiceStep, h, if_true, hadvance]
  rfl

end Step

@[simp] theorem voiceStep_flt (c : Params) (sr : F32) (v : Voice) (r : Rnd) :
    (voiceStep c sr v r).voice.flt = (voiceFilter c sr v).2 := rfl

/-- The guard has the last word in every voice step. -/
theorem voiceStep_guarded (c : Params) (sr : F32) (v : Voice) (r : Rnd) :
    ∃ final, voiceStep c sr v r = guarded final (voiceStep c sr v r).voice (voiceStep c sr v r).rnd :=
  ⟨_, rfl⟩

/-- The guard fires unless the sample and the nine fields of the filter are finite. -/
theorem silent_eq (x : Val) (fl : Ladder) :
    silent x fl = !(x.finite && ([fl.tap0, fl.tap1, fl.tap2, fl.tap3].all fun tap => tap.oldx.finite && tap.y.finite)
      && fl.lfo.finite) := by
  simp [silent, ladderFinite, tapFinite, Bool.and_assoc]

section Guard

variable {final : Val} {v : Voice} {r : Rnd}

/-- A silenced sample is 0. -/
theorem guarded_sample_of_silenced (h : (guarded final v r).silenced = true) : (guarded final v r).sample = .zero := if_pos h

/-- The guard lets only finite samples pass. -/
theorem guarded_sample_finite : (guarded final v r).sample.finite = true := by
  cases h : silent final v.flt with
  | true =>
    rw [guarded_sample_of_silenced h]
    decide
  | false =>
    obtain ⟨hfinal, -⟩ : final.finite = true ∧ ladderFinite v.flt = true := by simpa [silent] using h
    simpa [guarded, h] using hfinal

/-- A filter state that is not finite fires the guard (log 20). -/
theorem guarded_silenced (h : ladderFinite v.flt = false) : (guarded final v r).silenced = true := by
  simp [guarded, silent, h]

end Guard

/-- Settles O49: the chain is the one of the model's units, `wrap2Pi` and `lerp` being R10's formulas and `silent` the guard
written out, once without and once with a gate. -/
theorem voiceStepFollowsTheChain : Obligations.VoiceStepFollowsTheChain := by
  unfold Obligations.VoiceStepFollowsTheChain
  intro c n sr v r rate twoPi x ph mix raw out lev step fl en quiet hn hrate htwoPi hx hph hmix hraw hfilter hstep hen hlev
    hquiet
  subst hn hrate htwoPi hx hph hmix hraw hstep hen hlev
  obtain ⟨hout, hfl⟩ : out = (voiceFilter c sr v).1 ∧ fl = (voiceFilter c sr v).2 := Prod.ext_iff.1 hfilter
  obtain rfl : quiet = fun y => silent y fl := funext fun y => (hquiet y).trans (silent_eq y fl).symm
  subst hout hfl
  exact ⟨rfl, voiceStep_of_gate_off, fun hgate _ _ hadvance => voiceStep_of_gate_on hgate hadvance⟩

/-! ### A stage of the filter that is not finite (U4) -/

/-- The four stages of a ladder. -/
def isStage (tap : Ladder → Tap) : Prop := tap = (·.tap0) ∨ tap = (·.tap1) ∨ tap = (·.tap2) ∨ tap = (·.tap3)

/-- Each stage is stepped from its own state (R110). -/
theorem ladderStep_stage {tap : Ladder → Tap} (htap : isStage tap) (c : Params) (t : Timbre) (sr input : Val) (l : Ladder) :
    ∃ co x, tap (ladderStep c t sr input l).2 = tapStep c.num co x (tap l) := by
  rcases htap with rfl | rfl | rfl | rfl <;> exact ⟨_, _, rfl⟩

theorem ladderFinite_of_stage {tap : Ladder → Tap} (htap : isStage tap) {l : Ladder} (h : (tap l).y.finite = false) :
    ladderFinite l = false := by
  rcases htap with rfl | rfl | rfl | rfl <;> simp [ladderFinite, tapFinite, h]

/-- Settles O50: the guard has the last word, and it reads every stage of the filter, of which none becomes finite again in the
reference format. -/
theorem voiceSampleIsFinite : Obligations.VoiceSampleIsFinite := by
  unfold Obligations.VoiceSampleIsFinite
  intro c sr v r o ho
  obtain ⟨final, hguarded⟩ := voiceStep_guarded c sr v r
  rw [← ho] at hguarded
  have hzero : o.silenced = true → o.sample = .zero := by
    rw [hguarded]
    exact guarded_sample_of_silenced
  have hsilenced : ladderFinite o.voice.flt = false → o.silenced = true := by
    rw [hguarded]
    exact guarded_silenced
  refine ⟨hguarded ▸ guarded_sample_finite, hzero, fun h => ⟨hsilenced h, hzero (hsilenced h)⟩, fun hn tap htap h => ?stage⟩
  case stage =>
    have hstays : (tap o.voice.flt).y.finite = false := by
      obtain ⟨co, x, hstep⟩ := ladderStep_stage htap c v.t (c.num.load sr) _ v.flt
      rw [ho, voiceStep_flt, voiceFilter, hstep, hn]
      exact tapStep_not_finite co x h
    have hquiet := hsilenced (ladderFinite_of_stage htap hstays)
    exact ⟨hstays, hquiet, hzero hquiet⟩

/-! ### The envelopes of a `RENDER` (R144, R160) -/

/-- A frame steps every voice in its slot, with what the port supplies there. -/
theorem mixVoices_slot {c : Params} {sr : F32} {vs : List Voice} {k : Nat} {v : Voice} (h : vs[k]? = some v) (acc : Val)
    (r : Rnd) : ∃ r', (mixVoices c sr vs acc r).voices[k]? = some (voiceStep c sr v r').voice := by
  induction vs generalizing k acc r with
  | nil => simp at h
  | cons w vs ih =>
    cases k with
    | zero =>
      obtain rfl : w = v := by simpa using h
      exact ⟨r, rfl⟩
    | succ k => exact ih (by simpa using h) _ _

/-- Frames tick the envelope of a slot once each and leave what a note wrote there. -/
theorem renderFrames_slot {c : Params} {sr : F32} {x : RenderRun} {i : Nat} {v : Voice} (h : x.voices[i]? = some v)
    (ch k : Nat) : ∃ v', (renderFrames c sr ch k x).voices[i]? = some v' ∧ noteKey v' = noteKey v
      ∧ v'.env = envTicks c.num v.t (stepOf c.num sr) k v.env := by
  induction k with
  | zero => exact ⟨v, h, rfl, rfl⟩
  | succ k ih =>
    obtain ⟨w, hslot, hkey, henv⟩ := ih
    have htimbre : w.t = v.t := congrArg (fun key => key.2.2) hkey
    obtain ⟨r', hframe⟩ := mixVoices_slot hslot .zero (renderFrames c sr ch k x).rnd
    refine ⟨_, hframe, hkey, ?_⟩
    rw [voiceStep_env, htimbre, henv]
    rfl

/-- Settles O35, by induction on the frames: a frame steps each slot, and a step ticks the envelope. -/
theorem framesTickEveryEnvelope : Obligations.FramesTickEveryEnvelope := by
  unfold Obligations.FramesTickEveryEnvelope
  intro s o k v h
  obtain ⟨v', hslot, hkey, henv⟩ := renderFrames_slot (c := s.cfg) (sr := o.rate)
    (x := { voices := s.voices, out := s.out, rnd := s.rnd, silenced := false }) h o.channels o.frames
  obtain ⟨hid, hfreq, htimbre⟩ : v'.id = v.id ∧ v'.freq = v.freq ∧ v'.t = v.t := by simpa [noteKey] using hkey
  exact ⟨v', hslot, hid, hfreq, htimbre, henv, rfl⟩

end Sys2Proof.Machine

/-! PROOFS. The statements of 46_commands.md: the whole next state of each command. -/

namespace Sys2Proof.Machine

open Config (Params NumFormat)

/-! ### The answer of a command, written out (R64, R65, R181) -/

/-- A command that raises nothing answers `OK` and leaves `STATUS`. -/
theorem answer_ok (value : Word) (s : State) : answer [] value s = { s with rsp := s.rsp ++ [0, value] } := rfl

/-- A command that can raise one status answers its code and sets its bit when it does. -/
theorem answer_raisedIf (b : Bool) (st : Status) (value : Word) (s : State) :
    answer (raisedIf b st) value s = { s with
      status := if b then s.status ||| statusBit st else s.status
      rsp := s.rsp ++ [if b then BitVec.ofNat 32 (statusCode st) else 0, value] } := by
  cases b with
  | false => rfl
  | true => cases st <;> rfl

/-! ### `NOTE_ON` (46_commands.md section 1) -/

/-- Settles O15: the first test of `NOTE_ON`, before the id is taken. -/
theorem noteOnRejectsNonFinite : Obligations.NoteOnRejectsNonFinite := by
  unfold Obligations.NoteOnRejectsNonFinite
  intro f s hf
  rcases execNoteOn_cases f s with ⟨-, h⟩ | ⟨hfinite, -⟩ | ⟨hfinite, -⟩
  · exact h
  · cases hf.symm.trans hfinite
  · cases hf.symm.trans hfinite

/-- The counter wraps at the last id (R23). -/
theorem idWraps_eq {s : State} (hidw : s.cfg.idw ≤ 32) : idWraps s = decide (s.nextId.toNat = 2 ^ s.cfg.idw - 1) := by
  have hpow : 2 ^ s.cfg.idw ≤ 2 ^ 32 := Nat.pow_le_pow_right (by decide) hidw
  have hlast : (lastId s).toNat = 2 ^ s.cfg.idw - 1 := by
    rw [lastId, BitVec.toNat_ofNat]
    exact Nat.mod_eq_of_lt (by omega)
  rw [idWraps, Bool.beq_eq_decide_eq, ← hlast]
  exact decide_eq_decide.2 BitVec.toNat_eq

/-- `CREATE` by its two draws (R151). -/
theorem create_eq {s : State} {u1 u2 : F32} {r1 r2 : Rnd} (h1 : draw s.rnd = (u1, r1)) (h2 : draw r1 = (u2, r2))
    (f : F32) : create s f =
      ({ id := s.nextId, freq := f, phase := .zero, t := s.timbre, env := envOn envInit, flt := ladderInit,
         gr := grainOf s.cfg s.timbre u1 u2 grainInit }, r2) := by
  simp [create, grainRoll, h1, h2]

/-- Settles O16: the new voice is the one `CREATE` makes from two draws, and the id is the counter's. -/
theorem noteOnCreatesTheNewestVoice : Obligations.NoteOnCreatesTheNewestVoice := by
  unfold Obligations.NoteOnCreatesTheNewestVoice
  rintro f s n rfl hf hroom hidw
  obtain ⟨⟨u1, r1⟩, h1⟩ : ∃ d, draw s.rnd = d := ⟨_, rfl⟩
  obtain ⟨⟨u2, r2⟩, h2⟩ : ∃ d, draw r1 = d := ⟨_, rfl⟩
  refine ⟨u1, u2, _, _, r1, r2, h1, h2, rfl, rfl, rfl, rfl, ?_⟩
  rcases execNoteOn_cases f s with ⟨hnot, -⟩ | ⟨-, -, h⟩ | ⟨-, hfull, -⟩
  · cases hf.symm.trans hnot
  · refine h.trans (congrArg _ ?_)
    rw [answer_raisedIf, create_eq h1 h2, bumpId, idWraps_eq hidw]
    simp only [decide_eq_true_eq]
    rfl
  · omega

/-- What a `NOTE_ON` on a full pool answers: of its two statuses `ID_WRAP` has the greater code (R181). -/
theorem answer_stolen (wraps : Bool) (value : Word) (s : State) :
    answer (raisedIf wraps .idWrap ++ [.stolen]) value s = { s with
      status := (if wraps then s.status ||| 0x100 else s.status) ||| 0x10
      rsp := s.rsp ++ [if wraps then 5 else 4, value] } := by
  cases wraps <;> rfl

/-- Settles O17: slot 0 keeps its place and everything a retarget does not write. -/
theorem noteOnStealsSlotZero : Obligations.NoteOnStealsSlotZero := by
  unfold Obligations.NoteOnStealsSlotZero
  intro f s v vs hf hvoices hfull hidw
  rcases execNoteOn_cases f s with ⟨hnot, -⟩ | ⟨-, hroom, -⟩ | ⟨-, -, h⟩
  · cases hf.symm.trans hnot
  · omega
  · refine h.trans (congrArg _ ?_)
    rw [answer_stolen, hvoices, bumpId, idWraps_eq hidw]
    simp only [decide_eq_true_eq]
    rfl

/-! ### `NOTE_OFF` and `NOTE_OFF_FREQ` (46_commands.md section 2) -/

theorem hasId_iff {id : Word} {vs : List Voice} : hasId id vs = true ↔ ∃ v ∈ vs, v.id = id := by
  simp [hasId]

/-- `NOTE_OFF` releases the first voice with the id, wherever it stands (R154, U9). -/
theorem releaseId_append {id : Word} {pre : List Voice} {v : Voice} (hpre : ∀ u ∈ pre, u.id ≠ id) (hv : v.id = id)
    (post : List Voice) : releaseId id (pre ++ v :: post) = pre ++ releaseVoice v :: post := by
  induction pre with
  | nil => rw [List.nil_append, releaseId, if_pos hv, List.nil_append]
  | cons u pre ih =>
    obtain ⟨hu, hpre⟩ := List.forall_mem_cons.1 hpre
    rw [List.cons_append, releaseId, if_neg hu, ih hpre, List.cons_append]

/-- Settles O18: the pool has the id, or it does not. -/
theorem noteOffReleasesById : Obligations.NoteOffReleasesById := by
  unfold Obligations.NoteOffReleasesById
  refine ⟨fun id s pre post v hvoices hv hpre => ?hit, fun id s hnone => ?miss⟩
  case hit =>
    rcases execNoteOff_cases id s with ⟨-, h⟩ | ⟨hmiss, -⟩
    · rw [hvoices, releaseId_append hpre hv] at h
      exact h
    · have hhas : hasId id s.voices = true := hasId_iff.2 ⟨v, by simp [hvoices], hv⟩
      cases hhas.symm.trans hmiss
  case miss =>
    rcases execNoteOff_cases id s with ⟨hhas, -⟩ | ⟨-, h⟩
    · obtain ⟨v, hmem, hv⟩ := hasId_iff.1 hhas
      exact absurd hv (hnone v hmem)
    · exact h

/-- Settles O19: the count that is answered is 0 exactly where no voice matches. -/
theorem noteOffFreqReleasesEveryMatch : Obligations.NoteOffFreqReleasesEveryMatch := by
  unfold Obligations.NoteOffFreqReleasesEveryMatch
  rintro f s n hit rfl hhit
  obtain rfl : hit = freqMatches s.cfg f := funext hhit
  have hcount : countMatches s f = 0 ↔ ∀ v ∈ s.voices, freqMatches s.cfg f v = false := by
    simp [countMatches, List.countP_eq_zero]
  rcases execNoteOffFreq_cases f s with ⟨hf, h⟩ | ⟨hf, hnone, h⟩ | ⟨hf, hsome, h⟩
  · exact ⟨fun _ => h, by simp [hf], by simp [hf]⟩
  · refine ⟨by simp [hf], fun _ _ => h, fun _ ⟨v, hmem, hv⟩ => ?_⟩
    cases hv.symm.trans (hcount.1 hnone v hmem)
  · refine ⟨by simp [hf], fun _ hmiss => absurd (hcount.2 hmiss) hsome, fun _ _ => ?_⟩
    rw [← List.countP_eq_length_filter]
    exact h

/-- A slot whose voice has another id is left by `NOTE_OFF`. -/
theorem releaseId_slot {id : Word} {vs : List Voice} {k : Nat} {v : Voice} (hslot : vs[k]? = some v) (hv : v.id ≠ id) :
    (releaseId id vs)[k]? = some v := by
  induction vs generalizing k with
  | nil => exact hslot
  | cons w vs ih =>
    unfold releaseId
    cases k with
    | zero =>
      obtain rfl : w = v := by simpa using hslot
      rw [if_neg hv]
      exact hslot
    | succ k =>
      split_ifs
      · exact hslot
      · exact ih hslot

/-- A slot whose voice does not match the frequency is left by `NOTE_OFF_FREQ`. -/
theorem releaseFreq_slot {c : Params} {f : F32} {vs : List Voice} {k : Nat} {v : Voice} (hslot : vs[k]? = some v)
    (hv : freqMatches c f v = false) : (releaseFreq c f vs)[k]? = some v := by
  simp [releaseFreq, hslot, hv]

/-- Settles O20: a note-off releases in place, and no effect of `SETP` writes a voice. -/
theorem unmatchedVoicesAreUnchanged : Obligations.UnmatchedVoicesAreUnchanged := by
  unfold Obligations.UnmatchedVoicesAreUnchanged
  refine ⟨fun id s t k v h hslot hv => ?byId, fun f s t k v h hslot hv => ?byFreq, fun sel w s t h => ?setp⟩
  case byId =>
    rcases execNoteOff_cases id s with ⟨-, h'⟩ | ⟨-, h'⟩ <;> obtain rfl := Host.Outcome.next.inj (h'.symm.trans h)
    · exact releaseId_slot hslot hv
    · exact hslot
  case byFreq =>
    rcases execNoteOffFreq_cases f s with ⟨-, h'⟩ | ⟨-, -, h'⟩ | ⟨-, -, h'⟩ <;>
      obtain rfl := Host.Outcome.next.inj (h'.symm.trans h)
    · exact hslot
    · exact hslot
    · exact releaseFreq_slot hslot hv
  case setp =>
    cases effect_of_exec h <;> rfl

/-! ### `SETP` and `GETP` (46_commands.md section 3) -/

/-- Settles O25: `SETP STATUS` has an arm of its own, which raises nothing. -/
theorem setpStatusClearsBits : Obligations.SetpStatusClearsBits := by
  unfold Obligations.SetpStatusClearsBits
  intro m s
  have h : exec (.setp (.reg .status) m) s = .next (setStatus m s) := rfl
  rw [h, setStatus, answer_ok, clearStatus]

/-- `GETP` of a register the table names answers what it holds (R158). -/
theorem exec_getp (r : Reg) (s : State) : exec (.getp (.reg r)) s = .next (answer [] (readReg s r) s) := rfl

/-- Settles O26: a register of the table is read, a reserved index is refused. -/
theorem getpReadsTheRegister : Obligations.GetpReadsTheRegister := by
  unfold Obligations.GetpReadsTheRegister
  exact ⟨fun r s => by rw [exec_getp, answer_ok], fun _ _ => rfl, fun _ => ⟨rfl, rfl, rfl, rfl⟩⟩

/-! #### The codes of the code registers (10_state.md R14, 30_encoding.md R68) -/

/-- A type of codes as the model has it: every value has its own code, and the codes are the numbers up to `max`. -/
structure CodesUpTo {α : Type} (code : α → Word) (ofCode : Word → Option α) (max : Nat) : Prop where
  ofCode_code : ∀ x, ofCode (code x) = some x
  exists_code : ∀ v : Word, v.toNat ≤ max → ∃ x, v = code x
  reserved : ∀ v : Word, max < v.toNat → ofCode v = none

theorem waveCodes : CodesUpTo waveCode waveOfCode 3 where
  ofCode_code w := by cases w <;> rfl
  exists_code v hv := by
    interval_cases h : v.toNat
    · exact ⟨.sine, BitVec.eq_of_toNat_eq h⟩
    · exact ⟨.square, BitVec.eq_of_toNat_eq h⟩
    · exact ⟨.saw, BitVec.eq_of_toNat_eq h⟩
    · exact ⟨.triangle, BitVec.eq_of_toNat_eq h⟩
  reserved v hv := by
    unfold waveOfCode
    split
    case h_5 => rfl
    all_goals omega

theorem modeCodes : CodesUpTo modeCode modeOfCode 2 where
  ofCode_code m := by cases m <;> rfl
  exists_code v hv := by
    interval_cases h : v.toNat
    · exact ⟨.lp, BitVec.eq_of_toNat_eq h⟩
    · exact ⟨.hp, BitVec.eq_of_toNat_eq h⟩
    · exact ⟨.bp, BitVec.eq_of_toNat_eq h⟩
  reserved v hv := by
    unfold modeOfCode
    split
    case h_4 => rfl
    all_goals omega

theorem enableCodes : CodesUpTo enableCode enableOfCode 1 where
  ofCode_code b := by cases b <;> rfl
  exists_code v hv := by
    interval_cases h : v.toNat
    · exact ⟨false, BitVec.eq_of_toNat_eq h⟩
    · exact ⟨true, BitVec.eq_of_toNat_eq h⟩
  reserved v hv := by
    unfold enableOfCode
    split
    case h_3 => rfl
    all_goals omega

/-! #### What a write of each type of register does (R156) -/

/-- The write of a code register that is read by `read`: a code up to `max` is stored, any other is `BAD_KIND`. -/
def writesCode (w : TimbreWrite) (read : Timbre → Word) (max : Nat) (v : Word) : Prop :=
  (v.toNat ≤ max → ∃ t, w = .written t false ∧ read t = v) ∧ (max < v.toNat → w = .rejected .badKind)

/-- The write of an `f32` register that is read by `read`: of a finite value `legal` is stored, any other is
`BAD_VALUE`. -/
def writesReal (w : TimbreWrite) (read : Timbre → Word) (legal v : F32) : Prop :=
  (Fp.finite v = true → ∃ t, w = .written t (legal != v) ∧ read t = legal) ∧
    (Fp.finite v = false → w = .rejected .badValue)

theorem writeCode_spec {α : Type} {code : α → Word} {ofCode : Word → Option α} {max : Nat}
    (hcodes : CodesUpTo code ofCode max) {put : α → Timbre} {read : Timbre → Word} (hread : ∀ x, read (put x) = code x)
    (v : Word) : writesCode (writeCode (ofCode v) put) read max v := by
  refine ⟨fun hv => ?_, fun hv => by rw [hcodes.reserved v hv, writeCode]⟩
  obtain ⟨x, rfl⟩ := hcodes.exists_code v hv
  exact ⟨put x, by rw [hcodes.ofCode_code, writeCode], hread x⟩

theorem writeReal_spec {put : F32 → Timbre} {read : Timbre → Word} (hread : ∀ x, read (put x) = x)
    (legal v : F32) : writesReal (writeReal v legal put) read legal v :=
  ⟨fun hv => ⟨put legal, if_pos hv, hread legal⟩, fun hv => if_neg (by simp [hv])⟩

/-- The code registers of R14's table. -/
theorem writeReg_code {r : Reg} {s : State} {max : Nat} (hr : regLegal s.cfg r = .code max) (v : Word) :
    writesCode (writeReg s.cfg s.timbre r v) (fun t => readReg (putTimbre t s) r) max v := by
  cases r with
  | oscA | oscB | lfoShape =>
    cases hr
    exact writeCode_spec waveCodes (fun _ => rfl) v
  | fltMode =>
    cases hr
    exact writeCode_spec modeCodes (fun _ => rfl) v
  | grainEnable =>
    cases hr
    exact writeCode_spec enableCodes (fun _ => rfl) v
  | _ => cases hr

/-- The `f32` registers of R14's table: what `SETP` stores is the value brought between the table's bounds. -/
theorem writeReg_real {r : Reg} {s : State} {lo hi : Option F32} (hr : regLegal s.cfg r = .range lo hi) (v : Word) :
    writesReal (writeReg s.cfg s.timbre r v) (fun t => readReg (putTimbre t s) r) (boundedBy lo hi v) v := by
  cases r with
  | oscA | oscB | lfoShape | fltMode | grainEnable | status | activeCount | nextId | nvoices => cases hr
  | _ =>
    cases hr
    rw [writeReg]
    exact writeReal_spec (fun _ => rfl) _ v

/-- A write changes the one register. -/
theorem writeReg_frame {s : State} {r r' : Reg} {v : Word} {t : Timbre} {b : Bool}
    (hw : writeReg s.cfg s.timbre r v = .written t b) (hr : r' ≠ r) : readReg (putTimbre t s) r' = readReg s r' := by
  cases r with
  | status | activeCount | nextId | nvoices => cases hw
  | oscA | oscB | lfoShape | fltMode | grainEnable =>
    obtain ⟨x, rfl⟩ := writeCode_written hw
    cases r' <;> simp_all [readReg]
  | _ =>
    rw [writeReg] at hw
    obtain ⟨-, rfl⟩ := writeReal_written hw
    cases r' <;> simp_all [readReg]

/-! #### The commands -/

/-- `SETP` of a register other than `STATUS` goes by the table of R14. -/
theorem exec_setp {r : Reg} (hr : r ≠ .status) (v : Word) (s : State) :
    exec (.setp (.reg r) v) s = .next (setReg r v s) := by
  rcases execSetp_cases (.reg r) v s with ⟨b, hsel, -⟩ | ⟨hsel, -⟩ | ⟨r', -, hsel, h⟩
  · cases hsel
  · exact absurd (RegSel.reg.inj hsel) hr
  · cases hsel
    exact h

/-- A write that is refused leaves the registers and is rejected (R156). -/
theorem exec_setp_rejected {r : Reg} (hr : r ≠ .status) {v : Word} {s : State} {st : Status}
    (hw : writeReg s.cfg s.timbre r v = .rejected st) : exec (.setp (.reg r) v) s = .next (reject st s) := by
  rw [exec_setp hr, setReg, hw]

/-- A write that is done answers the register's new contents (R156). -/
theorem exec_setp_written {r : Reg} {v x : Word} {s : State} {t : Timbre} {b : Bool}
    (hw : writeReg s.cfg s.timbre r v = .written t b) (hx : readReg (putTimbre t s) r = x) :
    exec (.setp (.reg r) v) s = .next (answer (raisedIf b .clamped) x (putTimbre t s)) := by
  have hr : r ≠ .status := by rintro rfl; cases hw
  rw [exec_setp hr, setReg, hw, ← hx]

/-- An answer writes no register but `STATUS`. -/
theorem readReg_answer {r : Reg} (hr : r ≠ .status) (raised : List Status) (value : Word) (s : State) :
    readReg (answer raised value s) r = readReg s r := by
  cases r with
  | status => exact absurd rfl hr
  | _ => rfl

/-- An answer that raises nothing writes no register. -/
theorem readReg_answer_ok (r : Reg) (value : Word) (s : State) : readReg (answer [] value s) r = readReg s r := by
  cases r <;> rfl

/-- Settles O23: a legal code is stored, an unknown one refused, and each code means what the table says. -/
theorem setpWritesCodeRegisters : Obligations.SetpWritesCodeRegisters := by
  unfold Obligations.SetpWritesCodeRegisters
  refine ⟨fun r v s max hcode => ?writes, fun s p hp => ?wave, fun s p hp => ?mode, fun s p hp => ?enable⟩
  case writes =>
    have hr : r ≠ .status := by rintro rfl; cases hcode
    obtain ⟨hlegal, hunknown⟩ := writeReg_code hcode v
    refine ⟨fun hv => ?_, fun hv => exec_setp_rejected hr (hunknown hv)⟩
    obtain ⟨t, hw, hread⟩ := hlegal hv
    exact ⟨_, exec_setp_written hw hread, (readReg_answer hr ..).trans hread,
      fun r' hr' => (readReg_answer_ok ..).trans (writeReg_frame hw hr'), rfl⟩
  case wave => fin_cases hp <;> exact ⟨rfl, rfl, rfl⟩
  case mode => fin_cases hp <;> rfl
  case enable => fin_cases hp <;> rfl

/-- Settles O24: the value stored is the one between the bounds, and `CLAMPED` says whether it is the one written. -/
theorem setpWritesRealRegisters : Obligations.SetpWritesRealRegisters := by
  unfold Obligations.SetpWritesRealRegisters
  intro r v s lo hi hrange
  have hr : r ≠ .status := by rintro rfl; cases hrange
  obtain ⟨hfinite, hnot⟩ := writeReg_real hrange v
  refine ⟨fun hv => ?_, fun hv => exec_setp_rejected hr (hnot hv)⟩
  obtain ⟨t, hw, hread⟩ := hfinite hv
  refine ⟨_, exec_setp_written hw hread, (readReg_answer hr ..).trans hread,
    fun r' hr' hstatus => (readReg_answer hstatus ..).trans (writeReg_frame hw hr'), ?_⟩
  rw [answer_raisedIf]
  by_cases hsame : boundedBy lo hi v = v
  · simp only [hsame, bne_self_eq_false]
    rfl
  · simp only [hsame, bne_iff_ne.2 hsame]
    rfl

/-- A legal value is stored as it is, and nothing is raised. -/
theorem exec_setp_legal {r : Reg} {v : Word} {s : State}
    (h : (∃ max, regLegal s.cfg r = .code max ∧ v.toNat ≤ max) ∨
      ∃ lo hi, regLegal s.cfg r = .range lo hi ∧ Fp.finite v = true ∧ boundedBy lo hi v = v) :
    ∃ t, exec (.setp (.reg r) v) s = .next (answer [] v (putTimbre t s)) ∧ readReg (putTimbre t s) r = v := by
  rcases h with ⟨max, hcode, hv⟩ | ⟨lo, hi, hrange, hv, hsame⟩
  · obtain ⟨t, hw, hread⟩ := (writeReg_code hcode v).1 hv
    exact ⟨t, exec_setp_written hw hread, hread⟩
  · obtain ⟨t, hw, hread⟩ := (writeReg_real hrange v).1 hv
    rw [hsame, bne_self_eq_false] at hw
    exact ⟨t, exec_setp_written hw (hread.trans hsame), hread.trans hsame⟩

/-- Settles O27: what a legal `SETP` stores and answers is the value written, and `GETP` answers what is stored. -/
theorem setpThenGetpAnswersTheSameWord : Obligations.SetpThenGetpAnswersTheSameWord := by
  unfold Obligations.SetpThenGetpAnswersTheSameWord
  intro r v s h
  obtain ⟨t, hset, hread⟩ := exec_setp_legal h
  refine ⟨_, _, hset, exec_getp .., ?_, rfl⟩
  rw [readReg_answer_ok, hread, answer_ok, answer_ok]
  exact List.append_assoc ..

/-! ### `RENDER` (46_commands.md section 4) -/

/-- Settles O28: the first test of `RENDER`, before any frame. -/
theorem renderRejectsNonFiniteRate : Obligations.RenderRejectsNonFiniteRate := by
  unfold Obligations.RenderRejectsNonFiniteRate
  intro n c sr s hsr
  rcases execRender_cases n c sr s with ⟨-, h⟩ | ⟨hfinite, -⟩
  · exact h
  · cases hsr.symm.trans hfinite

/-- The state a `RENDER` of these operands leaves, but for its answer (R160 to R162). -/
def rendered (s : State) (o : RenderOperands) : State :=
  { s with voices := compact (renderRun s o).voices, out := (renderRun s o).out, rnd := (renderRun s o).rnd }

/-- A `RENDER` at a finite rate completes. -/
theorem exec_render {n c : Word} {sr : F32} {s : State} {o : RenderOperands} (hsr : Fp.finite sr = true)
    (ho : o = renderOperands s.cfg n c sr) : exec (.render n c sr) s =
      .next (answer (raisedIf o.clamped .clamped ++ raisedIf (renderRun s o).silenced .silenced)
        (BitVec.ofNat 32 o.frames) (rendered s o)) := by
  rcases execRender_cases n c sr s with ⟨hnot, -⟩ | ⟨-, h⟩
  · cases hsr.symm.trans hnot
  · rw [ho]
    exact h

/-- What a `RENDER` answers: of its two statuses `SILENCED` has the greater code (R181). -/
theorem answer_rendered (clamped silenced : Bool) (value : Word) (s : State) :
    answer (raisedIf clamped .clamped ++ raisedIf silenced .silenced) value s = { s with
      status := (if clamped then s.status ||| 0x1 else s.status) ||| (if silenced then 0x8 else 0)
      rsp := s.rsp ++ [if silenced then 3 else if clamped then 2 else 0, value] } := by
  cases silenced with
  | true => cases clamped <;> rfl
  | false =>
    have hkeep (w : Word) : w ||| 0 = w := BitVec.or_zero
    rw [raisedIf_false, List.append_nil, answer_raisedIf]
    simp only [Bool.false_eq_true, if_false, hkeep]
    rfl

/-- The operands as R159 writes their clamps: one has been clamped exactly where one is not the one given. -/
theorem renderOperands_eq {c : Params} {n cw : Word} {sr rate : F32} {ch fr : Nat}
    (hrate : rate = if Fp.lt sr c.srMin = true then c.srMin else sr)
    (hch : ch = if cw.toNat < 1 then 1 else if c.maxCh < cw.toNat then c.maxCh else cw.toNat)
    (hfr : fr = if c.outCap / ch < n.toNat then c.outCap / ch else n.toNat) :
    renderOperands c n cw sr = {
      frames := fr
      channels := ch
      rate := rate
      clamped := decide (Fp.lt sr c.srMin = true ∨ ch ≠ cw.toNat ∨ fr ≠ n.toNat) } := by
  have hframes : min n.toNat (c.outCap / ch) = fr := by rw [hfr]; split_ifs <;> omega
  have hless : c.outCap / ch < n.toNat ↔ fr ≠ n.toNat := by rw [hfr]; split_ifs <;> omega
  have hchannels : legalChannels c cw.toNat = ch := hch.symm
  simp only [renderOperands, hchannels, hframes, hless, Fp.atLeast, ← hrate, RenderOperands.mk.injEq, true_and]
  rw [Bool.eq_iff_iff]
  simp [or_assoc]

/-- Settles O29: the operands after their clamps, the frames, the compaction and the answer of the two statuses. -/
theorem renderCompletes : Obligations.RenderCompletes := by
  unfold Obligations.RenderCompletes
  rintro n c sr s rate ch fr x hsr hrate hch hfr rfl
  rw [exec_render hsr (renderOperands_eq hrate hch hfr).symm, answer_rendered]
  simp only [decide_eq_true_eq]
  rfl

/-! #### The frames (R160, R161) -/

/-- What the voice steps of a frame leave, in slot order, the draws going from one voice to the next (R160). -/
def voiceFrames (c : Params) (sr : F32) : List Voice → Rnd → List VoiceFrame
  | [], _ => []
  | v :: vs, r => voiceStep c sr v r :: voiceFrames c sr vs (voiceStep c sr v r).rnd

/-- The `rnd` port after some voice steps. -/
def rndAfter (r : Rnd) (fs : List VoiceFrame) : Rnd := (fs.getLast?.map (·.rnd)).getD r

theorem rndAfter_cons (r : Rnd) (f : VoiceFrame) (fs : List VoiceFrame) : rndAfter r (f :: fs) = rndAfter f.rnd fs := by
  rw [rndAfter, rndAfter, List.getLast?_cons]
  cases fs.getLast? <;> rfl

theorem voiceFrames_length (c : Params) (sr : F32) (vs : List Voice) (r : Rnd) :
    (voiceFrames c sr vs r).length = vs.length := by
  induction vs generalizing r with
  | nil => rfl
  | cons v vs ih => simp [voiceFrames, ih]

/-- A voice is stepped with the draws that the slots before it have left. -/
theorem voiceFrames_slot {c : Params} {sr : F32} {vs : List Voice} {i : Nat} {v : Voice} (h : vs[i]? = some v) (r : Rnd) :
    (voiceFrames c sr vs r)[i]? = some (voiceStep c sr v (rndAfter r ((voiceFrames c sr vs r).take i))) := by
  induction vs generalizing i r with
  | nil => cases h
  | cons w vs ih =>
    cases i with
    | zero =>
      obtain rfl : w = v := by simpa using h
      rfl
    | succ i =>
      rw [voiceFrames, List.getElem?_cons_succ, List.take_succ_cons, rndAfter_cons]
      exact ih (by simpa using h) _

/-- The sum of a frame, its voices, its draws and its silence from the voice steps. -/
theorem mixVoices_eq (c : Params) (sr : F32) (vs : List Voice) (acc : Val) (r : Rnd) :
    mixVoices c sr vs acc r =
      { acc := (voiceFrames c sr vs r).foldl (fun a f => c.num.add a f.sample) acc
        voices := (voiceFrames c sr vs r).map (·.voice)
        rnd := rndAfter r (voiceFrames c sr vs r)
        silenced := (voiceFrames c sr vs r).any (·.silenced) } := by
  induction vs generalizing acc r with
  | nil => rfl
  | cons v vs ih => rw [mixVoices, ih, voiceFrames, rndAfter_cons]; rfl

/-- The words of frame `k` hold its sample on every channel (R42, R161). -/
theorem readWord_frame {c : Params} {sr : F32} {ch frames k j : Nat} (hk : k < frames) (hj : j < ch) (x : RenderRun) :
    readWord (renderFrames c sr ch frames x).out (k * ch + j) = some (frameWord c sr (renderFrames c sr ch k x)) := by
  have hdiv : (k * ch + j) / ch = k := Nat.div_eq_of_lt_le (by omega) (by rw [Nat.succ_mul]; omega)
  have hinside : k * ch + j < frames * ch :=
    calc k * ch + j < (k + 1) * ch := by rw [Nat.succ_mul]; omega
      _ ≤ frames * ch := Nat.mul_le_mul_right _ hk
  rw [readWord_renderFrames, if_pos hinside, hdiv]

/-- Settles O31: the mix of a frame is a fold over what its voice steps leave. -/
theorem renderSampleIsTheClampedMix : Obligations.RenderSampleIsTheClampedMix := by
  unfold Obligations.RenderSampleIsTheClampedMix
  rintro n c sr s t o k j x y hsr ho h hk hj hx rfl
  have hmix := mixVoices_eq s.cfg o.rate x.voices .zero x.rnd
  refine ⟨voiceFrames s.cfg o.rate x.voices x.rnd, _, voiceFrames_length .., fun i v hslot => voiceFrames_slot hslot _, rfl,
    ?word, ?voices, ?rnd, ?silenced⟩
  case word =>
    rw [execRender_out hsr h, ← ho, renderRun, readWord_frame hk hj, ← hx, frameWord, hmix]
    rfl
  case voices => rw [renderFrames, ← hx, renderFrame, hmix]
  case rnd => rw [renderFrames, ← hx, renderFrame, hmix]; rfl
  case silenced => rw [renderFrames, ← hx, renderFrame, hmix]

/-! #### An empty pool -/

/-- Without a voice a frame changes `OUT` alone, and its sample is 0. -/
theorem renderFrames_of_empty {x : RenderRun} (hx : x.voices = []) (c : Params) (sr : F32) (ch k : Nat) :
    (renderFrames c sr ch k x).voices = [] ∧ (renderFrames c sr ch k x).rnd = x.rnd
      ∧ (renderFrames c sr ch k x).silenced = x.silenced := by
  induction k with
  | zero => exact ⟨hx, rfl, rfl⟩
  | succ k ih =>
    obtain ⟨hvoices, hrnd, hsilenced⟩ := ih
    have hzero : Val.zero.finite = true := rfl
    simp [renderFrames, renderFrame, hvoices, mixVoices, hrnd, hsilenced, hzero]

/-- The sample of a frame without a voice is 0 in every number format. -/
theorem frameWord_of_empty {x : RenderRun} (hx : x.voices = []) (c : Params) (sr : F32) : frameWord c sr x = 0 := by
  have hclamp : Val.clamp (if Val.zero.finite then .zero else .zero) .negOne .one = .f32 Fp.zero := by decide
  rw [frameWord, hx, mixVoices, mixSample, hclamp, NumFormat.store_f32]
  rfl

/-- `CLAMPED` is not the bit of `SILENCED`. -/
theorem clamped_bit (w : Word) : (w ||| 0x1) &&& 0x8 = w &&& 0x8 := by
  rw [BitVec.and_or_distrib_right]
  exact BitVec.or_zero

/-- Settles O32: no frame has a voice, so none silences, and each writes 0. -/
theorem renderOfAnEmptyPoolIsSilence : Obligations.RenderOfAnEmptyPoolIsSilence := by
  unfold Obligations.RenderOfAnEmptyPoolIsSilence
  intro n c sr s o hsr ho hempty
  have hframes := renderFrames_of_empty (x := { voices := s.voices, out := s.out, rnd := s.rnd, silenced := false }) hempty
    s.cfg o.rate o.channels
  obtain ⟨hvoices, hrnd, hsilenced⟩ : (renderRun s o).voices = [] ∧ (renderRun s o).rnd = s.rnd
    ∧ (renderRun s o).silenced = false := hframes o.frames
  refine ⟨_, exec_render hsr ho, ?voices, hrnd, ?status, fun a ha => ?word⟩
  case voices => simp [rendered, hvoices, compact]
  case status =>
    rw [hsilenced]
    cases o.clamped with
    | false => rfl
    | true => exact (clamped_bit s.status).symm
  case word =>
    rw [answer_out]
    have h := readWord_renderFrames s.cfg o.rate o.channels o.frames
      { voices := s.voices, out := s.out, rnd := s.rnd, silenced := false } a
    rw [if_pos ha, frameWord_of_empty (hframes _).1] at h
    exact h

/-! #### The compaction (R162) -/

theorem isActive_iff (v : Voice) : isActive v = true ↔ v.env.stage ≠ .idle := by
  simp [isActive]

/-- Settles O33: the compaction is a filter by the stage. -/
theorem renderRemovesExactlyTheIdleVoices : Obligations.RenderRemovesExactlyTheIdleVoices := by
  unfold Obligations.RenderRemovesExactlyTheIdleVoices
  rintro n c sr s t o x hsr ho rfl h
  obtain rfl := Host.Outcome.next.inj ((exec_render hsr ho).symm.trans h)
  rw [answer_voices, rendered, compact]
  refine ⟨fun v hv => (isActive_iff v).1 (List.mem_filter.1 hv).2,
    fun v hv hstage => List.mem_filter.2 ⟨hv, (isActive_iff v).2 hstage⟩, List.filter_sublist, ?_⟩
  rw [(renderRun s o).voices.length_eq_length_filter_add isActive]
  simp [isActive, bne]

/-- A stage of an envelope that has not been released. -/
def Stage.unreleased (st : Stage) : Prop := st = .attack ∨ st = .decay ∨ st = .sustain

/-- Of the stages before a release each goes on or ends in another of them (R95 to R97). -/
theorem envTick_unreleased {n : NumFormat} {t : Timbre} {dt : Tracked} {e : Env} (h : e.stage.unreleased) :
    (envTick n t dt e).stage.unreleased := by
  have hramp {target : Val} {len : F32} {next : Stage} (hnext : next.unreleased) :
      (envRamp n target len dt next e).stage.unreleased := by
    rcases envRamp_cases n target len dt next e with ⟨-, h'⟩ | ⟨-, h'⟩ <;> rw [h']
    · exact hnext
    · exact h
  rw [envTick]
  rcases h with hstage | hstage | hstage
  · rw [envBody_attack hstage]
    exact hramp (.inr (.inl rfl))
  · rw [envBody_decay hstage]
    exact hramp (.inr (.inr rfl))
  · rw [envBody_sustain hstage]
    exact .inr (.inr hstage)

theorem envTicks_unreleased {n : NumFormat} {t : Timbre} {dt : Tracked} {e : Env} (h : e.stage.unreleased) (k : Nat) :
    (envTicks n t dt k e).stage.unreleased := by
  induction k with
  | zero => exact h
  | succ k ih => exact envTick_unreleased ih

/-- Settles O34: only a release leads to Idle, and a frame releases nothing. -/
theorem renderKeepsUnreleasedVoices : Obligations.RenderKeepsUnreleasedVoices := by
  unfold Obligations.RenderKeepsUnreleasedVoices
  intro n c sr s t v h hv hstage
  cases hsr : Fp.finite sr with
  | false =>
    obtain rfl := Host.Outcome.next.inj ((renderRejectsNonFiniteRate n c sr s hsr).symm.trans h)
    exact ⟨v, hv, rfl, rfl, rfl⟩
  | true =>
    obtain rfl := Host.Outcome.next.inj ((exec_render hsr rfl).symm.trans h)
    obtain ⟨i, hslot⟩ := List.mem_iff_getElem?.1 hv
    obtain ⟨v', hslot', hid, hfreq, htimbre, henv, -⟩ :=
      framesTickEveryEnvelope s (renderOperands s.cfg n c sr) i v hslot
    have hunreleased : v'.env.stage.unreleased := henv ▸ envTicks_unreleased hstage _
    have hactive : isActive v' = true :=
      (isActive_iff v').2 (by rcases hunreleased with h' | h' | h' <;> simp [h'])
    exact ⟨v', List.mem_filter.2 ⟨List.mem_of_getElem? hslot', hactive⟩, hid, hfreq, htimbre⟩

end Sys2Proof.Machine

/-! PROOFS. The statements of 60_exceptions.md and 70_reset_and_hazards.md: no state stops the engine, and what reset leaves. -/

namespace Sys2Proof.Machine

/-! ### No state stops the engine (60_exceptions.md R175) -/

/-- Settles O6: of the things a step can do, each but the last names its next state, and no command is without an effect. -/
theorem stepAlwaysHasANextState : Obligations.StepAlwaysHasANextState := by
  unfold Obligations.StepAlwaysHasANextState
  intro s
  rcases step_cases s with ⟨-, hreset⟩ | ⟨-, -, hdeliver⟩ | ⟨-, -, haccept⟩ | ⟨why, header, rest, -, -, hreject⟩ |
    ⟨i, rest, -, -, hexec⟩
  · exact ⟨_, hreset⟩
  · exact ⟨_, hdeliver⟩
  · exact ⟨_, haccept⟩
  · exact ⟨_, hreject⟩
  · obtain ⟨t, ht, -⟩ := exec_effect i (consume rest s)
    exact ⟨t, hexec.trans ht⟩

/-! ### The reset state (70_reset_and_hazards.md R196) -/

/-- Settles O1: each register is the entry of R196's table, and the empty `OUT` lists no byte. -/
theorem resetLeavesTheListedState : Obligations.ResetLeavesTheListedState := by
  unfold Obligations.ResetLeavesTheListedState
  exact ⟨rfl, rfl, rfl, rfl, rfl, rfl, rfl, rfl, rfl, rfl, rfl, rfl, rfl, rfl, rfl, rfl, rfl, rfl, rfl, rfl, rfl, rfl, rfl,
    fun _ => rfl⟩

/-! ### Asserted reset (R195) -/

/-- In asserted reset a step is the reset of the engine. -/
theorem step_eq_resetEngine {s : State} (hrst : s.rst = true) : step s = .next (resetEngine s) :=
  if_pos hrst

/-- An asserted reset is the reset state, but for the parameters, the host's sides of the ports and the record (log 11). -/
theorem resetEngine_of_asserted {s : State} (hrst : s.rst = true) : resetEngine s = { State.reset with
    cfg := s.cfg, cmd := s.cmd, taken := s.taken, rspReady := s.rspReady, rst := true, rnd := s.rnd } := by
  rw [← hrst]
  rfl

/-- With no word accepted and none offered the engine waits for the first word of a command (R191, R195). -/
theorem step_eq_self_of_no_word {s : State} (hstart : canStart s = true) (hheld : s.held = []) (hcmd : s.cmd = []) :
    step s = .next s := by
  have hfetch : decode (stream s) = .incomplete := by rw [stream, hheld, hcmd]; rfl
  rw [step_eq_accept hstart hfetch, accept_nothing hcmd]

/-- Settles O2: the step is the reset of the engine, which leaves no accepted word and no response word. -/
theorem assertedResetHoldsTheResetState : Obligations.AssertedResetHoldsTheResetState := by
  unfold Obligations.AssertedResetHoldsTheResetState
  intro s hrst
  exact ⟨resetEngine s, step_eq_resetEngine hrst, resetEngine_of_asserted hrst, step_eq_self_of_no_word rfl rfl rfl⟩

/-! ### The invariants in the reset state -/

theorem reference_paramsLegal : paramsLegal Config.reference = true := by decide

theorem reset_timbreLegal : timbreLegal Config.reference Timbre.reset = true := by decide

/-- The longest grain lasts about 1000 s and twice the reset rate is 40 Hz, both far inside the format (R14, log 8). -/
theorem reset_grainRates_finite : Fp.finite (Fp.div Fp.one Config.reference.grainRateMin) = true
    ∧ Fp.finite (Fp.mul Fp.two Timbre.reset.grainRate) = true := by
  decide

/-- Settles O51: the parameters, the timbre and the grain rates are checked as the numbers they are; the invariants of the
voices, of the ids and of `OUT` speak of members of an empty pool and of bytes of an empty `OUT`. -/
theorem resetMeetsTheInvariants : Obligations.ResetMeetsTheInvariants := by
  unfold Obligations.ResetMeetsTheInvariants
  refine ⟨reference_paramsLegal, ?timbres, rfl, rfl, rfl, ?rates, ?ids, Nat.zero_le _,
    ⟨rfl, fun _ _ => rfl⟩, ?samples, ?status⟩
  case timbres => exact Bool.and_eq_true_iff.2 ⟨reset_timbreLegal, rfl⟩
  case rates =>
    obtain ⟨hlength, hrate⟩ := reset_grainRates_finite
    exact Bool.and_eq_true_iff.2 ⟨Bool.and_eq_true_iff.2 ⟨hlength, hrate⟩, rfl⟩
  case ids => exact ⟨by decide, List.forall_mem_nil _, List.nodup_nil⟩
  case samples => exact fun a b hbyte => nomatch hbyte
  case status => rw [statusLegal]; decide

end Sys2Proof.Machine
